-- ==== Sys2Proof/Word.lean ====
section
/-! DEFINITION. The bit-vector types of the machine: byte, doubleword, quadword (00_scope.md R11) and the full-width vector
register (10_state.md R20, MAX_VL = 512). -/

namespace Sys2Proof

/-- The unit of memory (20_memory.md R40). -/
abbrev Byte := BitVec 8

/-- A doubleword, the size of one result (00_scope.md R11). -/
abbrev Dword := BitVec 32

/-- A quadword, the size of one source element (00_scope.md R11). -/
abbrev Qword := BitVec 64

/-- A full vector register, `MAX_VL = 512` bits (10_state.md R20, D1). -/
abbrev VecWord := BitVec 512

end Sys2Proof
end

