-- ==== Sys2Proof/Config.lean ====
section
/-! DEFINITION. What the machine fixes once, and the values the spec leaves free. -/

namespace Sys2Proof.Config

/-- The longest instruction; a longer one is `#GP(0)` (30_encoding.md R60, R80 row 9). -/
def maxLength : Nat := 15

/-- Free value: the flag bits drawn after a SIMD floating-point fault. 40_conversion.md R106 says that MXCSR.IE and
MXCSR.PE are then each the old value or 1, and not which. Applied to the draw counter of State (log 9). -/
opaque freeFlag : Nat → Bool

/-- Free constant: the processor signature that RDX holds after reset (10_state.md R35, row `GPR[n]`), whose value the
spec does not give; nor does it give its width, which is PRESUMED to be 32 bits (log 8). -/
opaque processorSignature : BitVec 32

end Sys2Proof.Config
end

