-- ==== Sys2Proof/Syntax.lean ====
section
/-! DEFINITION. The instructions as data: one constructor of `Instr` per row of spec/opcode_table.json (30_encoding.md R88),
with the operands the encoding carries. -/

namespace Sys2Proof

/-- The parameter `MODE` (00_scope.md R6). Real-address and virtual-8086 mode are `mode32` with CR0.PE = 0 or
EFLAGS.VM = 1 (10_state.md R30). -/
inductive Mode
  | mode32
  | mode64
  deriving DecidableEq, Repr

/-- The six forms (00_scope.md R2). -/
inductive Form
  | sse
  | vex128
  | vex256
  | evex128
  | evex256
  | evex512
  deriving DecidableEq, Repr

/-- `KL`, the number of elements a form converts (00_scope.md R6). -/
def Form.kl : Form → Nat
  | .sse | .vex128 | .evex128 => 2
  | .vex256 | .evex256 => 4
  | .evex512 => 8

/-- `VL`, the width of a form's source in bits (00_scope.md R6). -/
def Form.vl : Form → Nat
  | .sse | .vex128 | .evex128 => 128
  | .vex256 | .evex256 => 256
  | .evex512 => 512

/-- The forms encoded with the EVEX prefix: the ones with writemask and broadcast. -/
def Form.isEvex : Form → Bool
  | .evex128 | .evex256 | .evex512 => true
  | .sse | .vex128 | .vex256 => false

/-- A vector register number `ZMM[0 .. 31]` (10_state.md R20). -/
abbrev VReg := Fin 32

/-- A general register number `GPR[0 .. 15]` (10_state.md R28). -/
abbrev Gpr := Fin 16

/-- An opmask register number `K[0 .. 7]` (10_state.md R23). -/
abbrev KReg := Fin 8

/-- The segment registers (10_state.md R32). -/
inductive SegReg
  | es
  | cs
  | ss
  | ds
  | fs
  | gs
  deriving DecidableEq, Repr

/-- The displacement bytes of a memory operand as encoded: an 8-bit one is not yet scaled (30_encoding.md R74). -/
inductive Disp
  | none
  | d8 (b : Byte)
  | d32 (w : Dword)
  deriving DecidableEq, Repr

/-- The addressing forms of 30_encoding.md R73. -/
inductive Address
  /-- `mod != 11b`, `rm` neither 100b nor (with `mod = 00b`) 101b. -/
  | base (b : Gpr) (disp : Disp)
  /-- `mod = 00b, rm = 101b`: disp32 alone in Mode32, RIP-relative in Mode64 (R75). -/
  | disp32 (w : Dword)
  /-- SIB with a base register; no index is `none` (encoded `X ++ index = 0100b`). -/
  | sib (base : Gpr) (index : Option Gpr) (scale : Fin 4) (disp : Disp)
  /-- SIB with `base = 101b` and `mod = 00b`: no base register, a disp32. -/
  | sibNoBase (index : Option Gpr) (scale : Fin 4) (w : Dword)
  deriving DecidableEq, Repr

/-- Operand 2, `ModRM:r/m` (30_encoding.md R66): a vector register or memory. -/
inductive Operand
  | reg (r : VReg)
  | mem (a : Address)
  deriving DecidableEq, Repr

/-- The optional legacy prefixes every form admits (30_encoding.md R60, R61, R83). -/
structure Prefixes where
  seg : Option SegReg
  addrSize : Bool
  deriving DecidableEq, Repr

/-- The EVEX masking fields: `k` is `aaa` (0 means no writemask), `z` asks for zeroing-masking (30_encoding.md R70). -/
structure Masking where
  k : KReg
  z : Bool
  deriving DecidableEq, Repr

/-- No writemask: the masking of the legacy and VEX forms (10_state.md R24). -/
def Masking.off : Masking := ⟨0, false⟩

/-- One constructor per row of spec/opcode_table.json, in the table's order. `x66` is the number of repeated 66H prefixes
beyond the mandatory one (30_encoding.md R61). A row with `b = 1` on a 128- or 256-bit form has a memory source only
(R71); on the 512-bit form a register source means `{sae}` and a memory source broadcast. -/
inductive Instr
  | sse (x66 : Nat) (p : Prefixes) (d : VReg) (src : Operand)
  | sseRex (x66 : Nat) (p : Prefixes) (d : VReg) (src : Operand)
  | vex128c5 (p : Prefixes) (d : VReg) (src : Operand)
  | vex128c4 (p : Prefixes) (d : VReg) (src : Operand)
  | vex256c5 (p : Prefixes) (d : VReg) (src : Operand)
  | vex256c4 (p : Prefixes) (d : VReg) (src : Operand)
  | evex128 (p : Prefixes) (d : VReg) (m : Masking) (src : Operand)
  | evex128b (p : Prefixes) (d : VReg) (m : Masking) (a : Address)
  | evex256 (p : Prefixes) (d : VReg) (m : Masking) (src : Operand)
  | evex256b (p : Prefixes) (d : VReg) (m : Masking) (a : Address)
  | evex512 (p : Prefixes) (d : VReg) (m : Masking) (src : Operand)
  | evex512b (p : Prefixes) (d : VReg) (m : Masking) (src : Operand)
  deriving DecidableEq, Repr

/-- The prefix shape of a row (30_encoding.md R88). -/
inductive Shape
  | legacy
  | legacyRex
  | vex2
  | vex3
  | evex
  deriving DecidableEq, Repr

/-- The fields of an instruction, the same for every row: what the encoder writes and the decoder reads. -/
structure Fields where
  shape : Shape
  form : Form
  x66 : Nat
  pre : Prefixes
  dst : VReg
  mask : Masking
  bbit : Bool
  src : Operand
  deriving DecidableEq, Repr

/-- The fields of an instruction. -/
def Instr.fields : Instr → Fields
  | .sse n p d o => ⟨.legacy, .sse, n, p, d, Masking.off, false, o⟩
  | .sseRex n p d o => ⟨.legacyRex, .sse, n, p, d, Masking.off, false, o⟩
  | .vex128c5 p d o => ⟨.vex2, .vex128, 0, p, d, Masking.off, false, o⟩
  | .vex128c4 p d o => ⟨.vex3, .vex128, 0, p, d, Masking.off, false, o⟩
  | .vex256c5 p d o => ⟨.vex2, .vex256, 0, p, d, Masking.off, false, o⟩
  | .vex256c4 p d o => ⟨.vex3, .vex256, 0, p, d, Masking.off, false, o⟩
  | .evex128 p d m o => ⟨.evex, .evex128, 0, p, d, m, false, o⟩
  | .evex128b p d m a => ⟨.evex, .evex128, 0, p, d, m, true, .mem a⟩
  | .evex256 p d m o => ⟨.evex, .evex256, 0, p, d, m, false, o⟩
  | .evex256b p d m a => ⟨.evex, .evex256, 0, p, d, m, true, .mem a⟩
  | .evex512 p d m o => ⟨.evex, .evex512, 0, p, d, m, false, o⟩
  | .evex512b p d m o => ⟨.evex, .evex512, 0, p, d, m, true, o⟩

end Sys2Proof
end

