-- ==== Sys2Proof/WellFormed.lean ====
section
/-! DEFINITION. The checks that make an instruction encodable in a mode: register numbers within what the row's prefix can
name (00_scope.md R6 `NVEC`; 30_encoding.md R67), address forms that have an encoding (R73), masking (R70), 16-bit
addressing and Mode32 restrictions (R61, R81 rows 2 and 4). The length limit is in Decode.lean, where lengths are known. -/

namespace Sys2Proof

/-- How many vector registers the destination field of a prefix shape can name (`NVEC`, 00_scope.md R6; R67). -/
def Shape.dstLimit : Mode → Shape → Nat
  | .mode32, _ => 8
  | .mode64, .legacy => 8
  | .mode64, .legacyRex | .mode64, .vex2 | .mode64, .vex3 => 16
  | .mode64, .evex => 32

/-- How many vector registers the source field of a prefix shape can name (30_encoding.md R63, R67). -/
def Shape.srcLimit : Mode → Shape → Nat
  | .mode32, _ => 8
  | .mode64, .legacy | .mode64, .vex2 => 8
  | .mode64, .legacyRex | .mode64, .vex3 => 16
  | .mode64, .evex => 32

/-- How many general registers an address under a prefix shape can name (30_encoding.md R63, R67). -/
def Shape.gprLimit : Mode → Shape → Nat
  | .mode32, _ => 8
  | .mode64, .legacy | .mode64, .vex2 => 8
  | .mode64, .legacyRex | .mode64, .vex3 | .mode64, .evex => 16

/-- The index register of a SIB byte: number 4 (`X ++ index = 0100b`) means no index and names no register (R73). -/
def indexOk (n : Nat) : Option Gpr → Bool
  | none => true
  | some x => decide (x.val < n) && decide (x.val ≠ 4)

/-- An address that the ModRM, SIB and displacement bytes can express, over the first `n` general registers (R73). -/
def Address.wf (n : Nat) : Address → Bool
  | .base b disp =>
    decide (b.val < n) && decide (b.val % 8 ≠ 4) && (decide (b.val % 8 ≠ 5) || decide (disp ≠ .none))
  | .disp32 _ => true
  | .sib b x _ disp => decide (b.val < n) && indexOk n x && (decide (b.val % 8 ≠ 5) || decide (disp ≠ .none))
  | .sibNoBase x _ _ => indexOk n x

/-- The source operand: a register or an address within the limits of the shape. -/
def Operand.wf (m : Mode) (sh : Shape) : Operand → Bool
  | .reg r => decide (r.val < sh.srcLimit m)
  | .mem a => a.wf (sh.gprLimit m)

/-- True of an operand in memory. -/
def Operand.isMem : Operand → Bool
  | .reg _ => false
  | .mem _ => true

/-- Zeroing-masking needs a writemask (30_encoding.md R70, R80 row 5). -/
def Masking.wf (m : Masking) : Bool := !m.z || decide (m.k ≠ 0)

/-- The checks on an instruction's fields, in a mode: REX only in Mode64 (R61); no 16-bit addressing (R81 row 4). -/
def Fields.wf (m : Mode) (f : Fields) : Bool :=
  decide (f.dst.val < f.shape.dstLimit m) && f.src.wf m f.shape && f.mask.wf
    && (decide (m = .mode64) || (decide (f.shape ≠ .legacyRex) && !(f.pre.addrSize && f.src.isMem)))

end Sys2Proof
end

