-- ==== Sys2Proof/Decode.lean ====
section
/-! DEFINITION. The decoder, total on any bytes and rejecting by name (30_encoding.md R60 to R83), then the encoder written
from the same layouts, and the host's `decodeTableWord`. -/

namespace Sys2Proof

/-- Why bytes are not an instruction with a meaning. `ud` and `tooLong` are exceptions (30_encoding.md R80); the others
are refusals (R81, R78), except `truncated`: the bytes given end inside the instruction. -/
inductive DecodeError
  /-- R80 rows 1 to 7. -/
  | ud
  /-- R80 row 9: longer than 15 bytes, `#GP(0)`. -/
  | tooLong
  /-- R78 step 3 "anything else", R81 row 3: the bytes are not this instruction. -/
  | otherInstruction
  /-- R81 row 1. -/
  | saeVectorLength
  /-- R81 row 2. -/
  | mode32Extension
  /-- R81 row 4. -/
  | addr16
  /-- R81 row 5. -/
  | repeatedPrefix
  /-- R81 row 7. -/
  | evexReserved
  | truncated
  deriving DecidableEq, Repr

/-- What the decoder must know of the machine: `MODE` and the parameter `SAE_LL_IGNORED` (00_scope.md R6). -/
structure DecodeEnv where
  mode : Mode
  saeLLIgnored : Bool
  deriving DecidableEq, Repr

/-! ### Prefixes (R78 steps 1 and 2) -/

/-- The legacy prefixes seen before the opcode (R78 step 1). -/
structure Scan where
  n66 : Nat
  segs : List SegReg
  n67 : Nat
  lock : Bool
  rep : Bool
  deriving DecidableEq, Repr

/-- No prefix seen. -/
def Scan.start : Scan := ⟨0, [], 0, false, false⟩

/-- The segment-override prefixes (R61). -/
def segOfByte (b : Byte) : Option SegReg :=
  if b = 0x26#8 then some .es
  else if b = 0x2E#8 then some .cs
  else if b = 0x36#8 then some .ss
  else if b = 0x3E#8 then some .ds
  else if b = 0x64#8 then some .fs
  else if b = 0x65#8 then some .gs
  else none

/-- Record one legacy prefix byte; `none` if the byte is none (R78 step 1). -/
def Scan.note (sc : Scan) (b : Byte) : Option Scan :=
  if b = 0x66#8 then some { sc with n66 := sc.n66 + 1 }
  else if b = 0x67#8 then some { sc with n67 := sc.n67 + 1 }
  else if b = 0xF0#8 then some { sc with lock := true }
  else if b = 0xF2#8 then some { sc with rep := true }
  else if b = 0xF3#8 then some { sc with rep := true }
  else match segOfByte b with
    | some g => some { sc with segs := sc.segs ++ [g] }
    | none => none

/-- Consume the legacy prefixes (R78 step 1). -/
def scanPrefixes (sc : Scan) : List Byte → Scan × List Byte
  | [] => (sc, [])
  | b :: bs =>
    match sc.note b with
    | some sc' => scanPrefixes sc' bs
    | none => (sc, b :: bs)

/-- Consume a REX prefix 40H..4FH, in Mode64 only (R78 step 2). -/
def takeRex (m : Mode) (bs : List Byte) : Option Byte × List Byte :=
  match m, bs with
  | .mode64, b :: tl => if b.extractLsb' 4 4 = 4#4 then (some b, tl) else (none, b :: tl)
  | _, bs => (none, bs)

/-! ### The head: escape or multi-byte prefix, and opcode (R78 step 3) -/

/-- The bytes of parts 3 and 4 of R60 that carry fields. -/
inductive Head
  | legacy
  | vex2 (p : Byte)
  | vex3 (p0 p1 : Byte)
  | evex (p0 p1 p2 : Byte)
  deriving DecidableEq, Repr

/-- R79: in Mode32 a byte C4H, C5H or 62H is a prefix only if bits 7:6 of the next byte are 11b. -/
def prefixHolds (m : Mode) (p : Byte) : Bool :=
  match m with
  | .mode64 => true
  | .mode32 => decide (p.extractLsb' 6 2 = 3#2)

/-- The opcode byte E6H must come next. -/
def expectOpcode (h : Head) : List Byte → Except DecodeError (Head × List Byte)
  | [] => .error .truncated
  | b :: tl => if b = 0xE6#8 then .ok (h, tl) else .error .otherInstruction

/-- After C5H: `pp = 01b` (R63). -/
def vex2Head (m : Mode) : List Byte → Except DecodeError (Head × List Byte)
  | [] => .error .truncated
  | p :: tl =>
    if prefixHolds m p && decide (p.extractLsb' 0 2 = 1#2) then expectOpcode (.vex2 p) tl
    else .error .otherInstruction

/-- After C4H: `mmmmm = 00001b`, `pp = 01b` (R63). -/
def vex3Head (m : Mode) : List Byte → Except DecodeError (Head × List Byte)
  | p0 :: p1 :: tl =>
    if prefixHolds m p0 && decide (p0.extractLsb' 0 5 = 1#5) && decide (p1.extractLsb' 0 2 = 1#2) then
      expectOpcode (.vex3 p0 p1) tl
    else .error .otherInstruction
  | p0 :: [] => if prefixHolds m p0 then .error .truncated else .error .otherInstruction
  | [] => .error .truncated

/-- After 62H: `mm = 01b`, `pp = 01b` (R64). The reserved bits are for R78 step 5. -/
def evexHead (m : Mode) : List Byte → Except DecodeError (Head × List Byte)
  | p0 :: p1 :: p2 :: tl =>
    if prefixHolds m p0 && decide (p0.extractLsb' 0 2 = 1#2) && decide (p1.extractLsb' 0 2 = 1#2) then
      expectOpcode (.evex p0 p1 p2) tl
    else .error .otherInstruction
  | p0 :: _ => if prefixHolds m p0 then .error .truncated else .error .otherInstruction
  | [] => .error .truncated

/-- R78 step 3. -/
def parseHead (m : Mode) : List Byte → Except DecodeError (Head × List Byte)
  | [] => .error .truncated
  | t :: tl =>
    if t = 0x0F#8 then expectOpcode .legacy tl
    else if t = 0xC5#8 then vex2Head m tl
    else if t = 0xC4#8 then vex3Head m tl
    else if t = 0x62#8 then evexHead m tl
    else .error .otherInstruction

/-- True of the VEX and EVEX heads. -/
def Head.isVexEvex : Head → Bool
  | .legacy => false
  | _ => true

/-- True of the EVEX head. -/
def Head.isEvex : Head → Bool
  | .evex _ _ _ => true
  | _ => false

/-- EVEX reserved bits: P0[3:2] other than 00b, or P1[2] = 0 (R64, R81 row 7). -/
def Head.reservedBits : Head → Bool
  | .evex p0 p1 _ => decide (p0.extractLsb' 2 2 ≠ 0#2) || !p1.getLsbD 2
  | _ => false

/-- The prefixes that are `#UD` (R78 step 4): F0H before any form; 66H, F2H, F3H or REX before a VEX or EVEX prefix. -/
def illegalPrefix (sc : Scan) (rex : Option Byte) (h : Head) : Bool :=
  sc.lock || (h.isVexEvex && (sc.n66 != 0 || sc.rep || rex.isSome))

/-- Why nothing is read after the head. F-SSE needs a 66H and no F2H or F3H (R61, R78 step 3). Reserved EVEX bits are refused
here, before any byte after the opcode is read, since the bits may give those bytes another meaning (R81 row 7), but after
the `#UD` of R78 step 4 (log 17). -/
def headRejects (sc : Scan) (rex : Option Byte) (h : Head) : Option DecodeError :=
  if !h.isVexEvex && (sc.n66 == 0 || sc.rep) then some .otherInstruction
  else if h.reservedBits && !illegalPrefix sc rex h then some .evexReserved
  else none

/-! ### ModRM, SIB and displacement (R65, R73, R74, R76) -/

/-- What ModRM, SIB and displacement say before the prefix extends the register numbers. -/
inductive RawOperand
  | reg (rm : BitVec 3)
  | base (rm : BitVec 3) (disp : Disp)
  | disp32 (w : Dword)
  | sib (scale : BitVec 2) (index base : BitVec 3) (disp : Disp)
  | sibNoBase (scale : BitVec 2) (index : BitVec 3) (w : Dword)
  /-- A memory operand with 16-bit addressing, which is refused whatever it names (R76, R81 row 4). -/
  | addr16
  deriving DecidableEq, Repr

/-- A little-endian disp32 (R74). -/
def dispWord (b0 b1 b2 b3 : Byte) : Dword := b3 ++ b2 ++ b1 ++ b0

/-- Four displacement bytes. -/
def takeDisp32 : List Byte → Except DecodeError (Dword × List Byte)
  | b0 :: b1 :: b2 :: b3 :: tl => .ok (dispWord b0 b1 b2 b3, tl)
  | _ => .error .truncated

/-- The displacement that `mod` calls for (R73): none, disp8 or disp32. -/
def takeDisp (md : BitVec 2) (bs : List Byte) : Except DecodeError (Disp × List Byte) :=
  if md = 0#2 then .ok (.none, bs)
  else if md = 1#2 then
    match bs with
    | b :: tl => .ok (.d8 b, tl)
    | [] => .error .truncated
  else
    match takeDisp32 bs with
    | .ok (w, tl) => .ok (.d32 w, tl)
    | .error e => .error e

/-- The SIB byte and what follows it (R73). -/
def parseSib (md : BitVec 2) : List Byte → Except DecodeError (RawOperand × List Byte)
  | [] => .error .truncated
  | sb :: tl =>
    let scale := sb.extractLsb' 6 2
    let index := sb.extractLsb' 3 3
    let base := sb.extractLsb' 0 3
    if md = 0#2 ∧ base = 5#3 then
      match takeDisp32 tl with
      | .ok (w, tl') => .ok (.sibNoBase scale index w, tl')
      | .error e => .error e
    else
      match takeDisp md tl with
      | .ok (d, tl') => .ok (.sib scale index base d, tl')
      | .error e => .error e

/-- ModRM and what follows it: the `reg` field, the raw operand, the rest of the bytes (R65, R73). -/
def parseModRM : List Byte → Except DecodeError (BitVec 3 × RawOperand × List Byte)
  | [] => .error .truncated
  | b :: tl =>
    let md := b.extractLsb' 6 2
    let rg := b.extractLsb' 3 3
    let rm := b.extractLsb' 0 3
    if md = 3#2 then .ok (rg, .reg rm, tl)
    else if rm = 4#3 then
      match parseSib md tl with
      | .ok (o, tl') => .ok (rg, o, tl')
      | .error e => .error e
    else if md = 0#2 ∧ rm = 5#3 then
      match takeDisp32 tl with
      | .ok (w, tl') => .ok (rg, .disp32 w, tl')
      | .error e => .error e
    else
      match takeDisp md tl with
      | .ok (d, tl') => .ok (rg, .base rm d, tl')
      | .error e => .error e

/-- Skip `n` bytes. -/
def skipBytes : Nat → List Byte → Except DecodeError (List Byte)
  | 0, bs => .ok bs
  | _ + 1, [] => .error .truncated
  | n + 1, _ :: tl => skipBytes n tl

/-- The displacement bytes of 16-bit addressing: a disp16 alone for `mod = 00b, rm = 110b`, a disp8 for `mod = 01b`, a disp16
for `mod = 10b` (R76). -/
def dispSize16 (md : BitVec 2) (rm : BitVec 3) : Nat :=
  if md = 0#2 then (if rm = 6#3 then 2 else 0) else if md = 1#2 then 1 else 2

/-- ModRM and what follows it under 16-bit addressing: there is no SIB byte (R76). -/
def parseModRM16 : List Byte → Except DecodeError (BitVec 3 × RawOperand × List Byte)
  | [] => .error .truncated
  | b :: tl =>
    let md := b.extractLsb' 6 2
    let rg := b.extractLsb' 3 3
    let rm := b.extractLsb' 0 3
    if md = 3#2 then .ok (rg, .reg rm, tl)
    else
      match skipBytes (dispSize16 md rm) tl with
      | .ok tl' => .ok (rg, .addr16, tl')
      | .error e => .error e

/-- ModRM and what follows it, in the layout of the addressing: 16-bit (R76) or 32- and 64-bit (R73). -/
def parseOperand (short : Bool) (bs : List Byte) : Except DecodeError (BitVec 3 × RawOperand × List Byte) :=
  if short then parseModRM16 bs else parseModRM bs

/-! ### Register numbers (R67) -/

/-- Logical (un-inverted) extension bits and the masking fields, whatever prefix carried them (R67, R70). -/
structure Ext where
  r : Bool
  x : Bool
  b : Bool
  r' : Bool
  w : Bool
  vvvv : BitVec 4
  v' : Bool
  ll : BitVec 2
  z : Bool
  bbit : Bool
  aaa : BitVec 3
  deriving DecidableEq, Repr

/-- The fields of a prefix (R61, R63, R64). Stored bits `~R`, `~X`, `~B`, `~R'` are un-inverted here; `vvvv` and `~V'`
stay as stored, since R68 speaks of the stored bits. Where a prefix lacks a field it gets the neutral value. -/
def extOf (rex : Option Byte) : Head → Ext
  | .legacy =>
    match rex with
    | some x => ⟨x.getLsbD 2, x.getLsbD 1, x.getLsbD 0, false, x.getLsbD 3, 15#4, true, 0#2, false, false, 0#3⟩
    | none => ⟨false, false, false, false, false, 15#4, true, 0#2, false, false, 0#3⟩
  | .vex2 p =>
    ⟨!p.getLsbD 7, false, false, false, false, p.extractLsb' 3 4, true, (0#1 ++ p.extractLsb' 2 1), false, false, 0#3⟩
  | .vex3 p0 p1 =>
    ⟨!p0.getLsbD 7, !p0.getLsbD 6, !p0.getLsbD 5, false, p1.getLsbD 7, p1.extractLsb' 3 4, true,
      (0#1 ++ p1.extractLsb' 2 1), false, false, 0#3⟩
  | .evex p0 p1 p2 =>
    ⟨!p0.getLsbD 7, !p0.getLsbD 6, !p0.getLsbD 5, !p0.getLsbD 4, p1.getLsbD 7, p1.extractLsb' 3 4, p2.getLsbD 3,
      p2.extractLsb' 5 2, p2.getLsbD 7, p2.getLsbD 4, p2.extractLsb' 0 3⟩

/-- A vector register number from its two extension bits and three low bits (R67). -/
def vregOf (b4 b3 : Bool) (lo : BitVec 3) : VReg :=
  (BitVec.ofBool b4 ++ BitVec.ofBool b3 ++ lo).toFin

/-- A general register number from its extension bit and three low bits (R67). -/
def gprOf (b3 : Bool) (lo : BitVec 3) : Gpr := (BitVec.ofBool b3 ++ lo).toFin

/-- The index register: `X ++ index = 0100b` is no index (R73). -/
def indexOf (x : Bool) (lo : BitVec 3) : Option Gpr :=
  if gprOf x lo = 4 then none else some (gprOf x lo)

/-- Operand 2 with its register numbers extended (R67): `X` is bit 4 of a register source in the EVEX forms only. `none` for
16-bit addressing, which has no meaning (R81 row 4). -/
def operandOf (isEvex : Bool) (e : Ext) : RawOperand → Option Operand
  | .reg rm => some (.reg (vregOf (isEvex && e.x) e.b rm))
  | .base rm d => some (.mem (.base (gprOf e.b rm) d))
  | .disp32 w => some (.mem (.disp32 w))
  | .sib sc ix bs d => some (.mem (.sib (gprOf e.b bs) (indexOf e.x ix) sc.toFin d))
  | .sibNoBase sc ix w => some (.mem (.sibNoBase (indexOf e.x ix) sc.toFin w))
  | .addr16 => none

/-! ### Field checks (R80, R81) and the whole decoder -/

/-- Everything read from the bytes, before the checks. -/
structure Parsed where
  scan : Scan
  rex : Option Byte
  head : Head
  reg : BitVec 3
  raw : RawOperand
  deriving DecidableEq, Repr

/-- True of a register source. -/
def RawOperand.isReg : RawOperand → Bool
  | .reg _ => true
  | _ => false

/-- R78 steps 1 to 3 and the operand bytes of step 5. A 67H in Mode32 selects 16-bit addressing (R73, R76). -/
def parse (m : Mode) (bs : List Byte) : Except DecodeError (Parsed × List Byte) :=
  let (sc, r0) := scanPrefixes Scan.start bs
  let (rex, r1) := takeRex m r0
  match parseHead m r1 with
  | .error e => .error e
  | .ok (h, r2) =>
    match headRejects sc rex h with
    | some e => .error e
    | none =>
      match parseOperand (decide (m = .mode32) && sc.n67 != 0) r2 with
      | .error e => .error e
      | .ok (rg, raw, r3) => .ok (⟨sc, rex, h, rg, raw⟩, r3)

/-- The `#UD` conditions of R80 rows 1 to 7. -/
def Parsed.isUd (p : Parsed) : Bool :=
  let e := extOf p.rex p.head
  illegalPrefix p.scan p.rex p.head
    || decide (e.vvvv ≠ 15#4)
    || (p.head.isEvex
        && (!e.v' || !e.w || (e.z && decide (e.aaa = 0#3)) || (decide (e.ll = 3#2) && !(p.raw.isReg && e.bbit))))

/-- R81 row 1: `b = 1` on a register source with `L'L != 10b`. -/
def Parsed.badSae (p : Parsed) : Bool :=
  let e := extOf p.rex p.head
  p.head.isEvex && p.raw.isReg && e.bbit && decide (e.ll ≠ 2#2)

/-- R81 row 2: an extension bit of a VEX or EVEX prefix that would name a register above 7 in Mode32. -/
def Parsed.extended (p : Parsed) : Bool :=
  let e := extOf p.rex p.head
  e.r || e.x || e.b || e.r'

/-- The refusals of R81 rows 1, 5 and 2, in this order, which is the model's (log 17). -/
def Parsed.refusal (env : DecodeEnv) (p : Parsed) : Option DecodeError :=
  if p.badSae && !env.saeLLIgnored then some .saeVectorLength
  else if decide (p.scan.segs.length > 1) || decide (p.scan.n67 > 1) then some .repeatedPrefix
  else if decide (env.mode = .mode32) && p.extended then some .mode32Extension
  else none

/-- The prefix shape of a parsed instruction. -/
def Parsed.shape (p : Parsed) : Shape :=
  match p.head with
  | .legacy => if p.rex.isSome then .legacyRex else .legacy
  | .vex2 _ => .vex2
  | .vex3 _ _ => .vex3
  | .evex _ _ _ => .evex

/-- The form (R62, R69): `VEX.L`, or `EVEX.L'L`; a register source with `b = 1` is the 512-bit form (R71, R81 row 1). -/
def Parsed.form (p : Parsed) : Form :=
  let e := extOf p.rex p.head
  match p.head with
  | .legacy => .sse
  | .vex2 _ | .vex3 _ _ => if e.ll = 0#2 then .vex128 else .vex256
  | .evex _ _ _ =>
    if p.raw.isReg && e.bbit then .evex512
    else if e.ll = 0#2 then .evex128
    else if e.ll = 1#2 then .evex256
    else .evex512

/-- The fields of a parsed instruction that passes the checks, given its operand 2. -/
def Parsed.fields (p : Parsed) (src : Operand) : Fields :=
  let e := extOf p.rex p.head
  { shape := p.shape
    form := p.form
    x66 := p.scan.n66 - 1
    pre := ⟨p.scan.segs.head?, p.scan.n67 == 1⟩
    dst := vregOf e.r' e.r p.reg
    mask := ⟨e.aaa.toFin, e.z⟩
    bbit := e.bbit
    src := src }

/-- The row of the opcode table that the fields belong to. -/
def Fields.toInstr (f : Fields) : Instr :=
  match f.shape, f.form, f.bbit, f.src with
  | .legacy, _, _, o => .sse f.x66 f.pre f.dst o
  | .legacyRex, _, _, o => .sseRex f.x66 f.pre f.dst o
  | .vex2, .vex256, _, o => .vex256c5 f.pre f.dst o
  | .vex2, _, _, o => .vex128c5 f.pre f.dst o
  | .vex3, .vex256, _, o => .vex256c4 f.pre f.dst o
  | .vex3, _, _, o => .vex128c4 f.pre f.dst o
  | .evex, .evex128, true, .mem a => .evex128b f.pre f.dst f.mask a
  | .evex, .evex256, true, .mem a => .evex256b f.pre f.dst f.mask a
  | .evex, .evex128, _, o => .evex128 f.pre f.dst f.mask o
  | .evex, .evex256, _, o => .evex256 f.pre f.dst f.mask o
  | .evex, _, true, o => .evex512b f.pre f.dst f.mask o
  | .evex, _, false, o => .evex512 f.pre f.dst f.mask o

/-- The decoder (R78): the instruction and the bytes after it, or why there is none. The bytes that make up the
instruction come first, then the length limit, then the `#UD` fields, then the refusals (R153 item 1; log 17). DESIGN
CHOICE (log 17, unsafe): fifteen bytes that end inside the instruction are `#GP(0)` also where they end before the opcode
(prefixes only), so that they need not be the beginning of this instruction. -/
def decode (env : DecodeEnv) (bs : List Byte) : Except DecodeError (Instr × List Byte) :=
  match parse env.mode bs with
  | .error .truncated => if bs.length < Config.maxLength then .error .truncated else .error .tooLong
  | .error e => .error e
  | .ok (p, rest) =>
    if bs.length - rest.length > Config.maxLength then .error .tooLong
    else if p.isUd then .error .ud
    else
      match p.refusal env with
      | some e => .error e
      | none =>
        match operandOf p.head.isEvex (extOf p.rex p.head) p.raw with
        | some src => .ok ((p.fields src).toInstr, rest)
        | none => .error .addr16

/-! ### The encoder -/

/-- The low three bits of a register number, as ModRM and SIB hold them. -/
def lo3 (n : Nat) : BitVec 3 := BitVec.ofNat 3 n

/-- The byte of a segment override (R61). -/
def SegReg.byte : SegReg → Byte
  | .es => 0x26#8
  | .cs => 0x2E#8
  | .ss => 0x36#8
  | .ds => 0x3E#8
  | .fs => 0x64#8
  | .gs => 0x65#8

/-- The optional prefixes, segment override first. -/
def Prefixes.bytes (p : Prefixes) : List Byte :=
  (match p.seg with
    | some g => [g.byte]
    | none => []) ++ (if p.addrSize then [0x67#8] else [])

/-- The `mod` field for a memory operand with this displacement (R73). -/
def Disp.mod : Disp → BitVec 2
  | .none => 0#2
  | .d8 _ => 1#2
  | .d32 _ => 2#2

/-- The four bytes of a disp32, little-endian (R74). -/
def dword4 (w : Dword) : List Byte :=
  [w.extractLsb' 0 8, w.extractLsb' 8 8, w.extractLsb' 16 8, w.extractLsb' 24 8]

/-- The displacement bytes (R74). -/
def Disp.bytes : Disp → List Byte
  | .none => []
  | .d8 b => [b]
  | .d32 w => dword4 w

/-- The index field of a SIB byte: 100b when there is none (R73). -/
def indexLo : Option Gpr → BitVec 3
  | none => 4#3
  | some x => lo3 x.val

/-- The three bits of an opmask register number (`aaa`, R70). -/
def kBits (k : KReg) : BitVec 3 := BitVec.ofFin k

/-- The two bits of a SIB scale (R73). -/
def scaleBits (sc : Fin 4) : BitVec 2 := BitVec.ofFin sc

/-- ModRM, SIB and displacement (R65, R73). -/
def modrmBytes (rg : BitVec 3) : Operand → List Byte
  | .reg r => [3#2 ++ rg ++ lo3 r.val]
  | .mem (.base b d) => (d.mod ++ rg ++ lo3 b.val) :: d.bytes
  | .mem (.disp32 w) => (0#2 ++ rg ++ 5#3) :: dword4 w
  | .mem (.sib b x sc d) => (d.mod ++ rg ++ 4#3) :: (scaleBits sc ++ indexLo x ++ lo3 b.val) :: d.bytes
  | .mem (.sibNoBase x sc w) => (0#2 ++ rg ++ 4#3) :: (scaleBits sc ++ indexLo x ++ 5#3) :: dword4 w

/-- The logical `X` bit an operand needs: bit 4 of a vector register source, bit 3 of an index (R67). -/
def Operand.extX : Operand → Bool
  | .reg r => r.val.testBit 4
  | .mem (.sib _ (some x) _ _) | .mem (.sibNoBase (some x) _ _) => x.val.testBit 3
  | .mem _ => false

/-- The logical `B` bit an operand needs: bit 3 of a vector register source or of a base (R67). -/
def Operand.extB : Operand → Bool
  | .reg r => r.val.testBit 3
  | .mem (.base b _) | .mem (.sib b _ _ _) => b.val.testBit 3
  | .mem _ => false

/-- One bit of a prefix byte. -/
def bit (b : Bool) : BitVec 1 := BitVec.ofBool b

/-- `EVEX.L'L` of a form (R62). -/
def Form.ll : Form → BitVec 2
  | .sse | .vex128 | .evex128 => 0#2
  | .vex256 | .evex256 => 1#2
  | .evex512 => 2#2

/-- `VEX.L` of a form (R62). -/
def Form.l (f : Form) : BitVec 1 := f.ll.extractLsb' 0 1

/-- Parts 3 and 4 of R60, and a REX byte before them: escape or multi-byte prefix, and opcode. Ignored bits are written
as REX.W = 0, VEX.W = 0 (R72). -/
def Fields.head (f : Fields) : List Byte :=
  let r := f.dst.val.testBit 3
  let x := f.src.extX
  let b := f.src.extB
  match f.shape with
  | .legacy => [0x0F#8, 0xE6#8]
  | .legacyRex => [4#4 ++ 0#1 ++ bit r ++ bit (f.src.isMem && x) ++ bit b, 0x0F#8, 0xE6#8]
  | .vex2 => [0xC5#8, bit (!r) ++ 15#4 ++ f.form.l ++ 1#2, 0xE6#8]
  | .vex3 =>
    [0xC4#8, bit (!r) ++ bit (!(f.src.isMem && x)) ++ bit (!b) ++ 1#5, 0#1 ++ 15#4 ++ f.form.l ++ 1#2, 0xE6#8]
  | .evex =>
    [0x62#8, bit (!r) ++ bit (!x) ++ bit (!b) ++ bit (!f.dst.val.testBit 4) ++ 0#2 ++ 1#2,
      1#1 ++ 15#4 ++ 1#1 ++ 1#2,
      bit f.mask.z ++ f.form.ll ++ bit f.bbit ++ 1#1 ++ kBits f.mask.k, 0xE6#8]

/-- The mandatory and repeated 66H bytes of the legacy forms (R61). -/
def Fields.opsize (f : Fields) : List Byte :=
  match f.shape with
  | .legacy | .legacyRex => List.replicate (f.x66 + 1) 0x66#8
  | .vex2 | .vex3 | .evex => []

/-- The encoder: the parts of R60 in order. -/
def Fields.encode (f : Fields) : List Byte :=
  f.opsize ++ (f.pre.bytes ++ (f.head ++ modrmBytes (lo3 f.dst.val) f.src))

/-- The bytes of an instruction. -/
def Instr.encode (i : Instr) : List Byte := i.fields.encode

/-- `len`, the instruction's length in bytes (R60). -/
def Instr.length (i : Instr) : Nat := i.encode.length

/-- An instruction that has an encoding in a mode, of at most 15 bytes (R60). -/
def Instr.wf (m : Mode) (i : Instr) : Bool := i.fields.wf m && decide (i.length ≤ Config.maxLength)

/-! ### The host's numbering of table words -/

/-- The low `n` bytes of `w`, least significant first. -/
def lowBytes : Nat → Nat → List Byte
  | 0, _ => []
  | n + 1, w => BitVec.ofNat 8 w :: lowBytes n (w / 256)

/-- Zero bytes up to the longest instruction, above the bits a table word gives. -/
def padded (bs : List Byte) : List Byte := bs ++ List.replicate (Config.maxLength - bs.length) 0#8

/-- Decoding for the table: Mode64, where all twelve rows are valid, and the spec's default `SAE_LL_IGNORED = false`. -/
def tableEnv : DecodeEnv := ⟨.mode64, false⟩

/-- The bytes of a table word in memory order. spec/opcode_table.json numbers a row's `fixed` bits with the FIRST byte most
significant (R88: "first byte leftmost"; 98_reader.md: "read as one number"); where that reading is not this instruction,
the first byte is taken to be the least significant one (log 21). -/
def tableBytes (nbits w : Nat) : List Byte :=
  let le := lowBytes (nbits / 8) w
  match decode tableEnv (padded le.reverse) with
  | .ok _ => padded le.reverse
  | .error _ => padded le

/-- The instruction the decoder reads from a table word. -/
def decodeTableWord (nbits w : Nat) : Option Instr :=
  match decode tableEnv (tableBytes nbits w) with
  | .ok (i, _) => some i
  | .error _ => none

end Sys2Proof
end

