-- ==== Sys2Proof/Machine/State.lean ====
section
/-! DEFINITION. The machine's state as plain data, its reset and INIT values, and the reasons a step can stop. -/

namespace Sys2Proof.Machine

/-- Memory as the spec's launch memory: a partial map from linear addresses to bytes (20_memory.md R53), kept as the
described cells in strictly rising order of address. An address with no cell is not described. -/
abbrev Memory := List Host.Cell

/-- The canonical form: addresses strictly rise and lie in the 64-bit linear address space (20_memory.md R40). An
undescribed address reads as nothing, so no entry can equal it. -/
abbrev Memory.wf (m : Memory) : Prop :=
  (m.map Prod.fst).Pairwise (· < ·) ∧ ∀ c ∈ m, c.1 < 2 ^ 64

/-- A segment register's hidden part, as far as the spec's checks read it (10_state.md R32, 60_exceptions.md R149). -/
structure Segment where
  base : BitVec 64
  limit : BitVec 32
  readable : Bool
  null : Bool
  deriving DecidableEq, Repr

/-- The six segment registers (10_state.md R32). -/
structure Segments where
  es : Segment
  cs : Segment
  ss : Segment
  ds : Segment
  fs : Segment
  gs : Segment
  deriving DecidableEq, Repr

/-- The CPUID feature flags the forms need (00_scope.md R6, 10_state.md R31): properties of the processor. -/
structure Features where
  hasSSE2 : Bool
  hasAVX : Bool
  hasAVX512F : Bool
  hasAVX512VL : Bool
  deriving DecidableEq, Repr

/-- The implementation parameters of 00_scope.md R6, constant in a run. -/
structure Params where
  saeLLIgnored : Bool
  faultSuppression : Bool
  deriving DecidableEq, Repr

/-- What the memory oracle answers for a region (20_memory.md R51, R47; 60_exceptions.md R149, R150). The last four page
answers are the page-fault causes of R150; `supervisor` faults at CPL 3 only. -/
inductive OracleAnswer
  | gp0
  | ss0
  | notPresent
  | supervisor
  | reservedBit
  | protectionKey
  | device
  deriving DecidableEq, Repr

/-- One region of the memory oracle: addresses `base .. base + size - 1`. -/
structure OracleRegion where
  base : Nat
  size : Nat
  answer : OracleAnswer
  deriving DecidableEq, Repr

/-- The machine (10_state.md). Every field is listed in INVENTORY.md, '## State', with its rule and reset value. -/
structure State where
  /-- `MODE` (00_scope.md R6). -/
  mode : Mode
  /-- The vector register file (10_state.md R20). -/
  zmm : Vector VecWord 32
  /-- The opmask registers (10_state.md R23). -/
  k : Vector (BitVec 64) 8
  /-- Floating-point control and status (10_state.md R25). -/
  mxcsr : BitVec 32
  /-- The general registers (10_state.md R28). -/
  gpr : Vector (BitVec 64) 16
  /-- The segment registers (10_state.md R32). -/
  seg : Segments
  /-- The program counter, RIP or EIP (10_state.md R27). -/
  pc : BitVec 64
  /-- EFLAGS (10_state.md R29, R35). -/
  eflags : BitVec 32
  /-- CR0 (10_state.md R30, R35). -/
  cr0 : BitVec 32
  /-- CR2, which receives a page fault's linear address (60_exceptions.md R142, R150; log 7). -/
  cr2 : BitVec 64
  /-- CR4 (10_state.md R30, R35). -/
  cr4 : BitVec 32
  /-- XCR0[7:0] (10_state.md R30). -/
  xcr0 : BitVec 8
  /-- The current privilege level (10_state.md R30 `SYS.CPL`). -/
  cpl : BitVec 2
  /-- The x87 control word (10_state.md R29). -/
  x87cw : BitVec 16
  /-- The x87 status word (10_state.md R29). -/
  x87sw : BitVec 16
  /-- The MMX registers (10_state.md R29). -/
  mmx : Vector (BitVec 64) 8
  /-- CPUID feature flags (10_state.md R31). -/
  features : Features
  /-- Implementation parameters (00_scope.md R6). -/
  params : Params
  /-- Launch memory, program text included (20_memory.md R40, R53). -/
  mem : Memory
  /-- The memory oracle (20_memory.md R51). -/
  oracle : List OracleRegion
  /-- The model's own counter of drawn free values (40_conversion.md R106; log 9). -/
  draws : Nat
  deriving DecidableEq, Repr

/-- The exceptions an instruction can raise (60_exceptions.md R142), each with the state at the fault, which is the state
before the instruction but for MXCSR.IE and MXCSR.PE after a SIMD floating-point fault (R154; 40_conversion.md R106). A
fault is the spec's own outcome (00_scope.md R10); what delivery does next is out of scope (R154; log 12). -/
inductive Fault
  /-- `#UD`, vector 6: bad encoding, missing enable or feature (R144 to R146, 30_encoding.md R80), or an unmasked SIMD
  floating-point exception with CR4.OSXMMEXCPT = 0 (R151). Raised by every form. Safe: the chip stops here too. -/
  | ud (s : State)
  /-- `#NM`, vector 7: CR0.TS = 1 (R148). Raised by every form. Safe. -/
  | nm (s : State)
  /-- `#SS(0)`, vector 12: the memory source through SS (R149). Raised by every form with a memory source. Safe. -/
  | ss0 (s : State)
  /-- `#GP(0)`, vector 13: segment, canonical or F-SSE alignment check of the memory source (R149, 20_memory.md R44), or an
  instruction longer than 15 bytes (30_encoding.md R60). Raised by every form. Safe. -/
  | gp0 (s : State)
  /-- `#PF(code)`, vector 14, with the linear address CR2 receives (R150). Raised by every form with a memory source. Safe. -/
  | pf (code : BitVec 32) (linear : BitVec 64) (s : State)
  /-- `#XM`, vector 19: an unmasked Invalid or Precision with CR4.OSXMMEXCPT = 1 (R151). Raised by every form without
  `{sae}`. Safe. -/
  | xm (s : State)
  deriving DecidableEq, Repr

/-- The state at the fault. -/
def Fault.state : Fault → State
  | .ud s | .nm s | .ss0 s | .gp0 s | .pf _ _ s | .xm s => s

/-- The vector number (60_exceptions.md R142). -/
def Fault.vector : Fault → Nat
  | .ud _ => 6
  | .nm _ => 7
  | .ss0 _ => 12
  | .gp0 _ => 13
  | .pf _ _ _ => 14
  | .xm _ => 19

/-- The error code, where the exception has one (60_exceptions.md R142). -/
def Fault.errorCode : Fault → Option (BitVec 32)
  | .ud _ | .nm _ | .xm _ => none
  | .ss0 _ | .gp0 _ => some 0
  | .pf code _ _ => some code

/-- The state as the exception's handler finds the recorded values: for `#PF`, CR2 holds the faulting linear address
(60_exceptions.md R142, R150). Nothing else of delivery is modelled (R154; log 7, log 12). -/
def Fault.recorded : Fault → State
  | .pf _ linear s => { s with cr2 := linear }
  | .ud s | .nm s | .ss0 s | .gp0 s | .xm s => s

/-- Refusals: the spec gives the bytes or the access no meaning (00_scope.md R10). All are safe: the model stops where the
chip may go on. -/
inductive Refusal
  /-- No meaning written yet; raised only by an arm of `exec`. Safe. -/
  | notModelled (mnemonic : String)
  /-- The bytes are another instruction or none (30_encoding.md R78 step 3, R81 row 3). Raised by the fetch. Safe. -/
  | otherInstruction
  /-- EVEX register source with `b = 1` and `L'L != 10b`, SAE_LL_IGNORED false (R81 row 1). Raised by the fetch. Safe. -/
  | saeVectorLength
  /-- Register-extension bits set in Mode32 (R81 row 2). Raised by the fetch. Safe. -/
  | mode32Extension
  /-- 16-bit addressing (R81 row 4). Raised by the fetch. Safe. -/
  | addr16
  /-- More than one segment override or 67H (R81 row 5). Raised by the fetch. Safe. -/
  | repeatedPrefix
  /-- Reserved EVEX bits (R81 row 7). Raised by the fetch. Safe. -/
  | evexReserved
  /-- The instruction bytes cannot all be fetched; fetch faults are out of scope (60_exceptions.md R153). Raised by the
  fetch. Safe. -/
  | codeFetch
  /-- A byte of the memory source that the launch memory does not describe (R81 row 6). Raised by every form with a memory
  source. Safe. -/
  | undescribedMemory
  /-- A memory source at a device address (20_memory.md R47). Raised by every form with a memory source. Safe. -/
  | deviceRead
  /-- A broadcast operand at an address that is not a multiple of 8 with alignment checking on (60_exceptions.md R152).
  Raised by the EVEX forms with `b = 1`. Safe. -/
  | alignmentCheckOpen
  deriving DecidableEq, Repr

/-- HAS_* from the CPUID words by the bit numbers of 10_state.md R31: leaf 1 EDX and ECX, leaf 7 EBX. -/
def Features.ofCpuid (leaf1edx leaf1ecx leaf7ebx : BitVec 32) : Features :=
  { hasSSE2 := leaf1edx.getLsbD 26
    hasAVX := leaf1ecx.getLsbD 28
    hasAVX512F := leaf7ebx.getLsbD 16
    hasAVX512VL := leaf7ebx.getLsbD 31 }

/-- A segment register after reset, base given: the family's values (log 5). -/
def Segment.atReset (base : BitVec 64) : Segment := ⟨base, 0xFFFF#32, true, false⟩

/-- The segment registers after reset: CS base FFFF0000H (10_state.md R35), the others base 0 (log 5). -/
def Segments.atReset : Segments :=
  let d := Segment.atReset 0
  ⟨d, Segment.atReset 0xFFFF0000#64, d, d, d, d⟩

/-- The general registers after reset: 0 except RDX, register 2, the processor signature (10_state.md R35). The spec gives
neither the signature's value nor its width: a free value of 32 bits, zero-extended, so that RDX[63:32] = 0, is the model's
choice (log 8: the value DESIGN CHOICE, safe; the width and the zero upper half PRESUMED, unsafe). -/
def gprAtReset : Vector (BitVec 64) 16 :=
  (Vector.replicate 16 0#64).set 2 (Config.processorSignature.setWidth 64)

/-- The machine after power-up or RESET: 10_state.md R35, first column; where it gives no value, the log's. -/
def State.reset : State :=
  { mode := .mode32
    zmm := Vector.replicate 32 0#512
    k := Vector.replicate 8 0#64
    mxcsr := 0x1F80#32
    gpr := gprAtReset
    seg := Segments.atReset
    pc := 0xFFF0#64
    eflags := 2#32
    cr0 := 0x60000010#32
    cr2 := 0#64
    cr4 := 0#32
    xcr0 := 1#8
    cpl := 0#2
    x87cw := 0x40#16
    x87sw := 0#16
    mmx := Vector.replicate 8 0#64
    features := Features.ofCpuid 0x04000000#32 0x10000000#32 0x80010000#32
    params := ⟨false, false⟩
    mem := []
    oracle := []
    draws := 0 }

/-- The machine after INIT: 10_state.md R35, second column. CR0 keeps its two cache bits (30 and 29; log 25). -/
def State.init (s : State) : State :=
  { s with
    mode := .mode32
    gpr := gprAtReset
    seg := Segments.atReset
    pc := 0xFFF0#64
    eflags := 2#32
    cr0 := (s.cr0 &&& 0x60000000#32) ||| 0x10#32
    cr4 := 0#32
    cpl := 0#2 }

end Sys2Proof.Machine
end

