-- ==== Sys2Proof/Machine/Ops.lean ====
section
/-! DEFINITION. Named operations over memory and registers, the system-state views of 10_state.md R30, the enables of
60_exceptions.md R144 to R146, and raising an exception. -/

namespace Sys2Proof.Machine

/-- A computation that gives a value, faults or refuses (00_scope.md R10). -/
abbrev Result (α : Type) := Host.Outcome α Fault Refusal

/-- Go on with the value; a fault or refusal ends the instruction (41_cvttpd2dq.md R120). -/
def Result.bind {α β : Type} (r : Result α) (f : α → Result β) : Result β :=
  match r with
  | .next a => f a
  | .fault e => .fault e
  | .refused e => .refused e

/-! ### Memory (20_memory.md R40, R53) -/

/-- The byte the launch memory describes at an address. -/
def Memory.get : Memory → Nat → Option Byte
  | [], _ => none
  | (a, b) :: m, x => if a = x then some b else Memory.get m x

/-- Describe a byte at an address, keeping the canonical form. No instruction does this (R46); the launch does. -/
def Memory.set : Memory → Nat → Byte → Memory
  | [], x, v => [(x, v)]
  | (a, b) :: m, x, v =>
    if x < a then (x, v) :: (a, b) :: m
    else if x = a then (x, v) :: m
    else (a, b) :: Memory.set m x v

/-! ### Vector words (00_scope.md R7) -/

/-- Source element `j`: `X[64j+63:64j]`. -/
def elem64 (v : VecWord) (j : Nat) : Qword := v.extractLsb' (64 * j) 64

/-- Destination element `j`: `X[32j+31:32j]`. -/
def elem32 (v : VecWord) (j : Nat) : Dword := v.extractLsb' (32 * j) 32

/-- The low `n` bits of a vector word, zero above: `X[n-1:0]`. -/
def lowBits (n : Nat) (v : VecWord) : VecWord := (v.setWidth n).setWidth 512

/-- Elements `0 .. n-1` placed at their bit positions, zero above. -/
def packLow : Nat → (Nat → Dword) → VecWord
  | 0, _ => 0
  | n + 1, f => packLow n f ||| ((f n).setWidth 512 <<< (32 * n))

/-! ### Registers -/

/-- Read `ZMM[n]`. -/
def State.readZmm (s : State) (n : VReg) : VecWord := s.zmm[n]

/-- Write `ZMM[n]`. -/
def State.writeZmm (s : State) (n : VReg) (v : VecWord) : State := { s with zmm := s.zmm.set n v }

/-- Read a general register: 64 bits in Mode64, the low 32 bits in Mode32 (10_state.md R28). -/
def State.readGpr (s : State) (n : Gpr) : BitVec 64 :=
  match s.mode with
  | .mode64 => s.gpr[n]
  | .mode32 => (s.gpr[n].setWidth 32).setWidth 64

/-- Truncate an address to the mode's width (20_memory.md R40, R45). -/
def State.truncAddr (s : State) (a : BitVec 64) : BitVec 64 :=
  match s.mode with
  | .mode64 => a
  | .mode32 => (a.setWidth 32).setWidth 64

/-- `pc + len`, the address of the next instruction, modulo 2^32 in Mode32 (10_state.md R27). R27 gives a wrap for Mode32 only:
that in Mode64 `pc + len` past 2^64 - 1 is taken modulo 2^64 is the model's choice (log 32, PRESUMED, unsafe). -/
def State.nextPc (s : State) (len : Nat) : BitVec 64 := s.truncAddr (s.pc + BitVec.ofNat 64 len)

/-- A segment register. -/
def State.segment (s : State) : SegReg → Segment
  | .es => s.seg.es
  | .cs => s.seg.cs
  | .ss => s.seg.ss
  | .ds => s.seg.ds
  | .fs => s.seg.fs
  | .gs => s.seg.gs

/-- `SegBase(seg)`: in Mode64 only FS and GS have a base (10_state.md R32). -/
def State.segBase (s : State) (g : SegReg) : BitVec 64 :=
  match s.mode, g with
  | .mode64, .fs => s.seg.fs.base
  | .mode64, .gs => s.seg.gs.base
  | .mode64, _ => 0
  | .mode32, g => (s.segment g).base

/-! ### System state (10_state.md R30) -/

/-- CR0.PE = 0. -/
def State.realMode (s : State) : Bool := !s.cr0.getLsbD 0
/-- `SYS.real_or_v86`. -/
def State.realOrV86 (s : State) : Bool := s.realMode || s.eflags.getLsbD 17
/-- `SYS.EM`. -/
def State.em (s : State) : Bool := s.cr0.getLsbD 2
/-- `SYS.TS`. -/
def State.ts (s : State) : Bool := s.cr0.getLsbD 3
/-- `SYS.OSFXSR`. -/
def State.osfxsr (s : State) : Bool := s.cr4.getLsbD 9
/-- `SYS.OSXMMEXCPT`. -/
def State.osxmmexcpt (s : State) : Bool := s.cr4.getLsbD 10
/-- 5-level paging, which widens canonical addresses (20_memory.md R40). -/
def State.la57 (s : State) : Bool := s.cr4.getLsbD 12
/-- `SYS.OSXSAVE`. -/
def State.osxsave (s : State) : Bool := s.cr4.getLsbD 18
/-- `XCR0[2:1] = 11b`. -/
def State.avxState (s : State) : Bool := s.xcr0.getLsbD 1 && s.xcr0.getLsbD 2
/-- `XCR0[7:5] = 111b`. -/
def State.avx512State (s : State) : Bool := s.xcr0.getLsbD 5 && s.xcr0.getLsbD 6 && s.xcr0.getLsbD 7
/-- `SYS.AM_AC`: CR0.AM and EFLAGS.AC, at CPL 3. -/
def State.amAc (s : State) : Bool := s.cr0.getLsbD 18 && s.eflags.getLsbD 18 && decide (s.cpl = 3#2)

/-- The CPUID flags of a form (10_state.md R31, 60_exceptions.md R145). -/
def State.hasFeatures (s : State) : Form → Bool
  | .sse => s.features.hasSSE2
  | .vex128 | .vex256 => s.features.hasAVX
  | .evex128 | .evex256 => s.features.hasAVX512F && s.features.hasAVX512VL
  | .evex512 => s.features.hasAVX512F

/-- The system enables of a form (60_exceptions.md R144). -/
def State.systemEnabled (s : State) : Form → Bool
  | .sse => !s.em && s.osfxsr
  | .vex128 | .vex256 => !s.realOrV86 && s.osxsave && s.avxState
  | .evex128 | .evex256 | .evex512 => !s.realOrV86 && s.osxsave && s.avxState && s.avx512State

/-- None of the `#UD` conditions of 60_exceptions.md R144, R145 and R146 (mode) holds. -/
def State.enabled (s : State) (f : Form) : Bool := s.systemEnabled f && s.hasFeatures f

/-! ### Raising an exception -/

/-- Taking an exception, as the spec describes it: `raise` ends the instruction with the named fault, the state at that
point being the state before the instruction, `pc` included (00_scope.md R9, 60_exceptions.md R154). -/
def raise {α : Type} (e : State → Fault) (s : State) : Result α := .fault (e s)

end Sys2Proof.Machine
end

