-- ==== Sys2Proof/Machine/Conversion.lean ====
section
/-! DEFINITION. The per-element conversion `cvtt` of 40_conversion.md. Values are exact: `scaledVal x` is `val(x)` times
2^1074, an integer for every finite binary64 number. -/

namespace Sys2Proof.Machine

/-- The sign bit `x[63]` (R100). -/
def signBit (x : Qword) : Bool := x.getLsbD 63

/-- The biased exponent `x[62:52]` (R100). -/
def expField (x : Qword) : Nat := (x.extractLsb' 52 11).toNat

/-- The fraction `x[51:0]` (R100). -/
def fracField (x : Qword) : Nat := (x.extractLsb' 0 52).toNat

/-- The exact value R100 gives a finite element. -/
def val (x : Qword) : ℚ :=
  let sgn : ℚ := if signBit x then -1 else 1
  if expField x = 0 then sgn * fracField x * (2 : ℚ) ^ (-1074 : ℤ)
  else sgn * (2 ^ 52 + fracField x) * (2 : ℚ) ^ ((expField x : ℤ) - 1075)

/-- `|val(x)| * 2^1074` (R100): `f` for a zero or denormal, `(2^52 + f) * 2^(e-1)` for a normal number. -/
def scaledMag (x : Qword) : Nat :=
  if expField x = 0 then fracField x else (2 ^ 52 + fracField x) * 2 ^ (expField x - 1)

/-- `val(x) * 2^1074` (R100). -/
def scaledVal (x : Qword) : Int := if signBit x then -(scaledMag x : Int) else scaledMag x

/-- `trunc(val(x))` (00_scope.md R9): the division rounds toward zero. -/
def truncVal (x : Qword) : Int := (scaledVal x).tdiv (2 ^ 1074)

/-- What one conversion gives: the result, invalid, inexact (R102). -/
structure Converted where
  r : Dword
  ie : Bool
  pe : Bool
  deriving DecidableEq, Repr

/-- The indefinite integer value with the invalid condition (R103). -/
def Converted.invalid : Converted := ⟨0x80000000#32, true, false⟩

/-- `cvtt(x, daz)` (R102; D5, D6, D8). -/
def cvtt (x : Qword) (daz : Bool) : Converted :=
  if expField x = 2047 then .invalid
  else if expField x = 0 ∧ fracField x ≠ 0 ∧ daz = true then ⟨0#32, false, false⟩
  else
    let t := truncVal x
    if t > 2 ^ 31 - 1 ∨ t < -2 ^ 31 then .invalid
    else ⟨BitVec.ofInt 32 t, false, decide (t * 2 ^ 1074 ≠ scaledVal x)⟩

end Sys2Proof.Machine
end

