-- ==== Sys2Proof/Machine/Flags.lean ====
section
/-! DEFINITION. MXCSR: its fields (10_state.md R25), the sticky flags (R26) and the masked or unmasked response to the
conditions of a conversion (40_conversion.md R106, R110). -/

namespace Sys2Proof.Machine

/-- MXCSR.IE. -/
def mxIE (m : BitVec 32) : Bool := m.getLsbD 0
/-- MXCSR.PE. -/
def mxPE (m : BitVec 32) : Bool := m.getLsbD 5
/-- MXCSR.DAZ. -/
def mxDAZ (m : BitVec 32) : Bool := m.getLsbD 6
/-- MXCSR.IM. -/
def mxIM (m : BitVec 32) : Bool := m.getLsbD 7
/-- MXCSR.PM. -/
def mxPM (m : BitVec 32) : Bool := m.getLsbD 12

/-- Set the sticky flags IE and PE where asked; no flag is ever cleared (10_state.md R25, R26). -/
def setFlags (m : BitVec 32) (ie pe : Bool) : BitVec 32 :=
  m ||| (if ie then 0x1#32 else 0#32) ||| (if pe then 0x20#32 else 0#32)

/-- An unmasked condition: invalid with IM = 0 or inexact with PM = 0 (40_conversion.md R106). -/
def unmasked (m : BitVec 32) (ie pe : Bool) : Bool := (ie && !mxIM m) || (pe && !mxPM m)

/-- The state a SIMD floating-point fault leaves: IE and PE each the old value or 1, by two free draws; every other bit of
MXCSR and the rest of the machine as before (40_conversion.md R106, U27; log 9). -/
def State.drawFlags (s : State) : State :=
  { s with
    mxcsr := setFlags s.mxcsr (Config.freeFlag (2 * s.draws)) (Config.freeFlag (2 * s.draws + 1))
    draws := s.draws + 1 }

/-- `raise SIMD_FP_exception`: `#XM`, or `#UD` when CR4.OSXMMEXCPT = 0 (60_exceptions.md R151). -/
def raiseSimd {α : Type} (s : State) : Result α :=
  if s.osxmmexcpt then raise .xm s.drawFlags else raise .ud s.drawFlags

/-- MXCSR after the response to the conditions: unchanged under `{sae}` (R110), else with the flags set; an unmasked
condition raises the SIMD floating-point exception instead (R106). -/
def respondFlags (sae : Bool) (ie pe : Bool) (s : State) : Result (BitVec 32) :=
  if sae then .next s.mxcsr
  else if unmasked s.mxcsr ie pe then raiseSimd s
  else .next (setFlags s.mxcsr ie pe)

end Sys2Proof.Machine
end

