-- ==== Sys2Proof/Machine/Operands.lean ====
section
/-! DEFINITION. Operand forms: the effective and linear address (30_encoding.md R73 to R75, 20_memory.md R45), the checks
of a memory read (60_exceptions.md R149, R150, R152), the memory oracle (20_memory.md R51), and the source vector (R41). -/

namespace Sys2Proof.Machine

/-- Operand 2 as the form uses it: a register, a register with `{sae}`, a full-width memory operand, or an 8-byte broadcast
operand (30_encoding.md R71). -/
inductive Source
  | reg (r : VReg)
  | regSae (r : VReg)
  | mem (a : Address)
  | bcst (a : Address)
  deriving DecidableEq, Repr

/-- Operand 2 of a row with no `b` bit or with `b = 0`. -/
def Source.plain : Operand → Source
  | .reg r => .reg r
  | .mem a => .mem a

/-- Operand 2 of the EVEX.512 row with `b = 1`: `{sae}` or broadcast (30_encoding.md R71). -/
def Source.special : Operand → Source
  | .reg r => .regSae r
  | .mem a => .bcst a

/-- `{sae}` is in force (40_conversion.md R110). -/
def Source.sae : Source → Bool
  | .regSae _ => true
  | .reg _ | .mem _ | .bcst _ => false

/-- The operand is a broadcast one (20_memory.md R43). -/
def Source.isBcst : Source → Bool
  | .bcst _ => true
  | .reg _ | .regSae _ | .mem _ => false

/-! ### The address -/

/-- The factor `N` of a compressed disp8 (30_encoding.md R74): 1 for the legacy and VEX forms; 8 for an EVEX broadcast;
the operand's bytes otherwise. -/
def dispFactor (f : Form) (bcst : Bool) : Nat :=
  if f.isEvex then (if bcst then 8 else f.vl / 8) else 1

/-- The displacement, sign-extended to 64 bits, an 8-bit one scaled by `N` (R74). -/
def dispValue (n : Nat) : Disp → BitVec 64
  | .none => 0
  | .d8 b => b.signExtend 64 * BitVec.ofNat 64 n
  | .d32 w => w.signExtend 64

/-- `IndexVal * 2^scale`, 0 without an index (R73). -/
def indexValue (s : State) (x : Option Gpr) (scale : Fin 4) : BitVec 64 :=
  match x with
  | none => 0
  | some r => s.readGpr r <<< scale.val

/-- The sum of R73 before truncation; `len` is the instruction's length, for RIP-relative addressing (R75). -/
def addressSum (s : State) (len n : Nat) : Address → BitVec 64
  | .base b d => s.readGpr b + dispValue n d
  | .disp32 w =>
    match s.mode with
    | .mode64 => s.nextPc len + w.signExtend 64
    | .mode32 => w.signExtend 64
  | .sib b x sc d => s.readGpr b + indexValue s x sc + dispValue n d
  | .sibNoBase x sc w => indexValue s x sc + w.signExtend 64

/-- `EA`, modulo `2^A` and zero-extended: `A` is 64 in Mode64, 32 in Mode32 or with a 67H prefix in Mode64 (R73). The
decoder never gives a memory operand with 67H in Mode32, whose `A` is 16 (R81 row 4). -/
def effAddr (s : State) (p : Prefixes) (len n : Nat) (a : Address) : BitVec 64 :=
  let sum := addressSum s len n a
  if s.mode = .mode64 ∧ p.addrSize = false then sum else (sum.setWidth 32).setWidth 64

/-- The default segment of a base register: SS for rSP and rBP, DS otherwise (R73). -/
def baseSeg (b : Gpr) : SegReg := if b = 4 ∨ b = 5 then .ss else .ds

/-- The default segment (R73). -/
def defaultSeg : Address → SegReg
  | .base b _ => baseSeg b
  | .sib b _ _ _ => baseSeg b
  | .disp32 _ | .sibNoBase _ _ _ => .ds

/-- The segment in force: an override replaces the default (10_state.md R32), but in Mode64 an ES, CS or DS override is ignored
(30_encoding.md R61). An SS override in Mode64 adds no base either (`State.segBase`), and names SS for the choice between
`#SS(0)` and `#GP(0)`, since 60_exceptions.md R149 has SS "by override" there (log 16, DEDUCED). -/
def effSeg (m : Mode) (p : Prefixes) (a : Address) : SegReg :=
  match m, p.seg with
  | _, none => defaultSeg a
  | .mode64, some .es | .mode64, some .cs | .mode64, some .ds => defaultSeg a
  | _, some g => g

/-- The linear address `SegBase(seg) + EA`, truncated to the address width (20_memory.md R45). -/
def linearAddr (s : State) (g : SegReg) (ea : BitVec 64) : BitVec 64 := s.truncAddr (s.segBase g + ea)

/-- The linear address of byte `o` of an operand at `addr` (20_memory.md R42; log 14). -/
def byteAddr (s : State) (addr : BitVec 64) (o : Nat) : BitVec 64 := s.truncAddr (addr + BitVec.ofNat 64 o)

/-- A canonical address: bits 63:47 all equal, or 63:56 with 5-level paging (20_memory.md R40). -/
def canonical (la57 : Bool) (a : BitVec 64) : Bool :=
  let n := if la57 then 56 else 47
  decide (a.toNat >>> n = 0) || decide (a.toNat >>> n = 2 ^ (64 - n) - 1)

/-! ### Which bytes are read -/

/-- Element `j` is computed: no writemask, or its mask bit is set (10_state.md R24, 40_conversion.md R109). -/
def computed (mk : Masking) (s : State) (j : Nat) : Bool := decide (mk.k = 0) || s.k[mk.k].getLsbD j

/-- The bytes of an 8-byte element at byte `8j`. -/
def elementBytes (j : Nat) : List Nat := [8 * j, 8 * j + 1, 8 * j + 2, 8 * j + 3, 8 * j + 4, 8 * j + 5, 8 * j + 6, 8 * j + 7]

/-- The offsets of the bytes that are read (20_memory.md R41, R43). With FAULT_SUPPRESSION an EVEX form reads only the bytes
of computed elements (R52). -/
def readOffsets (f : Form) (mk : Masking) (bcst : Bool) (s : State) : List Nat :=
  let needed := (List.range f.kl).filter (computed mk s)
  let suppress := s.params.faultSuppression && f.isEvex
  if bcst then (if suppress && needed.isEmpty then [] else elementBytes 0)
  else if suppress then needed.flatMap elementBytes
  else List.range (f.vl / 8)

/-! ### The checks, in the order of 60_exceptions.md R153 -/

/-- R149: a byte that is not canonical (Mode64), outside 0..FFFFH (real-address mode), or outside a usable, readable
segment's limit (Mode32). -/
def segmentViolation (s : State) (g : SegReg) (ea addr : BitVec 64) (offs : List Nat) : Bool :=
  match s.mode with
  | .mode64 => offs.any fun o => !canonical s.la57 (byteAddr s addr o)
  | .mode32 =>
    if s.realMode then offs.any fun o => decide (ea.toNat + o > 0xFFFF)
    else
      let seg := s.segment g
      offs.any fun o => seg.null || !seg.readable || decide (ea.toNat + o > seg.limit.toNat)

/-- The exception of a segment or canonical violation: `#SS(0)` for SS, else `#GP(0)`; in real-address mode `#GP(0)` (R149). -/
def segmentFault (s : State) (g : SegReg) : State → Fault :=
  if g = .ss ∧ ¬ (s.mode = .mode32 ∧ s.realMode = true) then .ss0 else .gp0

/-- True of an address in the region. -/
def OracleRegion.covers (r : OracleRegion) (a : BitVec 64) : Bool :=
  decide (r.base ≤ a.toNat) && decide (a.toNat < r.base + r.size)

/-- The first region with an answer of the wanted kind that covers one of the addresses, with the first such address. -/
def oracleHit (s : State) (want : OracleAnswer → Bool) (addrs : List (BitVec 64)) : Option (OracleAnswer × BitVec 64) :=
  s.oracle.findSome? fun r =>
    if want r.answer then (addrs.find? r.covers).map fun a => (r.answer, a) else none

/-- The answers that are segment or general-protection faults. -/
def OracleAnswer.isSegment : OracleAnswer → Bool
  | .gp0 | .ss0 => true
  | _ => false

/-- The answers that are page faults for a read at this privilege level (R150): a supervisor page only at CPL 3. -/
def OracleAnswer.isPageFault (cpl : BitVec 2) : OracleAnswer → Bool
  | .notPresent | .reservedBit | .protectionKey => true
  | .supervisor => decide (cpl = 3#2)
  | .gp0 | .ss0 | .device => false

/-- The device answer. -/
def OracleAnswer.isDevice : OracleAnswer → Bool
  | .device => true
  | _ => false

/-- The page-fault error code (R150): P, W/R = 0, U/S, RSVD, I/D = 0, PK. R150 gives bits 5:0 only: that the code is 32 bits
wide and bits 31:6 are 0 is the model's choice (log 34, PRESUMED). -/
def pageFaultCode (cpl : BitVec 2) (a : OracleAnswer) : BitVec 32 :=
  (if a = .notPresent then 0#32 else 0x1#32)
    ||| (if cpl = 3#2 then 0x4#32 else 0#32)
    ||| (if a = .reservedBit then 0x8#32 else 0#32)
    ||| (if a = .protectionKey then 0x20#32 else 0#32)

/-- The fault the oracle answers with: segment answers before page faults (R153 items 4 and 5). -/
def oracleFault (s : State) (addrs : List (BitVec 64)) : Option (State → Fault) :=
  match oracleHit s OracleAnswer.isSegment addrs with
  | some (.ss0, _) => some .ss0
  | some _ => some .gp0
  | none =>
    match oracleHit s (OracleAnswer.isPageFault s.cpl) addrs with
    | some (a, addr) => some (.pf (pageFaultCode s.cpl a) addr)
    | none => none

/-- The bytes at the offsets, little-endian: byte `o` of the operand in bits `[8o+7:8o]` (20_memory.md R42). `none` if the
launch memory does not describe one of them. -/
def gatherBytes (s : State) (addr : BitVec 64) : List Nat → Option VecWord
  | [] => some 0
  | o :: os =>
    match s.mem.get (byteAddr s addr o).toNat, gatherBytes s addr os with
    | some b, some v => some (v ||| (b.setWidth 512 <<< (8 * o)))
    | _, _ => none

/-- The read of a memory operand at effective address `ea` (20_memory.md R51), with its checks in the order of R153; within
its item 4 the alignment of F-SSE comes first, as in 41_cvttpd2dq.md R120 step 4 (log 35). Item 4 gives no order between a
segment or canonical violation that the state itself shows and an oracle answer `#GP(0)` or `#SS(0)`, which may name the other
exception: that the state's own check decides first is the model's choice (log 35, DESIGN CHOICE). A misaligned broadcast
operand with alignment checking on is refused whether or not a byte of it is read (20_memory.md R44; 60_exceptions.md R152). -/
def readMemory (f : Form) (bcst : Bool) (g : SegReg) (ea : BitVec 64) (offs : List Nat) (s : State) : Result VecWord :=
  let addr := linearAddr s g ea
  let addrs := offs.map (byteAddr s addr)
  if f = .sse ∧ addr.toNat % 16 ≠ 0 then raise .gp0 s
  else if segmentViolation s g ea addr offs then raise (segmentFault s g) s
  else
    match oracleFault s addrs with
    | some e => raise e s
    | none =>
      if (oracleHit s OracleAnswer.isDevice addrs).isSome then .refused .deviceRead
      else if bcst ∧ s.amAc = true ∧ addr.toNat % 8 ≠ 0 then .refused .alignmentCheckOpen
      else
        match gatherBytes s addr offs with
        | some v => .next v
        | none => .refused .undescribedMemory

/-- The source vector of 41_cvttpd2dq.md R120 step 4; a broadcast operand is bits 63:0 of it. -/
def readSource (f : Form) (len : Nat) (p : Prefixes) (mk : Masking) (src : Source) (s : State) : Result VecWord :=
  match src with
  | .reg r | .regSae r => .next (lowBits f.vl (s.readZmm r))
  | .mem a | .bcst a =>
    let ea := effAddr s p len (dispFactor f src.isBcst) a
    readMemory f src.isBcst (effSeg s.mode p a) ea (readOffsets f mk src.isBcst s) s

end Sys2Proof.Machine
end

