-- ==== Sys2Proof/Machine/Skeleton.lean ====
section
/-! DEFINITION. The common skeleton of the six forms, 41_cvttpd2dq.md R120 steps 2 to 8. -/

namespace Sys2Proof.Machine

/-- The source element that destination element `j` converts: `SRC[64j+63:64j]`, or `SRC[63:0]` when broadcast
(R120 step 5, 20_memory.md R43). -/
def sourceElem (src : Source) (v : VecWord) (j : Nat) : Qword := elem64 v (if src.isBcst then 0 else j)

/-- The conversion of element `j`. -/
def convertedAt (src : Source) (v : VecWord) (s : State) (j : Nat) : Converted :=
  cvtt (sourceElem src v j) (mxDAZ s.mxcsr)

/-- `IE_any`: the OR over the computed elements (40_conversion.md R109). -/
def anyInvalid (f : Form) (mk : Masking) (src : Source) (v : VecWord) (s : State) : Bool :=
  (List.range f.kl).any fun j => computed mk s j && (convertedAt src v s j).ie

/-- `PE_any` (40_conversion.md R109). -/
def anyInexact (f : Form) (mk : Masking) (src : Source) (v : VecWord) (s : State) : Bool :=
  (List.range f.kl).any fun j => computed mk s j && (convertedAt src v s j).pe

/-- Destination element `j`: the result if computed, else 0 under zeroing-masking, else the old element (R126). -/
def destElem (d : VReg) (mk : Masking) (src : Source) (v : VecWord) (s : State) (j : Nat) : Dword :=
  if computed mk s j then (convertedAt src v s j).r
  else if mk.z then 0#32
  else elem32 (s.readZmm d) j

/-- The new value of the destination register: the results, and above them the old bits from 128 up for F-SSE (R121), zeros
for the other forms (R122, R123, R126; 10_state.md R22). -/
def destValue (f : Form) (d : VReg) (mk : Masking) (src : Source) (v : VecWord) (s : State) : VecWord :=
  let low := packLow f.kl (destElem d mk src v s)
  match f with
  | .sse => (s.readZmm d >>> 128 <<< 128) ||| low
  | .vex128 | .vex256 | .evex128 | .evex256 | .evex512 => low

/-- Steps 7 and 8: write the destination and MXCSR, advance `pc`. -/
def commit (d : VReg) (new : VecWord) (mxcsr : BitVec 32) (len : Nat) (s : State) : State :=
  { s.writeZmm d new with mxcsr := mxcsr, pc := s.nextPc len }

/-- R120 steps 2 to 8: enables, `#NM`, source, convert, respond, write, advance. -/
def convert (f : Form) (len : Nat) (p : Prefixes) (d : VReg) (mk : Masking) (src : Source) (s : State) : Result State :=
  if s.enabled f = false then raise .ud s
  else if s.ts then raise .nm s
  else
    (readSource f len p mk src s).bind fun v =>
      (respondFlags src.sae (anyInvalid f mk src v s) (anyInexact f mk src v s) s).bind fun m =>
        .next (commit d (destValue f d mk src v s) m len s)

end Sys2Proof.Machine
end

