-- ==== Sys2Proof/Machine/Evex.lean ====
section
/-! DEFINITION. The meanings of the EVEX rows (41_cvttpd2dq.md R124, R125, R126). -/

namespace Sys2Proof.Machine

/-- `VCVTTPD2DQ xmm1 {k1}{z}, xmm2/m128`, `b = 0` (R124). -/
def execEvex128 (p : Prefixes) (d : VReg) (m : Masking) (src : Operand) (s : State) : Result State :=
  convert .evex128 (Instr.evex128 p d m src).length p d m (Source.plain src) s

/-- `VCVTTPD2DQ xmm1 {k1}{z}, m64bcst`, `b = 1` (R124). -/
def execEvex128b (p : Prefixes) (d : VReg) (m : Masking) (a : Address) (s : State) : Result State :=
  convert .evex128 (Instr.evex128b p d m a).length p d m (.bcst a) s

/-- `VCVTTPD2DQ xmm1 {k1}{z}, ymm2/m256`, `b = 0` (R125). -/
def execEvex256 (p : Prefixes) (d : VReg) (m : Masking) (src : Operand) (s : State) : Result State :=
  convert .evex256 (Instr.evex256 p d m src).length p d m (Source.plain src) s

/-- `VCVTTPD2DQ xmm1 {k1}{z}, m64bcst`, `b = 1`, 256-bit (R125). -/
def execEvex256b (p : Prefixes) (d : VReg) (m : Masking) (a : Address) (s : State) : Result State :=
  convert .evex256 (Instr.evex256b p d m a).length p d m (.bcst a) s

/-- `VCVTTPD2DQ ymm1 {k1}{z}, zmm2/m512`, `b = 0` (R126). -/
def execEvex512 (p : Prefixes) (d : VReg) (m : Masking) (src : Operand) (s : State) : Result State :=
  convert .evex512 (Instr.evex512 p d m src).length p d m (Source.plain src) s

/-- `VCVTTPD2DQ ymm1 {k1}{z}, zmm2{sae}` or `m64bcst`, `b = 1`, 512-bit (R126; 40_conversion.md R110). -/
def execEvex512b (p : Prefixes) (d : VReg) (m : Masking) (src : Operand) (s : State) : Result State :=
  convert .evex512 (Instr.evex512b p d m src).length p d m (Source.special src) s

end Sys2Proof.Machine
end

