-- ==== Sys2Proof/Machine/Sse.lean ====
section
/-! DEFINITION. The meanings of the legacy SSE rows (41_cvttpd2dq.md R121). -/

namespace Sys2Proof.Machine

/-- `CVTTPD2DQ xmm1, xmm2/m128`, no REX (R121). -/
def execSse (x66 : Nat) (p : Prefixes) (d : VReg) (src : Operand) (s : State) : Result State :=
  convert .sse (Instr.sse x66 p d src).length p d Masking.off (Source.plain src) s

/-- `CVTTPD2DQ xmm1, xmm2/m128` with a REX prefix (R121). -/
def execSseRex (x66 : Nat) (p : Prefixes) (d : VReg) (src : Operand) (s : State) : Result State :=
  convert .sse (Instr.sseRex x66 p d src).length p d Masking.off (Source.plain src) s

end Sys2Proof.Machine
end

