-- ==== Sys2Proof/Machine/Vex.lean ====
section
/-! DEFINITION. The meanings of the VEX rows (41_cvttpd2dq.md R122, R123). -/

namespace Sys2Proof.Machine

/-- `VCVTTPD2DQ xmm1, xmm2/m128`, two-byte VEX (R122). -/
def execVex128c5 (p : Prefixes) (d : VReg) (src : Operand) (s : State) : Result State :=
  convert .vex128 (Instr.vex128c5 p d src).length p d Masking.off (Source.plain src) s

/-- `VCVTTPD2DQ xmm1, xmm2/m128`, three-byte VEX (R122). -/
def execVex128c4 (p : Prefixes) (d : VReg) (src : Operand) (s : State) : Result State :=
  convert .vex128 (Instr.vex128c4 p d src).length p d Masking.off (Source.plain src) s

/-- `VCVTTPD2DQ xmm1, ymm2/m256`, two-byte VEX (R123). -/
def execVex256c5 (p : Prefixes) (d : VReg) (src : Operand) (s : State) : Result State :=
  convert .vex256 (Instr.vex256c5 p d src).length p d Masking.off (Source.plain src) s

/-- `VCVTTPD2DQ xmm1, ymm2/m256`, three-byte VEX (R123). -/
def execVex256c4 (p : Prefixes) (d : VReg) (src : Operand) (s : State) : Result State :=
  convert .vex256 (Instr.vex256c4 p d src).length p d Masking.off (Source.plain src) s

end Sys2Proof.Machine
end

