-- ==== Sys2Proof/Machine/Dispatch.lean ====
section
/-! DEFINITION. The one match from instruction to meaning. -/

namespace Sys2Proof.Machine

/-- Run one decoded instruction. -/
def exec (i : Instr) (s : State) : Host.Outcome State Fault Refusal :=
  match i with
  | .sse n p d o => Sys2Proof.Machine.execSse n p d o s
  | .sseRex n p d o => Sys2Proof.Machine.execSseRex n p d o s
  | .vex128c5 p d o => Sys2Proof.Machine.execVex128c5 p d o s
  | .vex128c4 p d o => Sys2Proof.Machine.execVex128c4 p d o s
  | .vex256c5 p d o => Sys2Proof.Machine.execVex256c5 p d o s
  | .vex256c4 p d o => Sys2Proof.Machine.execVex256c4 p d o s
  | .evex128 p d m o => Sys2Proof.Machine.execEvex128 p d m o s
  | .evex128b p d m a => Sys2Proof.Machine.execEvex128b p d m a s
  | .evex256 p d m o => Sys2Proof.Machine.execEvex256 p d m o s
  | .evex256b p d m a => Sys2Proof.Machine.execEvex256b p d m a s
  | .evex512 p d m o => Sys2Proof.Machine.execEvex512 p d m o s
  | .evex512b p d m o => Sys2Proof.Machine.execEvex512b p d m o s

end Sys2Proof.Machine
end

