-- ==== Sys2Proof/Machine/Fetch.lean ====
section
/-! DEFINITION. Fetching and decoding at `pc`, and the launch that places a program (70_reset_and_hazards.md R170, R171). -/

namespace Sys2Proof.Machine

/-- The linear address of instruction byte `o`: code is fetched from the one linear address space, at `CS base + EIP` in
Mode32 (20_memory.md R40; 10_state.md R27, R35; log 13). The spec is silent on instruction bytes that run past the top of the
linear address space: that the fetch goes on at address 0, in Mode64 past 2^64 - 1 and in Mode32 past 2^32 - 1, is the
model's choice (log 13, PRESUMED, unsafe). -/
def codeAddr (s : State) (o : Nat) : BitVec 64 := s.truncAddr (s.segBase .cs + s.pc + BitVec.ofNat 64 o)

/-- Instruction byte `o` can be fetched: canonical in Mode64, within the code segment's limit in Mode32, in no region of the
memory oracle that answers a read otherwise. What a failed fetch does is out of scope (60_exceptions.md R153; log 13). The
spec is silent on a Mode32 instruction whose bytes run past EIP FFFFFFFFH: the model does not wrap EIP within an instruction,
so those bytes are above every limit, FFFFFFFFH included, and cannot be fetched (log 13, DESIGN CHOICE, safe). -/
def codeReadable (s : State) (o : Nat) : Bool :=
  (match s.mode with
    | .mode64 => canonical s.la57 (codeAddr s o)
    | .mode32 => decide (s.pc.toNat + o ≤ s.seg.cs.limit.toNat))
  && (oracleHit s (fun a => a.isSegment || a.isPageFault s.cpl || a.isDevice) [codeAddr s o]).isNone

/-- Instruction byte `o`, if it can be fetched and the launch memory describes it. -/
def codeByte (s : State) (o : Nat) : Option Byte :=
  if codeReadable s o then s.mem.get (codeAddr s o).toNat else none

/-- The instruction bytes from offset `o` on, at most `n`, up to the first that cannot be fetched. -/
def codeBytesFrom (s : State) : Nat → Nat → List Byte
  | 0, _ => []
  | n + 1, o =>
    match codeByte s o with
    | some b => b :: codeBytesFrom s n (o + 1)
    | none => []

/-- The bytes at `pc` that the decoder may look at (30_encoding.md R60: at most 15). -/
def codeBytes (s : State) : List Byte := codeBytesFrom s Config.maxLength 0

/-- What the decoder must know of the state. -/
def decodeEnv (s : State) : DecodeEnv := ⟨s.mode, s.params.saeLLIgnored⟩

/-- The outcome of a decoder rejection: `#UD` or `#GP(0)` (30_encoding.md R80) or the refusal of R81's row. -/
def rejectDecode {α : Type} (s : State) : DecodeError → Result α
  | .ud => raise .ud s
  | .tooLong => raise .gp0 s
  | .otherInstruction => .refused .otherInstruction
  | .saeVectorLength => .refused .saeVectorLength
  | .mode32Extension => .refused .mode32Extension
  | .addr16 => .refused .addr16
  | .repeatedPrefix => .refused .repeatedPrefix
  | .evexReserved => .refused .evexReserved
  | .truncated => .refused .codeFetch

/-- R120 step 1: the instruction at `pc`. -/
def fetchDecode (s : State) : Result Instr :=
  match decode (decodeEnv s) (codeBytes s) with
  | .ok (i, _) => .next i
  | .error e => rejectDecode s e

/-- The enables after the boot steps of 70_reset_and_hazards.md R171, the "enabled" values of 10_state.md R30, in Mode64.
DESIGN CHOICE (log 1): CR0.MP (bit 1), which R171 step 3 only recommends to set, is left as it was, so it is 0 from reset. -/
def enableAll (s : State) : State :=
  { s with
    mode := .mode64
    eflags := s.eflags &&& 0xFFFDFFFF#32
    cr0 := (s.cr0 &&& 0xFFFFFFF3#32) ||| 0x1#32
    cr4 := s.cr4 ||| 0x40600#32
    xcr0 := 0xE7#8 }

/-- Describe the bytes at consecutive instruction offsets from `o` on. -/
def placeCode (s : State) : Nat → List Byte → State
  | _, [] => s
  | o, b :: bs => placeCode { s with mem := s.mem.set (codeAddr s o).toNat b } (o + 1) bs

end Sys2Proof.Machine
end

