-- ==== Sys2Proof/Machine/Step.lean ====
section
/-! DEFINITION. One step of the machine (41_cvttpd2dq.md R120), and the host's placing of one instruction. -/

namespace Sys2Proof.Machine

/-- Fetch and decode the instruction at `pc`, then run it. -/
def step (s : State) : Host.Outcome State Fault Refusal :=
  Result.bind (fetchDecode s) fun i => exec i s

/-- The launch state that runs one instruction of the opcode table next. The spec's machine does not come to its first
instruction from reset by itself: a launch state is supplied from outside (70_reset_and_hazards.md R170, R178), with the
boot steps of R171 done. So this sets the enables and Mode64 and stores the bytes at `pc` (log 1). -/
def State.withFetchWord (s : State) (nbits w : Nat) : State :=
  placeCode (enableAll s) 0 (tableBytes nbits w)

end Sys2Proof.Machine
end

