-- ==== Sys2Proof/Safety.lean ====
section
/-! DEFINITION. The terms claims are stated in: the launch premises of 70_reset_and_hazards.md R172, what an operand holds,
what a completed instruction has done, the bit-level form of the conversion, runs, and the invariant of the state. -/

namespace Sys2Proof.Machine

/-! ### The conversion, in the words of 40_conversion.md -/

/-- `trunc` on exact rationals (00_scope.md R9): `floor` for `v >= 0`, `ceil` for `v < 0`. -/
def trunc (v : ℚ) : Int := if 0 ≤ v then ⌊v⌋ else ⌈v⌉

/-- The bit-level table of R101, row by row, after the `e = 2047` and DAZ cases. -/
def cvttTable (x : Qword) (daz : Bool) : Converted :=
  let e := expField x
  let f := fracField x
  let m := 2 ^ 52 + f
  if e = 2047 then .invalid
  else if e = 0 ∧ f ≠ 0 ∧ daz = true then ⟨0#32, false, false⟩
  else if e = 0 then ⟨0#32, false, decide (f ≠ 0)⟩
  else if e ≤ 1022 then ⟨0#32, false, true⟩
  else if e ≤ 1053 then
    let sh := 1075 - e
    let mag := m >>> sh
    ⟨if signBit x then BitVec.ofNat 32 (2 ^ 32 - mag) else BitVec.ofNat 32 mag, false, decide (m % 2 ^ sh ≠ 0)⟩
  else if e = 1054 ∧ signBit x = true ∧ f < 2 ^ 21 then ⟨0x80000000#32, false, decide (f ≠ 0)⟩
  else .invalid

/-! ### Launch premises (R172) -/

/-- `Enabled(F)`: the `#UD` conditions of 60_exceptions.md R144 to R146 do not fire for the form, and TS = 0. -/
def Enabled (f : Form) (s : State) : Prop := s.enabled f = true ∧ s.ts = false

/-- `CodeAt`: the instruction bytes stand at `pc` and can be fetched. -/
def CodeAt (bytes : List Byte) (s : State) : Prop := ∀ o, o < bytes.length → codeByte s o = bytes[o]?

/-- `AllMasked`. -/
def AllMasked (s : State) : Prop := mxIM s.mxcsr = true ∧ mxPM s.mxcsr = true

/-- Some computed element is invalid: `IE_any` (40_conversion.md R109), `e j` being source element `j`. -/
def RaisesInvalid (f : Form) (mk : Masking) (e : Nat → Qword) (s : State) : Prop :=
  ∃ j, j < f.kl ∧ computed mk s j = true ∧ (cvtt (e j) (mxDAZ s.mxcsr)).ie = true

/-- Some computed element is inexact: `PE_any` (R109). -/
def RaisesInexact (f : Form) (mk : Masking) (e : Nat → Qword) (s : State) : Prop :=
  ∃ j, j < f.kl ∧ computed mk s j = true ∧ (cvtt (e j) (mxDAZ s.mxcsr)).pe = true

/-- `NoUnmaskedCondition`: what is raised is masked (40_conversion.md R106). -/
def NoUnmaskedCondition (f : Form) (mk : Masking) (e : Nat → Qword) (s : State) : Prop :=
  (RaisesInvalid f mk e s → mxIM s.mxcsr = true) ∧ (RaisesInexact f mk e s → mxPM s.mxcsr = true)

/-! ### The effective address as exact arithmetic (30_encoding.md R73, R74) -/

/-- The width of an address and of `pc`: 64 bits in Mode64, 32 in Mode32 (10_state.md R27; 20_memory.md R40). -/
def addrBits : Mode → Nat
  | .mode64 => 64
  | .mode32 => 32

/-- The address size `A`: 64 in Mode64, 32 with a 67H prefix; 32 in Mode32, 16 with a 67H prefix, which the decoder refuses
with a memory operand (R73, R76, R81 row 4). -/
def addressSize (m : Mode) (p : Prefixes) : Nat :=
  match m, p.addrSize with
  | .mode64, false => 64
  | .mode64, true => 32
  | .mode32, false => 32
  | .mode32, true => 16

/-- The value of a base or index register: the whole register in Mode64, its low 32 bits in Mode32 (10_state.md R28). -/
def gprInt (s : State) (b : Gpr) : Int := ((s.gpr[b].toNat % 2 ^ addrBits s.mode : Nat) : Int)

/-- `IndexVal * 2^scale` (R73). -/
def indexInt (s : State) (x : Option Gpr) (scale : Fin 4) : Int :=
  match x with
  | none => 0
  | some r => gprInt s r * 2 ^ scale.val

/-- The displacement, an 8-bit one multiplied by `N` (R74). -/
def dispInt (n : Nat) : Disp → Int
  | .none => 0
  | .d8 b => b.toInt * n
  | .d32 w => w.toInt

/-! ### The memory operand -/

/-- The memory address of a source, if it has one. -/
def Source.address : Source → Option Address
  | .reg _ | .regSae _ => none
  | .mem a | .bcst a => some a

/-- The effective address of the operand of a form (30_encoding.md R73 to R75). -/
def operandEA (f : Form) (len : Nat) (p : Prefixes) (src : Source) (a : Address) (s : State) : BitVec 64 :=
  effAddr s p len (dispFactor f src.isBcst) a

/-- The linear address of the operand (20_memory.md R45). -/
def operandAddr (f : Form) (len : Nat) (p : Prefixes) (src : Source) (a : Address) (s : State) : BitVec 64 :=
  linearAddr s (effSeg s.mode p a) (operandEA f len p src a s)

/-- Byte `o` of the operand is read (20_memory.md R41, R43): every byte of it, or with FAULT_SUPPRESSION on an EVEX form
the bytes of computed elements only (R52). -/
def byteRead (f : Form) (mk : Masking) (src : Source) (s : State) (o : Nat) : Bool :=
  let all := !(s.params.faultSuppression && f.isEvex)
  match src with
  | .reg _ | .regSae _ => false
  | .mem _ => decide (o < f.vl / 8) && (all || computed mk s (o / 8))
  | .bcst _ => decide (o < 8) && (all || (List.range f.kl).any (computed mk s))

/-- Byte `o` passes the segment and canonical checks of 60_exceptions.md R149, the operand being at `ea` in segment `g`. -/
def byteInSegment (s : State) (g : SegReg) (ea : BitVec 64) (o : Nat) : Bool :=
  match s.mode with
  | .mode64 => canonical s.la57 (byteAddr s (linearAddr s g ea) o)
  | .mode32 =>
    if s.realMode then decide (ea.toNat + o ≤ 0xFFFF)
    else !(s.segment g).null && (s.segment g).readable && decide (ea.toNat + o ≤ (s.segment g).limit.toNat)

/-- The memory oracle answers a read of the byte at `a` with bytes: every region that covers it is a supervisor page, and
the read is not at CPL 3 (20_memory.md R51; 60_exceptions.md R150). -/
def oracleAdmits (s : State) (a : BitVec 64) : Bool :=
  s.oracle.all fun r => !r.covers a || (decide (r.answer = .supervisor) && decide (s.cpl ≠ 3#2))

/-- The alignment the operand must have: 16 for F-SSE (20_memory.md R44), 8 for a broadcast operand while alignment checking
is on (60_exceptions.md R152), none otherwise. -/
def operandAligned (f : Form) (src : Source) (addr : BitVec 64) (s : State) : Bool :=
  (!decide (f = .sse) || decide (addr.toNat % 16 = 0)) && (!(src.isBcst && s.amAc) || decide (addr.toNat % 8 = 0))

/-- Byte `o` of the source whose elements are `e`, least significant byte first (20_memory.md R42); of the one element when
broadcast (R43). -/
def sourceByte (src : Source) (e : Nat → Qword) (o : Nat) : Byte :=
  (e (if src.isBcst then 0 else o / 8)).extractLsb' (8 * (o % 8)) 8

/-- `Mapped` and `Aligned`: the source operand can be read and its elements are `e 0, e 1, …` (20_memory.md R41 to R44,
R51): the register's elements, or the bytes that are read hold them in little-endian order. -/
def SourceIs (f : Form) (len : Nat) (p : Prefixes) (mk : Masking) (src : Source) (e : Nat → Qword) (s : State) : Prop :=
  match src with
  | .reg r | .regSae r => ∀ j, j < f.kl → e j = elem64 (s.readZmm r) j
  | .mem a | .bcst a =>
    operandAligned f src (operandAddr f len p src a s) s = true
    ∧ (src.isBcst = true → ∀ j, j < f.kl → e j = e 0)
    ∧ ∀ o, o < 64 → byteRead f mk src s o = true →
        byteInSegment s (effSeg s.mode p a) (operandEA f len p src a s) o = true
        ∧ oracleAdmits s (byteAddr s (operandAddr f len p src a s) o) = true
        ∧ s.mem.get (byteAddr s (operandAddr f len p src a s) o).toNat = some (sourceByte src e o)

/-! ### What a completed instruction has done -/

/-- `r_j` (R102), the result of source element `j`. -/
def resultAt (s : State) (e : Nat → Qword) (j : Nat) : Dword := (cvtt (e j) (mxDAZ s.mxcsr)).r

/-- Destination element `j` of an EVEX form (41_cvttpd2dq.md R126). -/
def elementAt (d : VReg) (mk : Masking) (s : State) (e : Nat → Qword) (j : Nat) : Dword :=
  if computed mk s j then resultAt s e j
  else if mk.z then 0#32
  else elem32 (s.readZmm d) j

/-- Everything but the vector registers, MXCSR and `pc` is the same, memory byte by byte (10_state.md R34). -/
structure SameElsewhere (s t : State) : Prop where
  mode : t.mode = s.mode
  k : t.k = s.k
  gpr : t.gpr = s.gpr
  seg : t.seg = s.seg
  eflags : t.eflags = s.eflags
  cr0 : t.cr0 = s.cr0
  cr2 : t.cr2 = s.cr2
  cr4 : t.cr4 = s.cr4
  xcr0 : t.xcr0 = s.xcr0
  cpl : t.cpl = s.cpl
  x87cw : t.x87cw = s.x87cw
  x87sw : t.x87sw = s.x87sw
  mmx : t.mmx = s.mmx
  features : t.features = s.features
  params : t.params = s.params
  oracle : t.oracle = s.oracle
  mem : ∀ a, t.mem.get a = s.mem.get a

/-- What a completed instruction of `len` bytes has done: the destination is `new`, the other vector registers are
unchanged, MXCSR.IE and MXCSR.PE are set where a condition was raised and no other bit of MXCSR changed, `pc` has advanced,
and nothing else has changed (10_state.md R26, R27, R34; 41_cvttpd2dq.md R120 steps 6 to 8). That `pc` wraps at 2^64 in Mode64
is the model's choice (log 32, PRESUMED). -/
structure Completed (len : Nat) (d : VReg) (new : VecWord) (ie pe : Prop) (s t : State) : Prop where
  dest : t.readZmm d = new
  others : ∀ r, r ≠ d → t.readZmm r = s.readZmm r
  invalidFlag : mxIE t.mxcsr = true ↔ mxIE s.mxcsr = true ∨ ie
  precisionFlag : mxPE t.mxcsr = true ↔ mxPE s.mxcsr = true ∨ pe
  controls : ∀ b, b ≠ 0 → b ≠ 5 → t.mxcsr.getLsbD b = s.mxcsr.getLsbD b
  pc : t.pc.toNat = (s.pc.toNat + len) % 2 ^ addrBits s.mode
  rest : SameElsewhere s t

/-- The state a fault carries: `s`, but that each of MXCSR.IE and MXCSR.PE may have been raised (40_conversion.md R106;
60_exceptions.md R154). -/
structure FaultStateOf (s t : State) : Prop where
  zmm : t.zmm = s.zmm
  pc : t.pc = s.pc
  sticky : (mxIE s.mxcsr = true → mxIE t.mxcsr = true) ∧ (mxPE s.mxcsr = true → mxPE t.mxcsr = true)
  controls : ∀ b, b ≠ 0 → b ≠ 5 → t.mxcsr.getLsbD b = s.mxcsr.getLsbD b
  rest : SameElsewhere s t

/-- Operand 2 of an instruction as its form uses it (30_encoding.md R71). -/
def sourceOf : Instr → Source
  | .sse _ _ _ o | .sseRex _ _ _ o => Source.plain o
  | .vex128c5 _ _ o | .vex128c4 _ _ o | .vex256c5 _ _ o | .vex256c4 _ _ o => Source.plain o
  | .evex128 _ _ _ o | .evex256 _ _ _ o | .evex512 _ _ _ o => Source.plain o
  | .evex128b _ _ _ a | .evex256b _ _ _ a => .bcst a
  | .evex512b _ _ _ o => Source.special o

/-! ### Bytes before the decoder has read them -/

/-- A byte of 30_encoding.md R78 step 1. -/
def isLegacyPrefix (b : Byte) : Bool :=
  decide (b ∈ [0x26#8, 0x2E#8, 0x36#8, 0x3E#8, 0x64#8, 0x65#8, 0x66#8, 0x67#8, 0xF0#8, 0xF2#8, 0xF3#8])

/-- A segment override (30_encoding.md R61). -/
def isSegOverride (b : Byte) : Bool := decide (b ∈ [0x26#8, 0x2E#8, 0x36#8, 0x3E#8, 0x64#8, 0x65#8])

/-- More than one segment override or more than one 67H (30_encoding.md R81 row 5). -/
def Repeated (pre : List Byte) : Prop := 1 < pre.countP isSegOverride ∨ 1 < pre.count 0x67#8

/-- In Mode32 the byte after C4H, C5H or 62H must have bits 7:6 = 11b (30_encoding.md R79). -/
abbrev prefixAllowed (m : Mode) (p : Byte) : Prop := m = .mode32 → p.extractLsb' 6 2 = 3#2

/-- No REX prefix, or in Mode64 one (30_encoding.md R60 part 2). -/
def RexBytes (m : Mode) (rex : List Byte) : Prop :=
  rex = [] ∨ ∃ r : Byte, r.extractLsb' 4 4 = 4#4 ∧ m = .mode64 ∧ rex = [r]

/-- The multi-byte prefix and opcode of the VEX and EVEX forms: map 0F, `pp = 01b`, opcode E6H (30_encoding.md R63, R64, R78
step 3). Every other field is as it may be. -/
inductive VexHead (m : Mode) : List Byte → Prop
  | vex2 (P : Byte) : prefixAllowed m P → P.extractLsb' 0 2 = 1#2 → VexHead m [0xC5#8, P, 0xE6#8]
  | vex3 (P0 P1 : Byte) : prefixAllowed m P0 → P0.extractLsb' 0 5 = 1#5 → P1.extractLsb' 0 2 = 1#2 →
      VexHead m [0xC4#8, P0, P1, 0xE6#8]
  | evex (P0 P1 P2 : Byte) : prefixAllowed m P0 → P0.extractLsb' 0 2 = 1#2 → P1.extractLsb' 0 2 = 1#2 →
      VexHead m [0x62#8, P0, P1, P2, 0xE6#8]

/-- The EVEX bits that are reserved (30_encoding.md R64, R81 row 7). -/
def ReservedBits (head : List Byte) : Prop :=
  ∃ P0 P1 P2 : Byte, head = [0x62#8, P0, P1, P2, 0xE6#8] ∧ (P0.extractLsb' 2 2 ≠ 0#2 ∨ P1.getLsbD 2 = false)

/-- 16-bit addressing: a 67H prefix in Mode32 (30_encoding.md R73, R76). -/
def shortAddress (m : Mode) (pre : List Byte) : Bool := decide (m = .mode32) && decide (0x67#8 ∈ pre)

/-- ModRM, SIB and displacement are complete: the operand is `raw`, in the layout of the addressing (30_encoding.md R65, R73,
R76). -/
def OperandIs (short : Bool) (raw : RawOperand) (tail : List Byte) : Prop :=
  ∃ rg rest, parseOperand short tail = .ok (rg, raw, rest)

/-- Prefixes `pre`, then a REX prefix if there is one, the escape or multi-byte prefix and the opcode, `head`: the beginning
of an instruction with source `raw` that 30_encoding.md R80 rows 1 to 7 do not make `#UD` and R81 rows 3 and 7 do not
refuse. Repeated prefixes and extension bits in Mode32 may be among them. -/
inductive SoundHead (m : Mode) (pre : List Byte) (raw : RawOperand) : List Byte → Prop
  | sse : 0x66#8 ∈ pre → SoundHead m pre raw [0x0F#8, 0xE6#8]
  | sseRex (r : Byte) : m = .mode64 → r.extractLsb' 4 4 = 4#4 → 0x66#8 ∈ pre → SoundHead m pre raw [r, 0x0F#8, 0xE6#8]
  | vex2 (P : Byte) : 0x66#8 ∉ pre → prefixAllowed m P → P.extractLsb' 0 2 = 1#2 → P.extractLsb' 3 4 = 15#4 →
      SoundHead m pre raw [0xC5#8, P, 0xE6#8]
  | vex3 (P0 P1 : Byte) : 0x66#8 ∉ pre → prefixAllowed m P0 → P0.extractLsb' 0 5 = 1#5 → P1.extractLsb' 0 2 = 1#2 →
      P1.extractLsb' 3 4 = 15#4 → SoundHead m pre raw [0xC4#8, P0, P1, 0xE6#8]
  | evex (P0 P1 P2 : Byte) : 0x66#8 ∉ pre → prefixAllowed m P0 → P0.extractLsb' 0 4 = 1#4 → P1 = 0xFD#8 →
      P2.getLsbD 3 = true → ¬ (P2.getLsbD 7 = true ∧ P2.extractLsb' 0 3 = 0#3) →
      (P2.extractLsb' 5 2 = 3#2 → raw.isReg = true ∧ P2.getLsbD 4 = true) →
      SoundHead m pre raw [0x62#8, P0, P1, P2, 0xE6#8]

/-- The bytes `bs` begin with an instruction of this family that no rule makes `#UD`: prefixes among the segment overrides,
66H and 67H, a sound head, and a complete operand. -/
def SoundBytes (m : Mode) (bs pre head : List Byte) (raw : RawOperand) : Prop :=
  (∀ b ∈ pre, isSegOverride b = true ∨ b = 0x66#8 ∨ b = 0x67#8) ∧ SoundHead m pre raw head
  ∧ ∃ tail, OperandIs (shortAddress m pre) raw tail ∧ bs = pre ++ (head ++ tail)

/-- 30_encoding.md R81 row 1: EVEX, a register source, `b = 1` and `L'L` other than 10b. -/
def SaeMismatch (head : List Byte) (raw : RawOperand) : Prop :=
  ∃ P0 P1 P2 : Byte, head = [0x62#8, P0, P1, P2, 0xE6#8] ∧ raw.isReg = true ∧ P2.getLsbD 4 = true
    ∧ P2.extractLsb' 5 2 ≠ 2#2

/-- 30_encoding.md R81 row 2: in the three-byte VEX prefix `~B = 0`, in the EVEX prefix `~B = 0` or `~R' = 0`. -/
def ExtensionBits (head : List Byte) : Prop :=
  (∃ P0 P1 : Byte, head = [0xC4#8, P0, P1, 0xE6#8] ∧ P0.getLsbD 5 = false)
    ∨ ∃ P0 P1 P2 : Byte, head = [0x62#8, P0, P1, P2, 0xE6#8] ∧ (P0.getLsbD 5 = false ∨ P0.getLsbD 4 = false)

/-! ### Reaching the read of a memory operand -/

/-- The operand of an instruction lies in memory at address form `a`, and everything before the read of its bytes passes: the
enables, `#NM`, the segment, canonical and (F-SSE) alignment checks (60_exceptions.md R153 items 2 to 4). -/
structure ReachesRead (i : Instr) (a : Address) (s : State) : Prop where
  address : (sourceOf i).address = some a
  enabled : Enabled i.fields.form s
  segment : ∀ o, o < 64 → byteRead i.fields.form i.fields.mask (sourceOf i) s o = true →
    byteInSegment s (effSeg s.mode i.fields.pre a) (operandEA i.fields.form i.length i.fields.pre (sourceOf i) a s) o = true
  aligned : i.fields.form = .sse →
    (operandAddr i.fields.form i.length i.fields.pre (sourceOf i) a s).toNat % 16 = 0

/-- Byte `o` of the operand of `i`, which lies at address form `a`, is read and is in region `r` of the memory oracle. -/
def ReadsRegion (i : Instr) (a : Address) (s : State) (r : OracleRegion) (o : Nat) : Prop :=
  r ∈ s.oracle ∧ byteRead i.fields.form i.fields.mask (sourceOf i) s o = true
  ∧ r.covers (byteAddr s (operandAddr i.fields.form i.length i.fields.pre (sourceOf i) a s) o) = true

/-! ### Runs (R177) and the invariant -/

/-- A run of next states: no fault and no refusal has been recorded on it (`NoFaultRecorded`, R172). -/
inductive Reaches : State → State → Prop
  | refl (s : State) : Reaches s s
  | next {s t u : State} : step s = .next t → Reaches t u → Reaches s u

/-- A run has ended: `pc` is the address just past the program text (R177). -/
def RunEnds (s t : State) (endAddress : BitVec 64) : Prop := Reaches s t ∧ t.pc = endAddress

/-- What holds of every state of a run: memory in canonical form, MXCSR[31:16] zero (10_state.md R25, R35), `pc` within 32
bits in Mode32 (R27), and Mode64 only with protection on and virtual-8086 mode off (R30, R35). -/
structure Inv (s : State) : Prop where
  mem : s.mem.wf
  reserved : s.mxcsr.extractLsb' 16 16 = 0#16
  pc : s.mode = .mode32 → s.pc.toNat < 2 ^ 32
  mode : s.mode = .mode64 → s.realOrV86 = false

end Sys2Proof.Machine
end

