-- ==== Sys2Proof/Certificates/Slice0/Obligations.lean ====
section
/-! DEFINITION. The statements for the provers. Each docstring names the rule of spec/ it formalises. -/

open Sys2Proof Sys2Proof.Machine

/-! ### Encoding -/

/-- Words of 95_test_vectors.md, read bit by bit from the layouts of 30_encoding.md R61, R63 and R64, decode to the
instruction they stand for: S1, S7, V1, V2, W1, E1, F4, G4 and G9 of that file. A sanity statement. -/
def Obligations.TableWordsDecode : Prop :=
  let env : DecodeEnv := ⟨.mode64, false⟩
  let p : Prefixes := ⟨none, false⟩
  decode env [0x66, 0x0F, 0xE6, 0xCA] = .ok (.sse 0 p 1 (.reg 2), [])
  ∧ decode env [0x66, 0x44, 0x0F, 0xE6, 0xFA] = .ok (.sseRex 0 p 15 (.reg 2), [])
  ∧ decode env [0xC5, 0xF9, 0xE6, 0xCA] = .ok (.vex128c5 p 1 (.reg 2), [])
  ∧ decode env [0xC4, 0xE1, 0x79, 0xE6, 0xCA] = .ok (.vex128c4 p 1 (.reg 2), [])
  ∧ decode env [0xC5, 0xFD, 0xE6, 0xCA] = .ok (.vex256c5 p 1 (.reg 2), [])
  ∧ decode env [0x62, 0xF1, 0xFD, 0x08, 0xE6, 0xCA] = .ok (.evex128 p 1 ⟨0, false⟩ (.reg 2), [])
  ∧ decode env [0x62, 0xF1, 0xFD, 0x38, 0xE6, 0x58, 0x02] = .ok (.evex256b p 3 ⟨0, false⟩ (.base 0 (.d8 2)), [])
  ∧ decode env [0x62, 0xF1, 0xFD, 0x58, 0xE6, 0xCA] = .ok (.evex512b p 1 ⟨0, false⟩ (.reg 2), [])
  ∧ decode env [0x62, 0x01, 0xFD, 0x4F, 0xE6, 0xF5] = .ok (.evex512 p 30 ⟨7, false⟩ (.reg 29), [])

/-- Every well-formed instruction, with every operand the encoding admits, is read back from its own bytes, whatever bytes
follow (30_encoding.md R60 to R75). -/
def Obligations.DecodeEncodeRoundTrip : Prop :=
  ∀ (env : DecodeEnv) (i : Instr) (rest : List Byte), i.wf env.mode = true → decode env (i.encode ++ rest) = .ok (i, rest)

/-- What the decoder accepts is well formed in the mode, its length is the number of bytes consumed, and that is 4 to 15
(30_encoding.md R60, R67, R73, R81). -/
def Obligations.DecodedIsWellFormed : Prop :=
  ∀ (env : DecodeEnv) (bs rest : List Byte) (i : Instr), decode env bs = .ok (i, rest) →
    i.wf env.mode = true ∧ 4 ≤ i.length ∧ i.length ≤ 15 ∧ ∃ own, bs = own ++ rest ∧ own.length = i.length

/-- R68: a stored `vvvv` other than 1111b, or an EVEX `~V'` of 0, is `#UD`, for the five VEX and EVEX forms, with a register
or a memory source. -/
def Obligations.ReservedVvvvFaults : Prop :=
  ∀ (s : State) (pre tail : List Byte) (raw : RawOperand), (∀ b ∈ pre, isLegacyPrefix b = true) →
    OperandIs (shortAddress s.mode pre) raw tail →
    (∀ P : Byte, codeBytes s = pre ++ 0xC5#8 :: P :: 0xE6#8 :: tail → prefixAllowed s.mode P →
      P.extractLsb' 0 2 = 1#2 → P.extractLsb' 3 4 ≠ 15#4 → step s = .fault (.ud s))
    ∧ (∀ P0 P1 : Byte, codeBytes s = pre ++ 0xC4#8 :: P0 :: P1 :: 0xE6#8 :: tail → prefixAllowed s.mode P0 →
      P0.extractLsb' 0 5 = 1#5 → P1.extractLsb' 0 2 = 1#2 → P1.extractLsb' 3 4 ≠ 15#4 → step s = .fault (.ud s))
    ∧ (∀ P0 P1 P2 : Byte, codeBytes s = pre ++ 0x62#8 :: P0 :: P1 :: P2 :: 0xE6#8 :: tail → prefixAllowed s.mode P0 →
      P0.extractLsb' 0 4 = 1#4 → P1.extractLsb' 0 3 = 5#3 → P1.extractLsb' 3 4 ≠ 15#4 ∨ P2.getLsbD 3 = false →
      step s = .fault (.ud s))

/-- R69, R70 and R80 rows 3 and 5: EVEX `L'L = 11b` (but for a register source with `b = 1`), and `z = 1` with
`aaa = 000b`, are `#UD`. -/
def Obligations.IllegalEvexFieldsFault : Prop :=
  ∀ (s : State) (pre tail : List Byte) (raw : RawOperand) (P0 P1 P2 : Byte), (∀ b ∈ pre, isLegacyPrefix b = true) →
    OperandIs (shortAddress s.mode pre) raw tail →
    codeBytes s = pre ++ 0x62#8 :: P0 :: P1 :: P2 :: 0xE6#8 :: tail → prefixAllowed s.mode P0 →
    P0.extractLsb' 0 4 = 1#4 → P1.extractLsb' 0 3 = 5#3 →
    (P2.extractLsb' 5 2 = 3#2 ∧ ¬ (raw.isReg = true ∧ P2.getLsbD 4 = true))
      ∨ (P2.getLsbD 7 = true ∧ P2.extractLsb' 0 3 = 0#3) →
    step s = .fault (.ud s)

/-- R72: VEX.W and REX.W are ignored, and EVEX.W must be 1, else `#UD`. -/
def Obligations.WBits : Prop :=
  (∀ (env : DecodeEnv) (pre tail : List Byte) (P0 P1 : Byte), (∀ b ∈ pre, isLegacyPrefix b = true) →
    decode env (pre ++ 0xC4#8 :: P0 :: (P1 ^^^ 0x80#8) :: tail) = decode env (pre ++ 0xC4#8 :: P0 :: P1 :: tail))
  ∧ (∀ (env : DecodeEnv) (pre tail : List Byte) (rex : Byte), (∀ b ∈ pre, isLegacyPrefix b = true) →
    rex.extractLsb' 4 4 = 4#4 → env.mode = .mode64 →
    decode env (pre ++ (rex ^^^ 0x08#8) :: 0x0F#8 :: tail) = decode env (pre ++ rex :: 0x0F#8 :: tail))
  ∧ ∀ (s : State) (pre tail : List Byte) (raw : RawOperand) (P0 P1 P2 : Byte), (∀ b ∈ pre, isLegacyPrefix b = true) →
    OperandIs (shortAddress s.mode pre) raw tail →
    codeBytes s = pre ++ 0x62#8 :: P0 :: P1 :: P2 :: 0xE6#8 :: tail → prefixAllowed s.mode P0 →
    P0.extractLsb' 0 4 = 1#4 → P1.extractLsb' 0 3 = 5#3 → P1.getLsbD 7 = false → step s = .fault (.ud s)

/-- R78 step 4, R80 rows 6 and 7, R83, 60_exceptions.md R146: 66H, F2H, F3H, F0H or (in Mode64) a REX byte before a VEX or
EVEX prefix is `#UD`, whatever the prefix's other fields, the reserved EVEX bits among them (step 4 comes before the refusals
of step 5); and so is F0H before F-SSE. -/
def Obligations.IllegalPrefixesFault : Prop :=
  ∀ (s : State) (pre rex tail : List Byte) (raw : RawOperand), (∀ b ∈ pre, isLegacyPrefix b = true) →
    OperandIs (shortAddress s.mode pre) raw tail → RexBytes s.mode rex →
    (∀ head : List Byte, VexHead s.mode head → codeBytes s = pre ++ (rex ++ (head ++ tail)) →
      (0x66#8 ∈ pre ∨ 0xF2#8 ∈ pre ∨ 0xF3#8 ∈ pre ∨ 0xF0#8 ∈ pre ∨ rex ≠ []) → step s = .fault (.ud s))
    ∧ (codeBytes s = pre ++ (rex ++ (0x0F#8 :: 0xE6#8 :: tail)) →
      0x66#8 ∈ pre → 0xF2#8 ∉ pre → 0xF3#8 ∉ pre → 0xF0#8 ∈ pre → step s = .fault (.ud s))

/-- R81 row 1 and R71: an EVEX register source with `b = 1` and `L'L` other than 10b is refused, in both modes and with any
of the prefixes the form admits, and with SAE_LL_IGNORED it is the 512-bit form with `{sae}`. The model's choices: this refusal
comes before those of R81's other rows (log 17, DESIGN CHOICE); and R81 row 4 ("67H in Mode32") does not refuse a 67H prefix in
Mode32 with a register source, which the second clause runs (log 19, DEDUCED). -/
def Obligations.SaeVectorLength : Prop :=
  (∀ (s : State) (pre head : List Byte) (raw : RawOperand), SoundBytes s.mode (codeBytes s) pre head raw →
    SaeMismatch head raw → s.params.saeLLIgnored = false → step s = .refused .saeVectorLength)
  ∧ ∀ (s : State) (p : Prefixes) (pre rest : List Byte) (P0 P2 modrm : Byte), pre = p.bytes ∨ pre = p.bytes.reverse →
    (s.mode = .mode32 → P0.extractLsb' 4 4 = 15#4) → P0.extractLsb' 0 4 = 1#4 →
    P2.extractLsb' 5 2 ≠ 2#2 → P2.getLsbD 4 = true → P2.getLsbD 3 = true →
    ¬ (P2.getLsbD 7 = true ∧ P2.extractLsb' 0 3 = 0#3) → modrm.extractLsb' 6 2 = 3#2 →
    codeBytes s = pre ++ 0x62#8 :: P0 :: 0xFD#8 :: P2 :: 0xE6#8 :: modrm :: rest → s.params.saeLLIgnored = true →
    step s = exec (.evex512b p (vregOf (!P0.getLsbD 4) (!P0.getLsbD 7) (modrm.extractLsb' 3 3))
      ⟨(P2.extractLsb' 0 3).toFin, P2.getLsbD 7⟩
      (.reg (vregOf (!P0.getLsbD 6) (!P0.getLsbD 5) (modrm.extractLsb' 0 3)))) s

/-- R79: in Mode32 the bytes C4H, C5H and 62H with bits 7:6 of the next byte other than 11b are LES, LDS or BOUND, which are
out of scope: refused. -/
def Obligations.Mode32NeedsPrefixBits : Prop :=
  ∀ (s : State) (pre tail : List Byte) (t p : Byte), s.mode = .mode32 → (∀ b ∈ pre, isLegacyPrefix b = true) →
    t ∈ [0xC4#8, 0xC5#8, 0x62#8] → codeBytes s = pre ++ t :: p :: tail → p.extractLsb' 6 2 ≠ 3#2 →
    step s = .refused .otherInstruction

/-- R60 and R80 row 9: an instruction longer than 15 bytes is `#GP(0)`, with the prefixes the spec admits in any order: at
most one segment override, at most one 67H, any number of 66H bytes on F-SSE. (Only F-SSE can then be that long. With
repeated overrides R81 row 5 applies too, and the order is log 17.) Only the first 15 bytes stand at `pc`: where they end
before the opcode (15 prefix bytes, or a cut before E6H) they need not be the beginning of this instruction, R80 speaks only
of sequences that reach E6H and R78 step 3 refuses others, so that `#GP(0)` is claimed of them is the model's choice; and so
is that `#GP(0)` comes before the refusal of R81 row 4, a memory operand with 67H in Mode32 (log 17, DESIGN CHOICE,
unsafe). -/
def Obligations.TooLongFaults : Prop :=
  ∀ (s : State) (bs pre head tail : List Byte) (rg : BitVec 3) (raw : RawOperand),
    (∀ b ∈ pre, isSegOverride b = true ∨ b = 0x66#8 ∨ b = 0x67#8) → ¬ Repeated pre → SoundHead s.mode pre raw head →
    parseOperand (shortAddress s.mode pre) tail = .ok (rg, raw, []) → bs = pre ++ (head ++ tail) →
    15 < bs.length → codeBytes s = bs.take 15 → step s = .fault (.gp0 s)

/-! ### Fetch and step -/

/-- When the bytes at `pc` decode to `i`, the step is `exec i` (41_cvttpd2dq.md R120 step 1); the step adds nothing around
exec, which itself advances `pc`. -/
def Obligations.StepRunsDecoded : Prop :=
  ∀ (s : State) (i : Instr) (rest : List Byte), decode (decodeEnv s) (codeBytes s) = .ok (i, rest) → step s = exec i s

/-- When the bytes of a well-formed instruction stand at `pc`, the step is that instruction's. -/
def Obligations.CodeAtRuns : Prop :=
  ∀ (s : State) (i : Instr), i.wf s.mode = true → CodeAt i.encode s → step s = exec i s

/-- What a step does with bytes the decoder rejects: `#UD`, `#GP(0)` (30_encoding.md R80) or a refusal (R78 step 3, R81); the
fault carries the state unchanged. -/
def Obligations.StepOfRejectedBytes : Prop :=
  ∀ (s : State) (e : DecodeError), decode (decodeEnv s) (codeBytes s) = .error e →
    (e = .ud → step s = .fault (.ud s)) ∧ (e = .tooLong → step s = .fault (.gp0 s))
    ∧ (e ≠ .ud → e ≠ .tooLong → ∃ r, step s = .refused r)

/-- The host's launch after reset: a table word that decodes is the next instruction to run. The model's own convention
(log 1, log 21). -/
def Obligations.FetchWordRuns : Prop :=
  ∀ (nbits w : Nat) (i : Instr), nbits ≤ 120 → decodeTableWord nbits w = some i →
    step (State.reset.withFetchWord nbits w) = exec i (State.reset.withFetchWord nbits w)

/-! ### The conversion -/

/-- R101: the conversion agrees with the bit-level table on every element. -/
def Obligations.ConversionTable : Prop := ∀ (x : Qword) (daz : Bool), cvtt x daz = cvttTable x daz

/-- R102: `cvtt` by exact rationals. -/
def Obligations.ConversionByExactValue : Prop :=
  ∀ (x : Qword) (daz : Bool),
    (expField x = 2047 → cvtt x daz = ⟨0x80000000#32, true, false⟩)
    ∧ (expField x = 0 → fracField x ≠ 0 → daz = true → cvtt x daz = ⟨0#32, false, false⟩)
    ∧ (expField x ≠ 2047 → ¬ (expField x = 0 ∧ fracField x ≠ 0 ∧ daz = true) →
        (trunc (val x) > 2 ^ 31 - 1 ∨ trunc (val x) < -2 ^ 31 → cvtt x daz = ⟨0x80000000#32, true, false⟩)
        ∧ (-2 ^ 31 ≤ trunc (val x) → trunc (val x) ≤ 2 ^ 31 - 1 →
            cvtt x daz = ⟨BitVec.ofInt 32 (trunc (val x)), false, decide ((trunc (val x) : ℚ) ≠ val x)⟩))

/-- R103: exactly when a conversion is invalid, the result it then gives, and that it is not also inexact. -/
def Obligations.InvalidExactly : Prop :=
  ∀ (x : Qword) (daz : Bool),
    ((cvtt x daz).ie = true
      ↔ expField x = 2047 ∨ (expField x ≠ 2047 ∧ (2147483647 < trunc (val x) ∨ trunc (val x) < -2147483648)))
    ∧ ((cvtt x daz).ie = true → (cvtt x daz).r = 0x80000000#32 ∧ (cvtt x daz).pe = false)

/-- R104: exactly when a conversion is inexact (denormals not treated as zero), the truncated result, and the rule's six
examples. -/
def Obligations.InexactExactly : Prop :=
  (∀ x : Qword, (cvtt x false).pe = true
      ↔ (cvtt x false).ie = false ∧ expField x ≠ 2047 ∧ (trunc (val x) : ℚ) ≠ val x)
  ∧ (∀ x : Qword, (cvtt x false).pe = true → (cvtt x false).r.toInt = trunc (val x))
  ∧ cvtt 0x3FF8000000000000#64 false = ⟨1#32, false, true⟩
  ∧ cvtt 0xBFF8000000000000#64 false = ⟨0xFFFFFFFF#32, false, true⟩
  ∧ cvtt 0x3FEFF7CED916872B#64 false = ⟨0#32, false, true⟩
  ∧ cvtt 0xBFD0000000000000#64 false = ⟨0#32, false, true⟩
  ∧ cvtt 0x4008000000000000#64 false = ⟨3#32, false, false⟩
  ∧ cvtt 0x8000000000000000#64 false = ⟨0#32, false, false⟩

/-- R105: a denormal converts to 0, inexact exactly when DAZ is off; both zeros convert to 0 exactly; DAZ changes no
result. -/
def Obligations.DenormalsAndZeros : Prop :=
  ∀ (x : Qword) (daz : Bool),
    (expField x = 0 → fracField x ≠ 0 → cvtt x daz = ⟨0#32, false, !daz⟩)
    ∧ (expField x = 0 → fracField x = 0 → cvtt x daz = ⟨0#32, false, false⟩)
    ∧ (cvtt x daz).r = (cvtt x false).r

/-- R107: a result that is not the indefinite value is the truncated value in two's complement. -/
def Obligations.ResultIsTwosComplement : Prop :=
  ∀ (x : Qword) (daz : Bool), (cvtt x daz).ie = false →
    (cvtt x daz).r.toInt = trunc (val x) ∧ -2 ^ 31 ≤ trunc (val x) ∧ trunc (val x) ≤ 2 ^ 31 - 1

/-- R112 items 1, 2, 3, 4, 6 and 7. -/
def Obligations.ConversionLemmas : Prop :=
  (∀ (x : Qword) (daz : Bool), (cvtt x daz).ie = true → (cvtt x daz).r = 0x80000000#32 ∧ (cvtt x daz).pe = false)
  ∧ (∀ (x : Qword) (daz : Bool), ((cvtt x daz).r = 0x80000000#32 ∧ (cvtt x daz).ie = false)
      ↔ (0xC1E0000000000000 ≤ x.toNat ∧ x.toNat ≤ 0xC1E00000001FFFFF))
  ∧ (∀ (x : Qword) (daz : Bool), (cvtt x daz).ie = false → (cvtt (x ^^^ 0x8000000000000000#64) daz).ie = false →
      (cvtt (x ^^^ 0x8000000000000000#64) daz).r = -(cvtt x daz).r
      ∧ (cvtt (x ^^^ 0x8000000000000000#64) daz).pe = (cvtt x daz).pe)
  ∧ (∀ (x : Qword) (daz : Bool), (cvtt x daz).pe = false ∧ (cvtt x daz).ie = false
      ↔ expField x ≠ 2047 ∧ ((∃ n : Int, (n : ℚ) = val x ∧ -2 ^ 31 ≤ n ∧ n ≤ 2 ^ 31 - 1)
          ∨ (expField x = 0 ∧ fracField x ≠ 0 ∧ daz = true)))
  ∧ (∀ x : Qword, expField x ≠ 2047 → |(trunc (val x) : ℚ)| ≤ |val x| ∧ |val x| - |(trunc (val x) : ℚ)| < 1)
  ∧ (∀ (x : Qword) (daz : Bool), signBit x = false → ((cvtt x daz).ie = true ↔ 0x41E0000000000000 ≤ x.toNat))
  ∧ ∀ daz : Bool, cvtt 0x41DFFFFFFFFFFFFF#64 daz = ⟨0x7FFFFFFF#32, false, true⟩

/-! ### What each form does when it completes -/

/-- F-SSE, both rows: the low 64 bits are the two results, bits 127:64 are zero, bits 511:128 are kept (41_cvttpd2dq.md
R121; 10_state.md R22, R26, R27, R34; 40_conversion.md R106, R109).
That `pc` wraps at 2^64 in Mode64 is the model's choice (log 32, PRESUMED). -/
def Obligations.SseConverts : Prop :=
  ∀ (x66 : Nat) (p : Prefixes) (d : VReg) (src : Operand) (e : Nat → Qword) (s : State) (i : Instr),
    i = .sse x66 p d src ∨ i = .sseRex x66 p d src →
    Enabled .sse s → SourceIs .sse i.length p Masking.off (Source.plain src) e s →
    NoUnmaskedCondition .sse Masking.off e s →
    ∃ t, exec i s = .next t ∧ Completed i.length d
      ((s.readZmm d).extractLsb' 128 384 ++ 0#64 ++ resultAt s e 1 ++ resultAt s e 0)
      (RaisesInvalid .sse Masking.off e s) (RaisesInexact .sse Masking.off e s) s t

/-- F-VEX128, both rows: two results, everything above bit 63 zero (R122).
That `pc` wraps at 2^64 in Mode64 is the model's choice (log 32, PRESUMED). -/
def Obligations.Vex128Converts : Prop :=
  ∀ (p : Prefixes) (d : VReg) (src : Operand) (e : Nat → Qword) (s : State) (i : Instr),
    i = .vex128c5 p d src ∨ i = .vex128c4 p d src →
    Enabled .vex128 s → SourceIs .vex128 i.length p Masking.off (Source.plain src) e s →
    NoUnmaskedCondition .vex128 Masking.off e s →
    ∃ t, exec i s = .next t ∧ Completed i.length d (0#448 ++ resultAt s e 1 ++ resultAt s e 0)
      (RaisesInvalid .vex128 Masking.off e s) (RaisesInexact .vex128 Masking.off e s) s t

/-- F-VEX256, both rows: four results, everything above bit 127 zero (R123).
That `pc` wraps at 2^64 in Mode64 is the model's choice (log 32, PRESUMED). -/
def Obligations.Vex256Converts : Prop :=
  ∀ (p : Prefixes) (d : VReg) (src : Operand) (e : Nat → Qword) (s : State) (i : Instr),
    i = .vex256c5 p d src ∨ i = .vex256c4 p d src →
    Enabled .vex256 s → SourceIs .vex256 i.length p Masking.off (Source.plain src) e s →
    NoUnmaskedCondition .vex256 Masking.off e s →
    ∃ t, exec i s = .next t ∧ Completed i.length d
      (0#384 ++ resultAt s e 3 ++ resultAt s e 2 ++ resultAt s e 1 ++ resultAt s e 0)
      (RaisesInvalid .vex256 Masking.off e s) (RaisesInexact .vex256 Masking.off e s) s t

/-- F-EVEX128, both rows: under the writemask each of the two elements is the result, 0 or the old element; everything above
bit 63 is zero (R124, R126; 90_conflicts.md C1).
That `pc` wraps at 2^64 in Mode64 is the model's choice (log 32, PRESUMED). -/
def Obligations.Evex128Converts : Prop :=
  ∀ (p : Prefixes) (d : VReg) (m : Masking) (e : Nat → Qword) (s : State) (i : Instr),
    (∃ src, i = .evex128 p d m src) ∨ (∃ a, i = .evex128b p d m a) →
    Enabled .evex128 s → SourceIs .evex128 i.length p m (sourceOf i) e s → NoUnmaskedCondition .evex128 m e s →
    ∃ t, exec i s = .next t ∧ Completed i.length d (0#448 ++ elementAt d m s e 1 ++ elementAt d m s e 0)
      (RaisesInvalid .evex128 m e s) (RaisesInexact .evex128 m e s) s t

/-- F-EVEX256, both rows: four elements under the writemask, zero above bit 127 (R125, R126).
That `pc` wraps at 2^64 in Mode64 is the model's choice (log 32, PRESUMED). -/
def Obligations.Evex256Converts : Prop :=
  ∀ (p : Prefixes) (d : VReg) (m : Masking) (e : Nat → Qword) (s : State) (i : Instr),
    (∃ src, i = .evex256 p d m src) ∨ (∃ a, i = .evex256b p d m a) →
    Enabled .evex256 s → SourceIs .evex256 i.length p m (sourceOf i) e s → NoUnmaskedCondition .evex256 m e s →
    ∃ t, exec i s = .next t ∧ Completed i.length d
      (0#384 ++ elementAt d m s e 3 ++ elementAt d m s e 2 ++ elementAt d m s e 1 ++ elementAt d m s e 0)
      (RaisesInvalid .evex256 m e s) (RaisesInexact .evex256 m e s) s t

/-- F-EVEX512 without `{sae}`: a register, a 64-byte memory or a broadcast source; eight elements under the writemask, zero
above bit 255 (R126).
That `pc` wraps at 2^64 in Mode64 is the model's choice (log 32, PRESUMED). -/
def Obligations.Evex512Converts : Prop :=
  ∀ (p : Prefixes) (d : VReg) (m : Masking) (e : Nat → Qword) (s : State) (i : Instr),
    (∃ src, i = .evex512 p d m src) ∨ (∃ a, i = .evex512b p d m (.mem a)) →
    Enabled .evex512 s → SourceIs .evex512 i.length p m (sourceOf i) e s → NoUnmaskedCondition .evex512 m e s →
    ∃ t, exec i s = .next t ∧ Completed i.length d
      (0#256 ++ elementAt d m s e 7 ++ elementAt d m s e 6 ++ elementAt d m s e 5 ++ elementAt d m s e 4
        ++ elementAt d m s e 3 ++ elementAt d m s e 2 ++ elementAt d m s e 1 ++ elementAt d m s e 0)
      (RaisesInvalid .evex512 m e s) (RaisesInexact .evex512 m e s) s t

/-- F-EVEX512 with `{sae}` (40_conversion.md R110): whatever is masked, every computed element receives its result and MXCSR
is not changed at all.
That `pc` wraps at 2^64 in Mode64 is the model's choice (log 32, PRESUMED). -/
def Obligations.SaeConverts : Prop :=
  ∀ (p : Prefixes) (d r : VReg) (m : Masking) (s : State), Enabled .evex512 s →
    ∃ t, exec (.evex512b p d m (.reg r)) s = .next t ∧ t.mxcsr = s.mxcsr
      ∧ (let e := elem64 (s.readZmm r)
        Completed (Instr.evex512b p d m (.reg r)).length d
          (0#256 ++ elementAt d m s e 7 ++ elementAt d m s e 6 ++ elementAt d m s e 5 ++ elementAt d m s e 4
            ++ elementAt d m s e 3 ++ elementAt d m s e 2 ++ elementAt d m s e 1 ++ elementAt d m s e 0)
          False False s t)

/-! ### Masking, and what an instruction does not read -/

/-- R129 items 1 to 3: with every mask bit of the form zero, whatever the mask bits above, merging keeps the low half and
zeroes the rest, zeroing clears the register; no flag is set. -/
def Obligations.AllMaskedOff : Prop :=
  ∀ (p : Prefixes) (d : VReg) (m : Masking) (src : Operand) (s t : State) (f : Form) (i : Instr),
    (f = .evex128 ∧ i = .evex128 p d m src) ∨ (f = .evex256 ∧ i = .evex256 p d m src)
      ∨ (f = .evex512 ∧ i = .evex512 p d m src) ∨ (f = .evex512 ∧ i = .evex512b p d m src)
      ∨ (∃ a, src = .mem a ∧ f = .evex128 ∧ i = .evex128b p d m a)
      ∨ (∃ a, src = .mem a ∧ f = .evex256 ∧ i = .evex256b p d m a) →
    m.k ≠ 0 → (∀ j, j < f.kl → s.k[m.k].getLsbD j = false) → exec i s = .next t →
    t.mxcsr = s.mxcsr
    ∧ ∀ b, (t.readZmm d).getLsbD b = (!m.z && decide (b < f.vl / 2) && (s.readZmm d).getLsbD b)

/-- 10_state.md R23 and R24: of the opmask registers only bits `KL-1:0` of the writemask are read; `K[0]` is never read. -/
def Obligations.OpmaskBitsRead : Prop :=
  ∀ (i : Instr) (s t : State) (k' : Vector (BitVec 64) 8),
    (i.fields.mask.k ≠ 0 → ∀ j, j < i.fields.form.kl →
      k'[i.fields.mask.k].getLsbD j = s.k[i.fields.mask.k].getLsbD j) →
    exec i s = .next t → exec i { s with k := k' } = .next { t with k := k' }

/-- R109 and R129 item 4: the source elements that the mask turns off are not used, whatever they hold. -/
def Obligations.MaskedOffElementsUnused : Prop :=
  ∀ (p : Prefixes) (d r : VReg) (m : Masking) (s t : State) (v : VecWord) (i : Instr),
    i = .evex128 p d m (.reg r) ∨ i = .evex256 p d m (.reg r) ∨ i = .evex512 p d m (.reg r)
      ∨ i = .evex512b p d m (.reg r) →
    r ≠ d → (∀ j, j < i.fields.form.kl → computed m s j = true → elem64 v j = elem64 (s.readZmm r) j) →
    exec i s = .next t →
    ∃ t', exec i (s.writeZmm r v) = .next t' ∧ t'.readZmm d = t.readZmm d ∧ t'.mxcsr = t.mxcsr ∧ t'.pc = t.pc

/-- 20_memory.md R43: a broadcast gives what converting the vector of `KL` copies of the element gives. -/
def Obligations.BroadcastIsCopies : Prop :=
  ∀ (p : Prefixes) (d r : VReg) (m : Masking) (a : Address) (e0 : Qword) (v : VecWord) (s t t' : State) (ib ir : Instr),
    (ib = .evex128b p d m a ∧ ir = .evex128 p d m (.reg r)) ∨ (ib = .evex256b p d m a ∧ ir = .evex256 p d m (.reg r))
      ∨ (ib = .evex512b p d m (.mem a) ∧ ir = .evex512 p d m (.reg r)) →
    SourceIs ib.fields.form ib.length p m (.bcst a) (fun _ => e0) s → exec ib s = .next t →
    r ≠ d → (∀ j, j < ir.fields.form.kl → elem64 v j = e0) → exec ir (s.writeZmm r v) = .next t' →
    t'.readZmm d = t.readZmm d ∧ t'.mxcsr = t.mxcsr

/-- 40_conversion.md R108 and R112 item 5: the results do not depend on MXCSR: not on the rounding control, FTZ, DAZ, a mask
or a flag. -/
def Obligations.ResultsIgnoreMxcsr : Prop :=
  ∀ (i : Instr) (s t t' : State) (m : BitVec 32), exec i s = .next t → exec i { s with mxcsr := m } = .next t' →
    t'.zmm = t.zmm ∧ t'.pc = t.pc

/-- 10_state.md R28, 20_memory.md R46, 60_exceptions.md R158: with a register source no general register, segment, memory
byte or oracle answer is read, and the privilege level does not matter. -/
def Obligations.RegisterSourceReadsNoMemory : Prop :=
  ∀ (i : Instr) (s t : State) (g : Vector (BitVec 64) 16) (sg : Segments) (c : BitVec 2) (me : Memory)
    (o : List OracleRegion), (sourceOf i).address = none → exec i s = .next t →
    exec i { s with gpr := g, seg := sg, cpl := c, mem := me, oracle := o }
      = .next { t with gpr := g, seg := sg, cpl := c, mem := me, oracle := o }

/-- R122, R125: on a register source the two- and three-byte VEX rows give the same result, and an EVEX form without
writemask gives the VEX form's. Only `pc`, by the length, differs. -/
def Obligations.FormsAgreeOnRegisters : Prop :=
  ∀ (p : Prefixes) (d r : VReg) (s t t' : State) (i i' : Instr),
    (i = .vex128c5 p d (.reg r) ∧ i' = .vex128c4 p d (.reg r))
      ∨ (i = .vex256c5 p d (.reg r) ∧ i' = .vex256c4 p d (.reg r))
      ∨ (i = .vex128c5 p d (.reg r) ∧ i' = .evex128 p d Masking.off (.reg r))
      ∨ (i = .vex256c5 p d (.reg r) ∧ i' = .evex256 p d Masking.off (.reg r)) →
    exec i s = .next t → exec i' s = .next t' → { t' with pc := t.pc } = t

/-! ### The memory operand -/

/-- 30_encoding.md R73 to R75: the effective address is the exact sum of its parts modulo `2^A`, `A` being 64 or, with a 67H
prefix, 32 in Mode64 and 32 in Mode32; `N` is the factor of an 8-bit displacement. With 67H in Mode32 `A` would be 16, and a
memory operand is refused (R76, R81 row 4): not claimed here. That real-address and virtual-8086 mode are addressed as
Mode32, with `A = 32` and no 67H, is the model's reading (log 15, DEDUCED). -/
def Obligations.EffectiveAddress : Prop :=
  ∀ (s : State) (p : Prefixes) (len n : Nat), (s.mode = .mode32 → p.addrSize = false) →
    (∀ (b : Gpr) (dp : Disp), ((effAddr s p len n (.base b dp)).toNat : Int)
      = (gprInt s b + dispInt n dp) % 2 ^ addressSize s.mode p)
    ∧ (∀ w : Dword, ((effAddr s p len n (.disp32 w)).toNat : Int)
      = ((if s.mode = .mode64 then (s.pc.toNat : Int) + len else 0) + w.toInt) % 2 ^ addressSize s.mode p)
    ∧ (∀ (b : Gpr) (x : Option Gpr) (sc : Fin 4) (dp : Disp), ((effAddr s p len n (.sib b x sc dp)).toNat : Int)
      = (gprInt s b + indexInt s x sc + dispInt n dp) % 2 ^ addressSize s.mode p)
    ∧ ∀ (x : Option Gpr) (sc : Fin 4) (w : Dword), ((effAddr s p len n (.sibNoBase x sc w)).toNat : Int)
      = (indexInt s x sc + w.toInt) % 2 ^ addressSize s.mode p

/-- R74: the factor `N` of each form: 1 for the legacy and VEX forms; 8 for a broadcast; 16, 32, 64 for a full-width EVEX
operand. -/
def Obligations.DisplacementFactor : Prop :=
  (∀ b, dispFactor .sse b = 1 ∧ dispFactor .vex128 b = 1 ∧ dispFactor .vex256 b = 1)
  ∧ (dispFactor .evex128 true = 8 ∧ dispFactor .evex256 true = 8 ∧ dispFactor .evex512 true = 8)
  ∧ dispFactor .evex128 false = 16 ∧ dispFactor .evex256 false = 32 ∧ dispFactor .evex512 false = 64

/-- R73, 10_state.md R32, 30_encoding.md R61, 20_memory.md R45: the default segment, what replaces it, and the linear address.
In Mode64 an ES, CS or DS override is ignored, and an SS override adds no base and so does not change the address; that it
still names SS for the choice of exception is the model's reading of R149 (log 16, DEDUCED). -/
def Obligations.SegmentAndLinearAddress : Prop :=
  (∀ (b : Gpr) (dp : Disp) (x : Option Gpr) (sc : Fin 4), (defaultSeg (.base b dp) = .ss ↔ b = 4 ∨ b = 5)
    ∧ (defaultSeg (.base b dp) = .ds ↔ ¬ (b = 4 ∨ b = 5)) ∧ defaultSeg (.sib b x sc dp) = defaultSeg (.base b dp))
  ∧ (∀ (w : Dword) (x : Option Gpr) (sc : Fin 4), defaultSeg (.disp32 w) = .ds ∧ defaultSeg (.sibNoBase x sc w) = .ds)
  ∧ (∀ (m : Mode) (z : Bool) (a : Address), effSeg m ⟨none, z⟩ a = defaultSeg a)
  ∧ (∀ (g : SegReg) (z : Bool) (a : Address), effSeg .mode32 ⟨some g, z⟩ a = g
    ∧ effSeg .mode64 ⟨some g, z⟩ a = (if g = .es ∨ g = .cs ∨ g = .ds then defaultSeg a else g))
  ∧ ∀ (s : State) (g : SegReg) (ea : BitVec 64), (linearAddr s g ea).toNat
      = ((if s.mode = .mode64 ∧ g ≠ .fs ∧ g ≠ .gs then 0 else (s.segment g).base.toNat) + ea.toNat)
        % 2 ^ addrBits s.mode

/-- 20_memory.md R42: a read of `n` bytes returns the value whose bits `[8i+7:8i]` are the byte at `addr + i`. R42 is silent
on an operand that runs past the top of the address space: that `addr + i` wraps at the address width is the model's choice
(log 14, PRESUMED). -/
def Obligations.MemoryIsLittleEndian : Prop :=
  ∀ (f : Form) (b : Bool) (g : SegReg) (ea : BitVec 64) (n : Nat) (s : State) (v : VecWord), n ≤ 64 →
    readMemory f b g ea (List.range n) s = .next v →
    (∀ i, i < n → s.mem.get (byteAddr s (linearAddr s g ea) i).toNat = some (v.extractLsb' (8 * i) 8))
    ∧ (∀ i, (byteAddr s (linearAddr s g ea) i).toNat = ((linearAddr s g ea).toNat + i) % 2 ^ addrBits s.mode)
    ∧ ∀ k, 8 * n ≤ k → v.getLsbD k = false

/-- 20_memory.md R52: with FAULT_SUPPRESSION an instruction that completes without it completes with the same result. -/
def Obligations.FaultSuppressionOnlyAllowsMore : Prop :=
  ∀ (i : Instr) (s t : State), s.params.faultSuppression = false → exec i s = .next t →
    exec i { s with params := { s.params with faultSuppression := true } }
      = .next { t with params := { s.params with faultSuppression := true } }

/-! ### Faults and refusals -/

/-- 60_exceptions.md R144 and R145 (and the mode condition of R146): when each form is `#UD`, with the state unchanged. The
spec names CR0.PE and EFLAGS.VM without a bit number: that they are bit 0 and bit 17 is the model's choice (log 4,
PRESUMED). -/
def Obligations.MissingEnableFaults : Prop :=
  ∀ (i : Instr) (s : State),
    (match i.fields.form with
      | .sse => s.cr0.getLsbD 2 = true ∨ s.cr4.getLsbD 9 = false ∨ s.features.hasSSE2 = false
      | .vex128 | .vex256 => s.cr0.getLsbD 0 = false ∨ s.eflags.getLsbD 17 = true ∨ s.cr4.getLsbD 18 = false
          ∨ s.xcr0.extractLsb' 1 2 ≠ 3#2 ∨ s.features.hasAVX = false
      | .evex128 | .evex256 => s.cr0.getLsbD 0 = false ∨ s.eflags.getLsbD 17 = true ∨ s.cr4.getLsbD 18 = false
          ∨ s.xcr0.extractLsb' 1 2 ≠ 3#2 ∨ s.xcr0.extractLsb' 5 3 ≠ 7#3 ∨ s.features.hasAVX512F = false
          ∨ s.features.hasAVX512VL = false
      | .evex512 => s.cr0.getLsbD 0 = false ∨ s.eflags.getLsbD 17 = true ∨ s.cr4.getLsbD 18 = false
          ∨ s.xcr0.extractLsb' 1 2 ≠ 3#2 ∨ s.xcr0.extractLsb' 5 3 ≠ 7#3 ∨ s.features.hasAVX512F = false) ↔
    exec i s = .fault (.ud s) ∧ s.enabled i.fields.form = false

/-- R148: every form raises `#NM` when CR0.TS = 1 and no `#UD` condition of R144 to R146 holds; those come first. -/
def Obligations.TaskSwitchedFaults : Prop :=
  ∀ (i : Instr) (s : State), s.cr0.getLsbD 3 = true →
    (s.enabled i.fields.form = true → exec i s = .fault (.nm s))
    ∧ (s.enabled i.fields.form = false → exec i s = .fault (.ud s))

/-- R149, bullet by bullet: canonical addresses in Mode64; limit, readability and null selector in Mode32; 0..FFFFH in
real-address mode; 16-byte alignment of F-SSE. Only bytes that are read are checked. The model's choices among these: the
alignment is tested first (log 35, DEDUCED from 41_cvttpd2dq.md R120 step 4); these checks come before an oracle answer that
names the other exception (log 35, DESIGN CHOICE); in Mode64 an SS override counts for the choice between `#SS(0)` and
`#GP(0)`, while ES, CS and DS overrides are ignored (log 16, DEDUCED from R149 "or by override" and R61); the limit test does
not wrap, and segments expand up (log 26, DEDUCED). -/
def Obligations.SegmentChecksFault : Prop :=
  ∀ (i : Instr) (a : Address) (s : State), (sourceOf i).address = some a → Enabled i.fields.form s →
    (let f := i.fields.form
     let src := sourceOf i
     let g := effSeg s.mode i.fields.pre a
     let ea := operandEA f i.length i.fields.pre src a s
     let addr := operandAddr f i.length i.fields.pre src a s
     let read := fun o => byteRead f i.fields.mask src s o = true
     (f = .sse → addr.toNat % 16 ≠ 0 → exec i s = .fault (.gp0 s))
     ∧ ((f = .sse → addr.toNat % 16 = 0) →
        (s.mode = .mode64 → (∃ o, read o ∧ canonical s.la57 (byteAddr s addr o) = false) →
          exec i s = .fault (if g = .ss then .ss0 s else .gp0 s))
        ∧ (s.mode = .mode32 → s.realMode = false →
          (∃ o, read o ∧ ((s.segment g).limit.toNat < ea.toNat + o ∨ (s.segment g).readable = false
            ∨ (s.segment g).null = true)) →
          exec i s = .fault (if g = .ss then .ss0 s else .gp0 s))
        ∧ (s.mode = .mode32 → s.realMode = true → (∃ o, read o ∧ 0xFFFF < ea.toNat + o) → exec i s = .fault (.gp0 s))))

/-- 20_memory.md R40: what a canonical address is. -/
def Obligations.CanonicalAddresses : Prop :=
  ∀ a : BitVec 64,
    (canonical false a = true ↔ ∀ b, 47 ≤ b → b < 64 → a.getLsbD b = a.getLsbD 63)
    ∧ (canonical true a = true ↔ ∀ b, 56 ≤ b → b < 64 → a.getLsbD b = a.getLsbD 63)

/-- 20_memory.md R51: a segment fault that the memory oracle answers with is raised as it is, before any page fault
(R153 items 4 and 5). -/
def Obligations.OracleSegmentFaults : Prop :=
  ∀ (i : Instr) (a : Address) (s : State) (r : OracleRegion) (o : Nat), ReachesRead i a s → ReadsRegion i a s r o →
    r.answer.isSegment = true →
    ∃ r' o', ReadsRegion i a s r' o' ∧ ((r'.answer = .gp0 ∧ exec i s = .fault (.gp0 s))
      ∨ (r'.answer = .ss0 ∧ exec i s = .fault (.ss0 s)))

/-- R150: a page fault on a byte that is read, its error code bit by bit, and the address that CR2 receives. That P = 1 for a
supervisor, reserved-bit or protection-key violation, and that the code is 32 bits wide with bits 31:6 zero (R150 gives bits
5:0 only), is the model's choice (log 34, PRESUMED). -/
def Obligations.PageFaults : Prop :=
  ∀ (i : Instr) (a : Address) (s : State) (r : OracleRegion) (o : Nat), ReachesRead i a s →
    (∀ r' o', ReadsRegion i a s r' o' → r'.answer.isSegment = false) →
    ReadsRegion i a s r o → r.answer.isPageFault s.cpl = true →
    ∃ r' o' code, ReadsRegion i a s r' o' ∧ r'.answer.isPageFault s.cpl = true
      ∧ exec i s = .fault (.pf code (byteAddr s (operandAddr i.fields.form i.length i.fields.pre (sourceOf i) a s) o') s)
      ∧ (code.getLsbD 0 = true ↔ r'.answer ≠ .notPresent) ∧ code.getLsbD 1 = false
      ∧ (code.getLsbD 2 = true ↔ s.cpl = 3#2) ∧ (code.getLsbD 3 = true ↔ r'.answer = .reservedBit)
      ∧ code.getLsbD 4 = false ∧ (code.getLsbD 5 = true ↔ r'.answer = .protectionKey)
      ∧ ∀ b, 6 ≤ b → code.getLsbD b = false

/-- 60_exceptions.md R142: the vectors, the error codes and the recorded values: `#PF` records the linear address in CR2 and
nothing else, the others record nothing (for `#XM` the MXCSR flags are already in the state the fault carries). -/
def Obligations.ExceptionTable : Prop :=
  ∀ (s : State) (code : BitVec 32) (lin : BitVec 64),
    ((Fault.ud s).vector = 6 ∧ (Fault.ud s).errorCode = none ∧ (Fault.ud s).recorded = s)
    ∧ ((Fault.nm s).vector = 7 ∧ (Fault.nm s).errorCode = none ∧ (Fault.nm s).recorded = s)
    ∧ ((Fault.ss0 s).vector = 12 ∧ (Fault.ss0 s).errorCode = some 0 ∧ (Fault.ss0 s).recorded = s)
    ∧ ((Fault.gp0 s).vector = 13 ∧ (Fault.gp0 s).errorCode = some 0 ∧ (Fault.gp0 s).recorded = s)
    ∧ ((Fault.pf code lin s).vector = 14 ∧ (Fault.pf code lin s).errorCode = some code
      ∧ (Fault.pf code lin s).recorded = { s with cr2 := lin })
    ∧ ((Fault.xm s).vector = 19 ∧ (Fault.xm s).errorCode = none ∧ (Fault.xm s).recorded = s)

/-- The refusals of the read: a device address (20_memory.md R47), a misaligned broadcast operand with alignment checking on,
whether or not a byte of it is read (20_memory.md R44; 60_exceptions.md R152), a byte the launch memory does not describe
(30_encoding.md R81 row 6); in this order, which is the model's (log 24). -/
def Obligations.ReadRefusals : Prop :=
  ∀ (i : Instr) (a : Address) (s : State), ReachesRead i a s →
    (∀ r o, ReadsRegion i a s r o → r.answer.isSegment = false ∧ r.answer.isPageFault s.cpl = false) →
    (let f := i.fields.form
     let src := sourceOf i
     let addr := operandAddr f i.length i.fields.pre src a s
     let read := fun o => byteRead f i.fields.mask src s o = true
     let device := ∃ r o, ReadsRegion i a s r o ∧ r.answer = .device
     let misaligned := src.isBcst = true ∧ s.amAc = true ∧ addr.toNat % 8 ≠ 0
     (device → exec i s = .refused .deviceRead)
     ∧ (¬ device → misaligned → exec i s = .refused .alignmentCheckOpen)
     ∧ (¬ device → ¬ misaligned → (∃ o, read o ∧ s.mem.get (byteAddr s addr o).toNat = none) →
        exec i s = .refused .undescribedMemory))

/-- R151 and 40_conversion.md R106: an unmasked Invalid or Precision is `#XM`, or `#UD` when CR4.OSXMMEXCPT = 0; no vector
register and no `pc` changes; under `{sae}` neither occurs. -/
def Obligations.UnmaskedConditionFaults : Prop :=
  (∀ (i : Instr) (e : Nat → Qword) (s : State), Enabled i.fields.form s → (sourceOf i).sae = false →
    SourceIs i.fields.form i.length i.fields.pre i.fields.mask (sourceOf i) e s →
    (RaisesInvalid i.fields.form i.fields.mask e s ∧ mxIM s.mxcsr = false)
      ∨ (RaisesInexact i.fields.form i.fields.mask e s ∧ mxPM s.mxcsr = false) →
    ∃ t, FaultStateOf s t ∧ exec i s = .fault (if s.cr4.getLsbD 10 = true then .xm t else .ud t))
  ∧ ∀ (i : Instr) (s : State), Enabled i.fields.form s → (sourceOf i).sae = true → ∃ t, exec i s = .next t

/-- R155: after an unmasked condition the restarted instruction, with the mask bits set, gives the result it gives without
the first attempt; only sticky flags can tell. -/
def Obligations.RestartAfterFault : Prop :=
  ∀ (i : Instr) (s t : State) (f : Fault), exec i s = .fault f →
    exec i { s with mxcsr := s.mxcsr ||| 0x1080#32 } = .next t →
    ∃ t', exec i { f.state with mxcsr := f.state.mxcsr ||| 0x1080#32 } = .next t' ∧ t'.zmm = t.zmm ∧ t'.pc = t.pc
      ∧ ∀ b, b ≠ 0 → b ≠ 5 → t'.mxcsr.getLsbD b = t.mxcsr.getLsbD b

/-! ### The whole machine -/

/-- 10_state.md R34: a next state changes the destination vector register of the instruction at `pc`, MXCSR.IE, MXCSR.PE and
`pc`, and nothing else; a fault changes nothing at all, but that an unmasked SIMD floating-point exception may raise IE and
PE. That `pc` wraps at 2^64 in Mode64 is the model's choice (log 32, PRESUMED). -/
def Obligations.StepFrame : Prop :=
  (∀ s t : State, step s = .next t →
    ∃ i rest, decode (decodeEnv s) (codeBytes s) = .ok (i, rest)
      ∧ (∀ r, r ≠ i.fields.dst → t.readZmm r = s.readZmm r)
      ∧ (∀ b, b ≠ 0 → b ≠ 5 → t.mxcsr.getLsbD b = s.mxcsr.getLsbD b)
      ∧ (mxIE s.mxcsr = true → mxIE t.mxcsr = true) ∧ (mxPE s.mxcsr = true → mxPE t.mxcsr = true)
      ∧ t.pc.toNat = (s.pc.toNat + i.length) % 2 ^ addrBits s.mode
      ∧ SameElsewhere s t)
  ∧ ∀ (s : State) (f : Fault), step s = .fault f →
    f.state = s
      ∨ (FaultStateOf s f.state ∧ ((f = .xm f.state ∧ s.osxmmexcpt = true) ∨ (f = .ud f.state ∧ s.osxmmexcpt = false)))

/-- Every step keeps the invariant: memory in canonical form, MXCSR[31:16] zero, EIP within 32 bits, Mode64 a legal mode;
and so does the state a fault carries or records. -/
def Obligations.StepKeepsInv : Prop :=
  (∀ s t : State, Inv s → step s = .next t → Inv t)
  ∧ ∀ (s : State) (f : Fault), Inv s → step s = .fault f → Inv f.state ∧ Inv f.recorded

/-- The invariant holds after reset, after INIT of a state that has it, and after the host's placing of an instruction. -/
def Obligations.ResetInv : Prop :=
  Inv State.reset ∧ (∀ s : State, Inv s → Inv s.init) ∧ ∀ (s : State) (nbits w : Nat), Inv s → Inv (s.withFetchWord nbits w)

/-- 10_state.md R35, first two columns: the reset values the spec gives, and what INIT leaves unchanged. RDX is the processor
signature, whose value the spec does not give: nothing is said of it. -/
def Obligations.ResetValues : Prop :=
  ((∀ r, State.reset.readZmm r = 0) ∧ (∀ k : KReg, State.reset.k[k] = 0) ∧ State.reset.mxcsr = 0x1F80#32
    ∧ (∀ r : Gpr, r ≠ 2 → State.reset.gpr[r] = 0) ∧ State.reset.pc = 0xFFF0#64
    ∧ State.reset.seg.cs.base = 0xFFFF0000#64 ∧ State.reset.eflags = 2#32 ∧ State.reset.cr0 = 0x60000010#32
    ∧ State.reset.cr4 = 0#32 ∧ State.reset.xcr0 = 1#8 ∧ State.reset.mode = .mode32 ∧ State.reset.realMode = true
    ∧ State.reset.cpl = 0#2)
  ∧ ∀ s : State, s.init.zmm = s.zmm ∧ s.init.k = s.k ∧ s.init.mxcsr = s.mxcsr ∧ (∀ r : Gpr, r ≠ 2 → s.init.gpr[r] = 0)
    ∧ s.init.pc = 0xFFF0#64 ∧ s.init.seg.cs.base = 0xFFFF0000#64 ∧ s.init.eflags = 2#32 ∧ s.init.cr4 = 0#32
    ∧ s.init.xcr0 = s.xcr0 ∧ s.init.mode = .mode32 ∧ s.init.realMode = true ∧ s.init.cpl = 0#2

/-- R35, last paragraph: straight after reset every form is `#UD`; and so it is after INIT. -/
def Obligations.NoFormRunsAfterReset : Prop :=
  ∀ (i : Instr) (s : State), exec i State.reset = .fault (.ud State.reset) ∧ exec i s.init = .fault (.ud s.init)

/-! ### The refused encodings, row by row of 30_encoding.md R81, and what is accepted -/

/-- R81 rows 2 and 4: in Mode32 a VEX or EVEX prefix with `~B = 0` or `~R' = 0` is refused, and so is a memory operand with
16-bit addressing (67H), whose bytes are counted by R76. Where other rows of R81 apply too the order of the refusals is the
model's (log 17): rows 1 and 5 first, then row 2, then row 4. -/
def Obligations.Mode32FormsRefused : Prop :=
  ∀ (s : State) (pre head : List Byte) (raw : RawOperand), s.mode = .mode32 →
    SoundBytes s.mode (codeBytes s) pre head raw → (SaeMismatch head raw → s.params.saeLLIgnored = true) →
    ¬ Repeated pre →
    (ExtensionBits head → step s = .refused .mode32Extension)
    ∧ (¬ ExtensionBits head → 0x67#8 ∈ pre → raw.isReg = false → step s = .refused .addr16)

/-- R81 row 3, R61 and R78 step 3: `0F E6` with an F2H or F3H prefix, or with no 66H, is another instruction, refused,
whatever follows. -/
def Obligations.OtherOpcodesRefused : Prop :=
  ∀ (s : State) (pre rex tail : List Byte), (∀ b ∈ pre, isLegacyPrefix b = true) → RexBytes s.mode rex →
    codeBytes s = pre ++ (rex ++ (0x0F#8 :: 0xE6#8 :: tail)) → (0x66#8 ∉ pre ∨ 0xF2#8 ∈ pre ∨ 0xF3#8 ∈ pre) →
    step s = .refused .otherInstruction

/-- R81 row 5 and R61: more than one segment override or more than one 67H is refused, in every form. That only row 1 of R81
comes before it is the model's choice (log 17). -/
def Obligations.RepeatedPrefixesRefused : Prop :=
  ∀ (s : State) (pre head : List Byte) (raw : RawOperand), SoundBytes s.mode (codeBytes s) pre head raw →
    (SaeMismatch head raw → s.params.saeLLIgnored = true) → Repeated pre → step s = .refused .repeatedPrefix

/-- R81 row 7 and R64: with none of the prefixes that R83 forbids, an EVEX prefix of this instruction whose bits P0[3:2] are
not 00b or whose bit P1[2] is 0 is refused, whatever its other fields and whatever follows the opcode. That this comes before
the `#UD` of the other fields is the model's choice (log 17). -/
def Obligations.EvexReservedRefused : Prop :=
  ∀ (s : State) (pre head tail : List Byte), (∀ b ∈ pre, isSegOverride b = true ∨ b = 0x67#8) → VexHead s.mode head →
    ReservedBits head → codeBytes s = pre ++ (head ++ tail) → step s = .refused .evexReserved

/-- What none of R81's rows refuses is accepted: a sound encoding decodes, and to the same instruction in whatever order its
prefixes stand (R60, R61 "in any order"). That R81 row 4 (D38: "a 67H prefix in Mode32") does not refuse a register source,
which has no address, so that such bytes are accepted here, is the model's reading (log 19, DEDUCED). -/
def Obligations.SoundBytesDecode : Prop :=
  ∀ (env : DecodeEnv) (bs pre head : List Byte) (raw : RawOperand), SoundBytes env.mode bs pre head raw → bs.length ≤ 15 →
    (SaeMismatch head raw → env.saeLLIgnored = true) → ¬ Repeated pre →
    (env.mode = .mode32 → ¬ ExtensionBits head ∧ (0x67#8 ∈ pre → raw.isReg = true)) →
    ∃ i rest, decode env bs = .ok (i, rest)
      ∧ ∀ pre' tail, pre.Perm pre' → bs = pre ++ tail → decode env (pre' ++ tail) = .ok (i, rest)
end

