-- ==== Sys2Proof/Laws/Encoding.lean ====
section
/-! SUPPORT. How the decoder's parts read what the encoder's parts write. -/

namespace Sys2Proof

/-! ### Prefix bytes -/

/-- A byte that is no legacy prefix ends the scan. -/
theorem scanPrefixes_stop (sc : Scan) (b : Byte) (tl : List Byte) (h : sc.note b = none) :
    scanPrefixes sc (b :: tl) = (sc, b :: tl) := by simp [scanPrefixes, h]

/-- Repeated 66H bytes are counted. -/
theorem scanPrefixes_replicate (n : Nat) (sc : Scan) (tl : List Byte) :
    scanPrefixes sc (List.replicate n 0x66#8 ++ tl) = scanPrefixes { sc with n66 := sc.n66 + n } tl := by
  induction n generalizing sc with
  | zero => simp
  | succ n ih =>
    rw [List.replicate_succ, List.cons_append, scanPrefixes, show sc.note 0x66#8 = some { sc with n66 := sc.n66 + 1 } from rfl]
    simp only [ih]
    congr 2
    omega

/-- The encoder's optional prefixes are recorded as written. -/
theorem scanPrefixes_bytes (p : Prefixes) (n : Nat) (tl : List Byte) :
    scanPrefixes ⟨n, [], 0, false, false⟩ (p.bytes ++ tl)
      = scanPrefixes ⟨n, p.seg.toList, p.addrSize.toNat, false, false⟩ tl := by
  obtain ⟨seg, a⟩ := p
  cases seg with
  | none => cases a <;> rfl
  | some g => cases g <;> cases a <;> rfl

/-- What the encoder writes before the head, scanned. -/
theorem scanPrefixes_encode (n : Nat) (p : Prefixes) (b : Byte) (tl : List Byte)
    (h : ∀ sc : Scan, sc.note b = none) :
    scanPrefixes Scan.start (List.replicate n 0x66#8 ++ (p.bytes ++ b :: tl))
      = (⟨n, p.seg.toList, p.addrSize.toNat, false, false⟩, b :: tl) := by
  rw [scanPrefixes_replicate]
  simp only [Scan.start, Nat.zero_add]
  rw [scanPrefixes_bytes, scanPrefixes_stop _ _ _ (h _)]

/-- The first bytes of the heads are no legacy prefixes. -/
theorem note_head (b : Byte) (hb : b ∈ [0x0F#8, 0xC5#8, 0xC4#8, 0x62#8]) (sc : Scan) : sc.note b = none := by
  simp only [List.mem_cons, List.not_mem_nil, or_false] at hb
  rcases hb with rfl | rfl | rfl | rfl <;> rfl

/-- A REX byte is no legacy prefix. -/
theorem note_rex (b : Byte) (hb : b.extractLsb' 4 4 = 4#4) (sc : Scan) : sc.note b = none := by
  have h : ∀ b : Byte, b.extractLsb' 4 4 = 4#4 → b ≠ 0x66#8 ∧ b ≠ 0x67#8 ∧ b ≠ 0xF0#8 ∧ b ≠ 0xF2#8 ∧ b ≠ 0xF3#8
      ∧ segOfByte b = none := by decide
  obtain ⟨h1, h2, h3, h4, h5, h6⟩ := h b hb
  simp [Scan.note, h1, h2, h3, h4, h5, h6]

/-! ### Register numbers -/

theorem vregOf_eq (r : VReg) (b4 b3 : Bool) (h4 : b4 = r.val.testBit 4) (h3 : b3 = r.val.testBit 3) :
    vregOf b4 b3 (lo3 r.val) = r := by
  subst h4 h3
  revert r
  decide

theorem gprOf_eq (g : Gpr) (b3 : Bool) (h : b3 = g.val.testBit 3) : gprOf b3 (lo3 g.val) = g := by
  subst h
  revert g
  decide

theorem indexOf_some (x : Gpr) (b : Bool) (hb : b = x.val.testBit 3) (h : x ≠ 4) :
    indexOf b (lo3 x.val) = some x := by
  simp [indexOf, gprOf_eq x b hb, h]

theorem testBit_of_lt_eight (n : Nat) (h : n < 8) (i : Nat) (hi : 3 ≤ i) : n.testBit i = false :=
  Nat.testBit_lt_two_pow (lt_of_lt_of_le h (show 2 ^ 3 ≤ 2 ^ i from Nat.pow_le_pow_right (by decide) hi))

theorem testBit_four_of_lt (n : Nat) (h : n < 16) : n.testBit 4 = false := Nat.testBit_lt_two_pow h

/-! ### ModRM, SIB and displacement -/

/-- What the decoder reads back of an operand before the prefix extends it. -/
def rawOf : Operand → RawOperand
  | .reg r => .reg (lo3 r.val)
  | .mem (.base b d) => .base (lo3 b.val) d
  | .mem (.disp32 w) => .disp32 w
  | .mem (.sib b x sc d) => .sib (scaleBits sc) (indexLo x) (lo3 b.val) d
  | .mem (.sibNoBase x sc w) => .sibNoBase (scaleBits sc) (indexLo x) w

theorem rawOf_isReg (o : Operand) : (rawOf o).isReg = !o.isMem := by
  rcases o with r | (a | a | a | a) <;> rfl

/-- Three fields of a byte: `2 + 3 + 3` bits. -/
theorem byte_fields (a : BitVec 2) (b c : BitVec 3) :
    (a ++ b ++ c : Byte).extractLsb' 6 2 = a ∧ (a ++ b ++ c : Byte).extractLsb' 3 3 = b
      ∧ (a ++ b ++ c : Byte).extractLsb' 0 3 = c := by
  revert a b c
  decide

theorem dispWord_dword4 (w : Dword) (tl : List Byte) : takeDisp32 (dword4 w ++ tl) = .ok (w, tl) := by
  simp only [dword4, List.cons_append, List.nil_append, takeDisp32, dispWord]
  congr 2
  apply BitVec.eq_of_getLsbD_eq
  intro i hi
  simp only [BitVec.getLsbD_append, BitVec.getLsbD_extractLsb']
  rcases Nat.lt_or_ge i 8 with h | h
  · simp [h]
  · rcases Nat.lt_or_ge i 16 with h2 | h2
    · have e : ¬ i < 8 := by omega
      have e1 : i - 8 < 8 := by omega
      have e2 : 8 + (i - 8) = i := by omega
      simp [e, e1, e2]
    · rcases Nat.lt_or_ge i 24 with h3 | h3
      · have e : ¬ i < 8 := by omega
        have e0 : ¬ i - 8 < 8 := by omega
        have e1 : i - 8 - 8 < 8 := by omega
        have e2 : 16 + (i - 8 - 8) = i := by omega
        simp [e, e0, e1, e2]
      · have e : ¬ i < 8 := by omega
        have e0 : ¬ i - 8 < 8 := by omega
        have e1 : ¬ i - 8 - 8 < 8 := by omega
        have e2 : 24 + (i - 8 - 8 - 8) = i := by omega
        have e3 : i - 8 - 8 - 8 < 8 := by omega
        simp [e, e0, e1, e2, e3]

theorem takeDisp_bytes (d : Disp) (tl : List Byte) : takeDisp d.mod (d.bytes ++ tl) = .ok (d, tl) := by
  cases d with
  | none => rfl
  | d8 b => rfl
  | d32 w => simp [takeDisp, Disp.mod, Disp.bytes, dispWord_dword4]

theorem mod_ne_three (d : Disp) : d.mod ≠ 3#2 := by cases d <;> simp [Disp.mod]

theorem mod_ne_zero (d : Disp) (h : d ≠ .none) : d.mod ≠ 0#2 := by
  cases d with
  | none => exact absurd rfl h
  | d8 b => simp [Disp.mod]
  | d32 w => simp [Disp.mod]

theorem lo3_eq_iff (b : Gpr) (n : Nat) (hn : n < 8) : lo3 b.val = BitVec.ofNat 3 n ↔ b.val % 8 = n := by
  rw [lo3, ← BitVec.toNat_inj]
  simp [Nat.mod_eq_of_lt hn]

/-- The decoder reads the operand bytes back. -/
theorem parseModRM_bytes (rg : BitVec 3) (o : Operand) (n : Nat)
    (h : ∀ a, o = .mem a → a.wf n = true) (tl : List Byte) :
    parseModRM (modrmBytes rg o ++ tl) = .ok (rg, rawOf o, tl) := by
  rcases o with r | a
  · obtain ⟨h1, h2, h3⟩ := byte_fields 3#2 rg (lo3 r.val)
    simp only [modrmBytes, List.cons_append, List.nil_append, parseModRM, h1, h2, h3, if_true, rawOf]
  · have ha := h a rfl
    cases a with
    | base b d =>
      simp only [Address.wf, Bool.and_eq_true, Bool.or_eq_true, decide_eq_true_eq] at ha
      obtain ⟨⟨-, h4⟩, h5⟩ := ha
      obtain ⟨e1, e2, e3⟩ := byte_fields d.mod rg (lo3 b.val)
      have f4 : ¬ lo3 b.val = 4#3 := fun e => h4 ((lo3_eq_iff b 4 (by decide)).1 e)
      have f5 : ¬ (d.mod = 0#2 ∧ lo3 b.val = 5#3) := fun e =>
        h5.elim (fun k => k ((lo3_eq_iff b 5 (by decide)).1 e.2)) fun k => mod_ne_zero d k e.1
      simp only [modrmBytes, List.cons_append, parseModRM, e1, e2, e3, mod_ne_three d, if_false, f4, f5, takeDisp_bytes,
        rawOf]
    | disp32 w =>
      obtain ⟨e1, e2, e3⟩ := byte_fields 0#2 rg 5#3
      simp only [modrmBytes, List.cons_append, parseModRM, e1, e2, e3, dispWord_dword4, rawOf]
      rfl
    | sib b x sc d =>
      simp only [Address.wf, Bool.and_eq_true, Bool.or_eq_true, decide_eq_true_eq] at ha
      obtain ⟨⟨-, -⟩, h5⟩ := ha
      obtain ⟨e1, e2, e3⟩ := byte_fields d.mod rg 4#3
      obtain ⟨g1, g2, g3⟩ := byte_fields (scaleBits sc) (indexLo x) (lo3 b.val)
      have f5 : ¬ (d.mod = 0#2 ∧ lo3 b.val = 5#3) := fun e =>
        h5.elim (fun k => k ((lo3_eq_iff b 5 (by decide)).1 e.2)) fun k => mod_ne_zero d k e.1
      simp only [modrmBytes, List.cons_append, parseModRM, e1, e2, e3, mod_ne_three d, if_false, if_true, parseSib, g1, g2,
        g3, f5, takeDisp_bytes, rawOf]
    | sibNoBase x sc w =>
      obtain ⟨e1, e2, e3⟩ := byte_fields 0#2 rg 4#3
      obtain ⟨g1, g2, g3⟩ := byte_fields (scaleBits sc) (indexLo x) 5#3
      simp only [modrmBytes, List.cons_append, parseModRM, e1, e2, e3, parseSib, g1, g2, g3, dispWord_dword4, rawOf]
      rfl

/-- The same in the layout of 16-bit addressing, which a register source does not depend on. -/
theorem parseOperand_bytes (short : Bool) (rg : BitVec 3) (o : Operand) (n : Nat)
    (h : ∀ a, o = .mem a → a.wf n = true) (hs : short = true → o.isMem = false) (tl : List Byte) :
    parseOperand short (modrmBytes rg o ++ tl) = .ok (rg, rawOf o, tl) := by
  cases short with
  | false => exact parseModRM_bytes rg o n h tl
  | true =>
    rcases o with r | a
    · obtain ⟨h1, h2, h3⟩ := byte_fields 3#2 rg (lo3 r.val)
      simp only [parseOperand, if_true, modrmBytes, List.cons_append, List.nil_append, parseModRM16, h1, h2, h3, rawOf]
    · exact absurd (hs rfl) (by simp [Operand.isMem])

/-- The prefix extends the register numbers back: `X` reaches a register source only in the EVEX forms. -/
theorem operandOf_rawOf (isEvex : Bool) (e : Ext) (o : Operand) (n : Nat)
    (hx : e.x = o.extX ∨ (isEvex = false ∧ o.isMem = false)) (hb : e.b = o.extB)
    (hr : ∀ r, o = .reg r → isEvex = false → r.val < 16) (ha : ∀ a, o = .mem a → a.wf n = true) :
    operandOf isEvex e (rawOf o) = some o := by
  have hsc : ∀ sc : Fin 4, (scaleBits sc).toFin = sc := fun sc => rfl
  have hix : ∀ (x : Option Gpr) (b : Bool), indexOk n x = true → (∀ y, x = some y → b = y.val.testBit 3) →
      (x = none → b = false) → indexOf b (indexLo x) = x := by
    intro x b hx h1 h2
    cases x with
    | none => rw [h2 rfl]; decide
    | some y =>
      simp only [indexOk, Bool.and_eq_true, decide_eq_true_eq] at hx
      exact indexOf_some y b (h1 y rfl) fun e => hx.2 (congrArg Fin.val e)
  rcases o with r | a
  · simp only [rawOf, operandOf]
    congr 2
    apply vregOf_eq r _ _ _ hb
    cases isEvex with
    | true => simpa [Operand.extX] using hx.resolve_right (by simp)
    | false => simpa using (testBit_four_of_lt _ (hr r rfl rfl)).symm
  · have ha := ha a rfl
    have hx : e.x = (Operand.mem a).extX := hx.resolve_right (by simp [Operand.isMem])
    cases a with
    | base b d => simp only [rawOf, operandOf, gprOf_eq b e.b hb]
    | disp32 w => rfl
    | sib b x sc d =>
      simp only [Address.wf, Bool.and_eq_true] at ha
      simp only [rawOf, operandOf, gprOf_eq b e.b hb, hsc]
      rw [hix x e.x ha.1.2 (by rintro y rfl; exact hx) (by rintro rfl; exact hx)]
    | sibNoBase x sc w =>
      simp only [Address.wf] at ha
      simp only [rawOf, operandOf, hsc]
      rw [hix x e.x ha (by rintro y rfl; exact hx) (by rintro rfl; exact hx)]

/-! ### The bytes of the heads, field by field -/

theorem evex_p0_fields (r x b r' : Bool) :
    let p : Byte := bit (!r) ++ bit (!x) ++ bit (!b) ++ bit (!r') ++ 0#2 ++ 1#2
    p.getLsbD 7 = !r ∧ p.getLsbD 6 = !x ∧ p.getLsbD 5 = !b ∧ p.getLsbD 4 = !r' ∧ p.extractLsb' 2 2 = 0#2
      ∧ p.extractLsb' 0 2 = 1#2 ∧ (p.extractLsb' 6 2 = 3#2 ↔ r = false ∧ x = false) := by
  revert r x b r'
  decide

theorem evex_p1_fields :
    let p : Byte := 1#1 ++ 15#4 ++ 1#1 ++ 1#2
    p.getLsbD 7 = true ∧ p.extractLsb' 3 4 = 15#4 ∧ p.getLsbD 2 = true ∧ p.extractLsb' 0 2 = 1#2 := by
  decide

theorem evex_p2_fields (z b : Bool) (ll : BitVec 2) (k : KReg) :
    let p : Byte := bit z ++ ll ++ bit b ++ 1#1 ++ kBits k
    p.getLsbD 7 = z ∧ p.extractLsb' 5 2 = ll ∧ p.getLsbD 4 = b ∧ p.getLsbD 3 = true ∧ p.extractLsb' 0 3 = kBits k := by
  revert z b ll k
  decide

theorem vex_p_fields (r : Bool) (l : BitVec 1) :
    let p : Byte := bit r ++ 15#4 ++ l ++ 1#2
    p.getLsbD 7 = r ∧ p.extractLsb' 3 4 = 15#4 ∧ p.extractLsb' 2 1 = l ∧ p.extractLsb' 0 2 = 1#2
      ∧ (p.extractLsb' 6 2 = 3#2 ↔ r = true) := by
  revert r l
  decide

theorem vex_p0_fields (r x b : Bool) :
    let p : Byte := bit r ++ bit x ++ bit b ++ 1#5
    p.getLsbD 7 = r ∧ p.getLsbD 6 = x ∧ p.getLsbD 5 = b ∧ p.extractLsb' 0 5 = 1#5
      ∧ (p.extractLsb' 6 2 = 3#2 ↔ r = true ∧ x = true) := by
  revert r x b
  decide

theorem rex_fields (r x b : Bool) :
    let p : Byte := 4#4 ++ 0#1 ++ bit r ++ bit x ++ bit b
    p.extractLsb' 4 4 = 4#4 ∧ p.getLsbD 2 = r ∧ p.getLsbD 1 = x ∧ p.getLsbD 0 = b ∧ p.getLsbD 3 = false := by
  revert r x b
  decide

/-! ### Limits -/

/-- Operands within the first eight registers need no extension bit. -/
theorem no_extension {m : Mode} {sh : Shape} {o : Operand} (h : o.wf m sh = true) (h1 : sh.srcLimit m ≤ 8)
    (h2 : sh.gprLimit m ≤ 8) : o.extB = false ∧ o.extX = false := by
  have hx : ∀ x : Option Gpr, indexOk (sh.gprLimit m) x = true → ∀ y, x = some y → y.val.testBit 3 = false := by
    rintro x hx y rfl
    simp only [indexOk, Bool.and_eq_true, decide_eq_true_eq] at hx
    exact testBit_of_lt_eight _ (by omega) 3 (by omega)
  rcases o with r | (⟨b, d⟩ | w | ⟨b, x, sc, d⟩ | ⟨x, sc, w⟩)
  · simp only [Operand.wf, decide_eq_true_eq] at h
    exact ⟨testBit_of_lt_eight _ (by omega) 3 (by omega), testBit_of_lt_eight _ (by omega) 4 (by omega)⟩
  · simp only [Operand.wf, Address.wf, Bool.and_eq_true, decide_eq_true_eq] at h
    exact ⟨testBit_of_lt_eight _ (by omega) 3 (by omega), rfl⟩
  · exact ⟨rfl, rfl⟩
  · simp only [Operand.wf, Address.wf, Bool.and_eq_true, decide_eq_true_eq] at h
    refine ⟨testBit_of_lt_eight _ (by omega) 3 (by omega), ?_⟩
    cases x with
    | none => rfl
    | some y => exact hx _ h.1.2 y rfl
  · refine ⟨by cases x <;> rfl, ?_⟩
    cases x with
    | none => rfl
    | some y => exact hx (some y) h y rfl

/-- Shape and form of an instruction's fields go together. -/
def Fields.coherent (f : Fields) : Prop :=
  match f.shape with
  | .legacy | .legacyRex => f.form = .sse ∧ f.mask = Masking.off ∧ f.bbit = false
  | .vex2 | .vex3 => (f.form = .vex128 ∨ f.form = .vex256) ∧ f.mask = Masking.off ∧ f.bbit = false ∧ f.x66 = 0
  | .evex => (f.form = .evex128 ∨ f.form = .evex256 ∨ f.form = .evex512) ∧ f.x66 = 0
      ∧ (f.bbit = true → f.form ≠ .evex512 → f.src.isMem = true)

/-- How many 66H bytes the fields have. -/
def Fields.n66 (f : Fields) : Nat :=
  match f.shape with
  | .legacy | .legacyRex => f.x66 + 1
  | .vex2 | .vex3 | .evex => 0

/-- The extension bits and masking fields that the fields are written with. -/
def Fields.ext (f : Fields) : Ext :=
  match f.shape with
  | .evex => ⟨f.dst.val.testBit 3, f.src.extX, f.src.extB, f.dst.val.testBit 4, true, 15#4, true, f.form.ll, f.mask.z,
      f.bbit, kBits f.mask.k⟩
  | .legacy | .legacyRex | .vex2 | .vex3 => ⟨f.dst.val.testBit 3, f.src.isMem && f.src.extX, f.src.extB, false, false,
      15#4, true, f.form.ll, f.mask.z, f.bbit, kBits f.mask.k⟩

end Sys2Proof
end

