-- ==== Sys2Proof/Laws/State.lean ====
section
/-! SUPPORT. One lemma per field per update of State, so that no proof unfolds a record update. -/

namespace Sys2Proof.Machine

@[simp] theorem State.writeZmm_mode (s : State) (n : VReg) (v : VecWord) : (s.writeZmm n v).mode = s.mode := rfl
@[simp] theorem State.writeZmm_zmm (s : State) (n : VReg) (v : VecWord) : (s.writeZmm n v).zmm = s.zmm.set n v := rfl
@[simp] theorem State.writeZmm_k (s : State) (n : VReg) (v : VecWord) : (s.writeZmm n v).k = s.k := rfl
@[simp] theorem State.writeZmm_mxcsr (s : State) (n : VReg) (v : VecWord) : (s.writeZmm n v).mxcsr = s.mxcsr := rfl
@[simp] theorem State.writeZmm_gpr (s : State) (n : VReg) (v : VecWord) : (s.writeZmm n v).gpr = s.gpr := rfl
@[simp] theorem State.writeZmm_seg (s : State) (n : VReg) (v : VecWord) : (s.writeZmm n v).seg = s.seg := rfl
@[simp] theorem State.writeZmm_pc (s : State) (n : VReg) (v : VecWord) : (s.writeZmm n v).pc = s.pc := rfl
@[simp] theorem State.writeZmm_eflags (s : State) (n : VReg) (v : VecWord) : (s.writeZmm n v).eflags = s.eflags := rfl
@[simp] theorem State.writeZmm_cr0 (s : State) (n : VReg) (v : VecWord) : (s.writeZmm n v).cr0 = s.cr0 := rfl
@[simp] theorem State.writeZmm_cr2 (s : State) (n : VReg) (v : VecWord) : (s.writeZmm n v).cr2 = s.cr2 := rfl
@[simp] theorem State.writeZmm_cr4 (s : State) (n : VReg) (v : VecWord) : (s.writeZmm n v).cr4 = s.cr4 := rfl
@[simp] theorem State.writeZmm_xcr0 (s : State) (n : VReg) (v : VecWord) : (s.writeZmm n v).xcr0 = s.xcr0 := rfl
@[simp] theorem State.writeZmm_cpl (s : State) (n : VReg) (v : VecWord) : (s.writeZmm n v).cpl = s.cpl := rfl
@[simp] theorem State.writeZmm_x87cw (s : State) (n : VReg) (v : VecWord) : (s.writeZmm n v).x87cw = s.x87cw := rfl
@[simp] theorem State.writeZmm_x87sw (s : State) (n : VReg) (v : VecWord) : (s.writeZmm n v).x87sw = s.x87sw := rfl
@[simp] theorem State.writeZmm_mmx (s : State) (n : VReg) (v : VecWord) : (s.writeZmm n v).mmx = s.mmx := rfl
@[simp] theorem State.writeZmm_features (s : State) (n : VReg) (v : VecWord) : (s.writeZmm n v).features = s.features := rfl
@[simp] theorem State.writeZmm_params (s : State) (n : VReg) (v : VecWord) : (s.writeZmm n v).params = s.params := rfl
@[simp] theorem State.writeZmm_mem (s : State) (n : VReg) (v : VecWord) : (s.writeZmm n v).mem = s.mem := rfl
@[simp] theorem State.writeZmm_oracle (s : State) (n : VReg) (v : VecWord) : (s.writeZmm n v).oracle = s.oracle := rfl
@[simp] theorem State.writeZmm_draws (s : State) (n : VReg) (v : VecWord) : (s.writeZmm n v).draws = s.draws := rfl

@[simp] theorem State.drawFlags_mode (s : State) : (s.drawFlags).mode = s.mode := rfl
@[simp] theorem State.drawFlags_zmm (s : State) : (s.drawFlags).zmm = s.zmm := rfl
@[simp] theorem State.drawFlags_k (s : State) : (s.drawFlags).k = s.k := rfl
@[simp] theorem State.drawFlags_mxcsr (s : State) : (s.drawFlags).mxcsr = setFlags s.mxcsr (Config.freeFlag (2 * s.draws)) (Config.freeFlag (2 * s.draws + 1)) := rfl
@[simp] theorem State.drawFlags_gpr (s : State) : (s.drawFlags).gpr = s.gpr := rfl
@[simp] theorem State.drawFlags_seg (s : State) : (s.drawFlags).seg = s.seg := rfl
@[simp] theorem State.drawFlags_pc (s : State) : (s.drawFlags).pc = s.pc := rfl
@[simp] theorem State.drawFlags_eflags (s : State) : (s.drawFlags).eflags = s.eflags := rfl
@[simp] theorem State.drawFlags_cr0 (s : State) : (s.drawFlags).cr0 = s.cr0 := rfl
@[simp] theorem State.drawFlags_cr2 (s : State) : (s.drawFlags).cr2 = s.cr2 := rfl
@[simp] theorem State.drawFlags_cr4 (s : State) : (s.drawFlags).cr4 = s.cr4 := rfl
@[simp] theorem State.drawFlags_xcr0 (s : State) : (s.drawFlags).xcr0 = s.xcr0 := rfl
@[simp] theorem State.drawFlags_cpl (s : State) : (s.drawFlags).cpl = s.cpl := rfl
@[simp] theorem State.drawFlags_x87cw (s : State) : (s.drawFlags).x87cw = s.x87cw := rfl
@[simp] theorem State.drawFlags_x87sw (s : State) : (s.drawFlags).x87sw = s.x87sw := rfl
@[simp] theorem State.drawFlags_mmx (s : State) : (s.drawFlags).mmx = s.mmx := rfl
@[simp] theorem State.drawFlags_features (s : State) : (s.drawFlags).features = s.features := rfl
@[simp] theorem State.drawFlags_params (s : State) : (s.drawFlags).params = s.params := rfl
@[simp] theorem State.drawFlags_mem (s : State) : (s.drawFlags).mem = s.mem := rfl
@[simp] theorem State.drawFlags_oracle (s : State) : (s.drawFlags).oracle = s.oracle := rfl
@[simp] theorem State.drawFlags_draws (s : State) : (s.drawFlags).draws = s.draws + 1 := rfl

@[simp] theorem State.commit_mode (s : State) (d : VReg) (v : VecWord) (m : BitVec 32) (len : Nat) : (commit d v m len s).mode = s.mode := rfl
@[simp] theorem State.commit_zmm (s : State) (d : VReg) (v : VecWord) (m : BitVec 32) (len : Nat) : (commit d v m len s).zmm = s.zmm.set d v := rfl
@[simp] theorem State.commit_k (s : State) (d : VReg) (v : VecWord) (m : BitVec 32) (len : Nat) : (commit d v m len s).k = s.k := rfl
@[simp] theorem State.commit_mxcsr (s : State) (d : VReg) (v : VecWord) (m : BitVec 32) (len : Nat) : (commit d v m len s).mxcsr = m := rfl
@[simp] theorem State.commit_gpr (s : State) (d : VReg) (v : VecWord) (m : BitVec 32) (len : Nat) : (commit d v m len s).gpr = s.gpr := rfl
@[simp] theorem State.commit_seg (s : State) (d : VReg) (v : VecWord) (m : BitVec 32) (len : Nat) : (commit d v m len s).seg = s.seg := rfl
@[simp] theorem State.commit_pc (s : State) (d : VReg) (v : VecWord) (m : BitVec 32) (len : Nat) : (commit d v m len s).pc = s.nextPc len := rfl
@[simp] theorem State.commit_eflags (s : State) (d : VReg) (v : VecWord) (m : BitVec 32) (len : Nat) : (commit d v m len s).eflags = s.eflags := rfl
@[simp] theorem State.commit_cr0 (s : State) (d : VReg) (v : VecWord) (m : BitVec 32) (len : Nat) : (commit d v m len s).cr0 = s.cr0 := rfl
@[simp] theorem State.commit_cr2 (s : State) (d : VReg) (v : VecWord) (m : BitVec 32) (len : Nat) : (commit d v m len s).cr2 = s.cr2 := rfl
@[simp] theorem State.commit_cr4 (s : State) (d : VReg) (v : VecWord) (m : BitVec 32) (len : Nat) : (commit d v m len s).cr4 = s.cr4 := rfl
@[simp] theorem State.commit_xcr0 (s : State) (d : VReg) (v : VecWord) (m : BitVec 32) (len : Nat) : (commit d v m len s).xcr0 = s.xcr0 := rfl
@[simp] theorem State.commit_cpl (s : State) (d : VReg) (v : VecWord) (m : BitVec 32) (len : Nat) : (commit d v m len s).cpl = s.cpl := rfl
@[simp] theorem State.commit_x87cw (s : State) (d : VReg) (v : VecWord) (m : BitVec 32) (len : Nat) : (commit d v m len s).x87cw = s.x87cw := rfl
@[simp] theorem State.commit_x87sw (s : State) (d : VReg) (v : VecWord) (m : BitVec 32) (len : Nat) : (commit d v m len s).x87sw = s.x87sw := rfl
@[simp] theorem State.commit_mmx (s : State) (d : VReg) (v : VecWord) (m : BitVec 32) (len : Nat) : (commit d v m len s).mmx = s.mmx := rfl
@[simp] theorem State.commit_features (s : State) (d : VReg) (v : VecWord) (m : BitVec 32) (len : Nat) : (commit d v m len s).features = s.features := rfl
@[simp] theorem State.commit_params (s : State) (d : VReg) (v : VecWord) (m : BitVec 32) (len : Nat) : (commit d v m len s).params = s.params := rfl
@[simp] theorem State.commit_mem (s : State) (d : VReg) (v : VecWord) (m : BitVec 32) (len : Nat) : (commit d v m len s).mem = s.mem := rfl
@[simp] theorem State.commit_oracle (s : State) (d : VReg) (v : VecWord) (m : BitVec 32) (len : Nat) : (commit d v m len s).oracle = s.oracle := rfl
@[simp] theorem State.commit_draws (s : State) (d : VReg) (v : VecWord) (m : BitVec 32) (len : Nat) : (commit d v m len s).draws = s.draws := rfl

@[simp] theorem State.enableAll_mode (s : State) : (enableAll s).mode = .mode64 := rfl
@[simp] theorem State.enableAll_zmm (s : State) : (enableAll s).zmm = s.zmm := rfl
@[simp] theorem State.enableAll_k (s : State) : (enableAll s).k = s.k := rfl
@[simp] theorem State.enableAll_mxcsr (s : State) : (enableAll s).mxcsr = s.mxcsr := rfl
@[simp] theorem State.enableAll_gpr (s : State) : (enableAll s).gpr = s.gpr := rfl
@[simp] theorem State.enableAll_seg (s : State) : (enableAll s).seg = s.seg := rfl
@[simp] theorem State.enableAll_pc (s : State) : (enableAll s).pc = s.pc := rfl
@[simp] theorem State.enableAll_eflags (s : State) : (enableAll s).eflags = s.eflags &&& 0xFFFDFFFF#32 := rfl
@[simp] theorem State.enableAll_cr0 (s : State) : (enableAll s).cr0 = (s.cr0 &&& 0xFFFFFFF3#32) ||| 0x1#32 := rfl
@[simp] theorem State.enableAll_cr2 (s : State) : (enableAll s).cr2 = s.cr2 := rfl
@[simp] theorem State.enableAll_cr4 (s : State) : (enableAll s).cr4 = s.cr4 ||| 0x40600#32 := rfl
@[simp] theorem State.enableAll_xcr0 (s : State) : (enableAll s).xcr0 = 0xE7#8 := rfl
@[simp] theorem State.enableAll_cpl (s : State) : (enableAll s).cpl = s.cpl := rfl
@[simp] theorem State.enableAll_x87cw (s : State) : (enableAll s).x87cw = s.x87cw := rfl
@[simp] theorem State.enableAll_x87sw (s : State) : (enableAll s).x87sw = s.x87sw := rfl
@[simp] theorem State.enableAll_mmx (s : State) : (enableAll s).mmx = s.mmx := rfl
@[simp] theorem State.enableAll_features (s : State) : (enableAll s).features = s.features := rfl
@[simp] theorem State.enableAll_params (s : State) : (enableAll s).params = s.params := rfl
@[simp] theorem State.enableAll_mem (s : State) : (enableAll s).mem = s.mem := rfl
@[simp] theorem State.enableAll_oracle (s : State) : (enableAll s).oracle = s.oracle := rfl
@[simp] theorem State.enableAll_draws (s : State) : (enableAll s).draws = s.draws := rfl

/-! Placing code changes memory alone. -/

@[simp] theorem State.placeCode_mode (s : State) (o : Nat) (bs : List Byte) : (placeCode s o bs).mode = s.mode := by
  induction bs generalizing s o with
  | nil => rfl
  | cons b bs ih => simp [placeCode, ih]

@[simp] theorem State.placeCode_zmm (s : State) (o : Nat) (bs : List Byte) : (placeCode s o bs).zmm = s.zmm := by
  induction bs generalizing s o with
  | nil => rfl
  | cons b bs ih => simp [placeCode, ih]

@[simp] theorem State.placeCode_k (s : State) (o : Nat) (bs : List Byte) : (placeCode s o bs).k = s.k := by
  induction bs generalizing s o with
  | nil => rfl
  | cons b bs ih => simp [placeCode, ih]

@[simp] theorem State.placeCode_mxcsr (s : State) (o : Nat) (bs : List Byte) : (placeCode s o bs).mxcsr = s.mxcsr := by
  induction bs generalizing s o with
  | nil => rfl
  | cons b bs ih => simp [placeCode, ih]

@[simp] theorem State.placeCode_gpr (s : State) (o : Nat) (bs : List Byte) : (placeCode s o bs).gpr = s.gpr := by
  induction bs generalizing s o with
  | nil => rfl
  | cons b bs ih => simp [placeCode, ih]

@[simp] theorem State.placeCode_seg (s : State) (o : Nat) (bs : List Byte) : (placeCode s o bs).seg = s.seg := by
  induction bs generalizing s o with
  | nil => rfl
  | cons b bs ih => simp [placeCode, ih]

@[simp] theorem State.placeCode_pc (s : State) (o : Nat) (bs : List Byte) : (placeCode s o bs).pc = s.pc := by
  induction bs generalizing s o with
  | nil => rfl
  | cons b bs ih => simp [placeCode, ih]

@[simp] theorem State.placeCode_eflags (s : State) (o : Nat) (bs : List Byte) : (placeCode s o bs).eflags = s.eflags := by
  induction bs generalizing s o with
  | nil => rfl
  | cons b bs ih => simp [placeCode, ih]

@[simp] theorem State.placeCode_cr0 (s : State) (o : Nat) (bs : List Byte) : (placeCode s o bs).cr0 = s.cr0 := by
  induction bs generalizing s o with
  | nil => rfl
  | cons b bs ih => simp [placeCode, ih]

@[simp] theorem State.placeCode_cr2 (s : State) (o : Nat) (bs : List Byte) : (placeCode s o bs).cr2 = s.cr2 := by
  induction bs generalizing s o with
  | nil => rfl
  | cons b bs ih => simp [placeCode, ih]

@[simp] theorem State.placeCode_cr4 (s : State) (o : Nat) (bs : List Byte) : (placeCode s o bs).cr4 = s.cr4 := by
  induction bs generalizing s o with
  | nil => rfl
  | cons b bs ih => simp [placeCode, ih]

@[simp] theorem State.placeCode_xcr0 (s : State) (o : Nat) (bs : List Byte) : (placeCode s o bs).xcr0 = s.xcr0 := by
  induction bs generalizing s o with
  | nil => rfl
  | cons b bs ih => simp [placeCode, ih]

@[simp] theorem State.placeCode_cpl (s : State) (o : Nat) (bs : List Byte) : (placeCode s o bs).cpl = s.cpl := by
  induction bs generalizing s o with
  | nil => rfl
  | cons b bs ih => simp [placeCode, ih]

@[simp] theorem State.placeCode_x87cw (s : State) (o : Nat) (bs : List Byte) : (placeCode s o bs).x87cw = s.x87cw := by
  induction bs generalizing s o with
  | nil => rfl
  | cons b bs ih => simp [placeCode, ih]

@[simp] theorem State.placeCode_x87sw (s : State) (o : Nat) (bs : List Byte) : (placeCode s o bs).x87sw = s.x87sw := by
  induction bs generalizing s o with
  | nil => rfl
  | cons b bs ih => simp [placeCode, ih]

@[simp] theorem State.placeCode_mmx (s : State) (o : Nat) (bs : List Byte) : (placeCode s o bs).mmx = s.mmx := by
  induction bs generalizing s o with
  | nil => rfl
  | cons b bs ih => simp [placeCode, ih]

@[simp] theorem State.placeCode_features (s : State) (o : Nat) (bs : List Byte) : (placeCode s o bs).features = s.features := by
  induction bs generalizing s o with
  | nil => rfl
  | cons b bs ih => simp [placeCode, ih]

@[simp] theorem State.placeCode_params (s : State) (o : Nat) (bs : List Byte) : (placeCode s o bs).params = s.params := by
  induction bs generalizing s o with
  | nil => rfl
  | cons b bs ih => simp [placeCode, ih]

@[simp] theorem State.placeCode_oracle (s : State) (o : Nat) (bs : List Byte) : (placeCode s o bs).oracle = s.oracle := by
  induction bs generalizing s o with
  | nil => rfl
  | cons b bs ih => simp [placeCode, ih]

@[simp] theorem State.placeCode_draws (s : State) (o : Nat) (bs : List Byte) : (placeCode s o bs).draws = s.draws := by
  induction bs generalizing s o with
  | nil => rfl
  | cons b bs ih => simp [placeCode, ih]

end Sys2Proof.Machine
end

