-- ==== Sys2Proof/Laws/Flags.lean ====
section
/-! SUPPORT. The bits of MXCSR after its flags are set, and what the response to the conditions can be. -/

namespace Sys2Proof.Machine

/-- Every bit of MXCSR after setting flags. -/
theorem getLsbD_setFlags (m : BitVec 32) (ie pe : Bool) (b : Nat) :
    (setFlags m ie pe).getLsbD b = (m.getLsbD b || (decide (b = 0) && ie) || (decide (b = 5) && pe)) := by
  have h1 : (0x1#32).getLsbD b = decide (b = 0) := by
    rcases Nat.lt_or_ge b 32 with h | h
    · interval_cases b <;> rfl
    · rw [BitVec.getLsbD_of_ge _ _ h, decide_eq_false (by omega)]
  have h2 : (0x20#32).getLsbD b = decide (b = 5) := by
    rcases Nat.lt_or_ge b 32 with h | h
    · interval_cases b <;> rfl
    · rw [BitVec.getLsbD_of_ge _ _ h, decide_eq_false (by omega)]
  unfold setFlags
  cases ie <;> cases pe <;> simp [BitVec.getLsbD_or, h1, h2]

theorem mxIE_setFlags (m : BitVec 32) (ie pe : Bool) : mxIE (setFlags m ie pe) = (mxIE m || ie) := by
  unfold mxIE
  rw [getLsbD_setFlags]
  simp

theorem mxPE_setFlags (m : BitVec 32) (ie pe : Bool) : mxPE (setFlags m ie pe) = (mxPE m || pe) := by
  unfold mxPE
  rw [getLsbD_setFlags]
  simp

theorem getLsbD_setFlags_other (m : BitVec 32) (ie pe : Bool) (b : Nat) (h0 : b ≠ 0) (h5 : b ≠ 5) :
    (setFlags m ie pe).getLsbD b = m.getLsbD b := by
  rw [getLsbD_setFlags]
  simp [h0, h5]

@[simp] theorem setFlags_none (m : BitVec 32) : setFlags m false false = m := by simp [setFlags]

/-- Everything the response can do. -/
theorem respondFlags_cases (sae ie pe : Bool) (s : State) :
    (sae = true ∧ respondFlags sae ie pe s = .next s.mxcsr)
    ∨ (sae = false ∧ unmasked s.mxcsr ie pe = false ∧ respondFlags sae ie pe s = .next (setFlags s.mxcsr ie pe))
    ∨ (sae = false ∧ unmasked s.mxcsr ie pe = true ∧ s.osxmmexcpt = true
        ∧ respondFlags sae ie pe s = .fault (.xm s.drawFlags))
    ∨ (sae = false ∧ unmasked s.mxcsr ie pe = true ∧ s.osxmmexcpt = false
        ∧ respondFlags sae ie pe s = .fault (.ud s.drawFlags)) := by
  cases sae <;> cases hu : unmasked s.mxcsr ie pe <;> cases ho : s.osxmmexcpt <;>
    simp [respondFlags, raiseSimd, raise, hu, ho]

end Sys2Proof.Machine
end

