-- ==== Sys2Proof/Laws/Operands.lean ====
section
/-! SUPPORT. What a memory read can answer, and which bits it fills. -/

namespace Sys2Proof.Machine

/-- A gathered word holds at byte `o` the byte of memory at that offset. -/
theorem gatherBytes_byte (s : State) (addr : BitVec 64) :
    ∀ (offs : List Nat) (v : VecWord), gatherBytes s addr offs = some v → offs.Nodup →
      (∀ o ∈ offs, o < 64 → s.mem.get (byteAddr s addr o).toNat = some (v.extractLsb' (8 * o) 8))
      ∧ ∀ b, b / 8 ∉ offs → v.getLsbD b = false := by
  intro offs
  induction offs with
  | nil =>
    intro v h _
    obtain rfl : (0 : VecWord) = v := by simpa [gatherBytes] using h
    exact ⟨by simp, by simp⟩
  | cons o os ih =>
    intro v h hn
    obtain ⟨hno, hns⟩ := List.nodup_cons.1 hn
    unfold gatherBytes at h
    cases hb : s.mem.get (byteAddr s addr o).toNat with
    | none => simp [hb] at h
    | some y =>
      cases hg : gatherBytes s addr os with
      | none => simp [hb, hg] at h
      | some w =>
        obtain rfl : w ||| (y.setWidth 512 <<< (8 * o)) = v := by simpa [hb, hg] using h
        obtain ⟨h1, h2⟩ := ih w hg hns
        have hsh : ∀ b, (y.setWidth 512 <<< (8 * o) : VecWord).getLsbD b
            = (decide (b < 512) && decide (b / 8 = o) && y.getLsbD (b % 8)) := by
          intro b
          rw [BitVec.getLsbD_shiftLeft, BitVec.getLsbD_setWidth]
          by_cases e : b / 8 = o
          · have e1 : ¬ b < 8 * o := by omega
            have e2 : b - 8 * o = b % 8 := by omega
            have e3 : b % 8 < 512 := by omega
            simp [e, e1, e2, e3]
          · rcases Nat.lt_or_ge b (8 * o) with e1 | e1
            · simp [e, e1]
            · simp [e, BitVec.getLsbD_of_ge y (b - 8 * o) (by omega)]
        refine ⟨fun p hp hp64 => ?_, fun b hbo => ?_⟩
        · rcases List.mem_cons.1 hp with rfl | hp
          · rw [hb]
            congr 1
            apply BitVec.eq_of_getLsbD_eq
            intro i hi
            have e1 : (8 * p + i) / 8 = p := by omega
            have e2 : (8 * p + i) % 8 = i := by omega
            have e3 : 8 * p + i < 512 := by omega
            rw [BitVec.getLsbD_extractLsb', BitVec.getLsbD_or, hsh, h2 (8 * p + i) (by rwa [e1])]
            simp [hi, e1, e2, e3]
          · rw [h1 p hp hp64]
            congr 1
            apply BitVec.eq_of_getLsbD_eq
            intro i hi
            have e1 : (8 * p + i) / 8 = p := by omega
            have e2 : p ≠ o := fun e => hno (e ▸ hp)
            rw [BitVec.getLsbD_extractLsb', BitVec.getLsbD_extractLsb', BitVec.getLsbD_or, hsh]
            simp [hi, e1, e2]
        · have hb1 : b / 8 ≠ o := fun e => hbo (e ▸ List.mem_cons_self)
          rw [BitVec.getLsbD_or, hsh, h2 b fun e => hbo (List.mem_cons_of_mem _ e)]
          simp [hb1]

/-- A gather succeeds exactly when every byte is described. -/
theorem gatherBytes_isSome (s : State) (addr : BitVec 64) (offs : List Nat) :
    (gatherBytes s addr offs).isSome = true ↔ ∀ o ∈ offs, (s.mem.get (byteAddr s addr o).toNat).isSome = true := by
  induction offs with
  | nil => simp [gatherBytes]
  | cons o os ih =>
    unfold gatherBytes
    cases hb : s.mem.get (byteAddr s addr o).toNat <;> cases hg : gatherBytes s addr os <;>
      simp_all

/-- A search of the oracle finds nothing exactly when no region with a wanted answer covers an address. -/
theorem oracleHit_eq_none (s : State) (want : OracleAnswer → Bool) (addrs : List (BitVec 64)) :
    oracleHit s want addrs = none ↔
      ∀ r ∈ s.oracle, want r.answer = true → ∀ a ∈ addrs, r.covers a = false := by
  unfold oracleHit
  rw [List.findSome?_eq_none_iff]
  refine forall₂_congr fun r _ => ?_
  cases hw : want r.answer <;> simp

/-- The oracle raises no fault exactly when neither search finds one. -/
theorem oracleFault_eq_none (s : State) (addrs : List (BitVec 64)) :
    oracleFault s addrs = none ↔
      oracleHit s OracleAnswer.isSegment addrs = none ∧ oracleHit s (OracleAnswer.isPageFault s.cpl) addrs = none := by
  unfold oracleFault
  cases h1 : oracleHit s OracleAnswer.isSegment addrs with
  | some r =>
    obtain ⟨a, x⟩ := r
    cases a <;> simp
  | none =>
    cases h2 : oracleHit s (OracleAnswer.isPageFault s.cpl) addrs with
    | some r => simp
    | none => simp

/-- The fault an oracle answers with carries the state it is raised in. -/
theorem oracleFault_state {s : State} {addrs : List (BitVec 64)} {e : State → Fault} (h : oracleFault s addrs = some e) :
    (e s).state = s := by
  unfold oracleFault at h
  split at h
  · simp only [Option.some.injEq] at h
    subst h
    rfl
  · simp only [Option.some.injEq] at h
    subst h
    rfl
  · split at h
    · simp only [Option.some.injEq] at h
      subst h
      rfl
    · simp at h

theorem segmentFault_state (s : State) (g : SegReg) : (segmentFault s g s).state = s := by
  unfold segmentFault
  split <;> rfl

/-- When a memory read gives a value, and which. -/
theorem readMemory_eq_next (f : Form) (bcst : Bool) (g : SegReg) (ea : BitVec 64) (offs : List Nat) (s : State)
    (v : VecWord) :
    readMemory f bcst g ea offs s = .next v ↔
      segmentViolation s g ea (linearAddr s g ea) offs = false
      ∧ ¬ (f = .sse ∧ (linearAddr s g ea).toNat % 16 ≠ 0)
      ∧ oracleFault s (offs.map (byteAddr s (linearAddr s g ea))) = none
      ∧ oracleHit s OracleAnswer.isDevice (offs.map (byteAddr s (linearAddr s g ea))) = none
      ∧ ¬ (bcst = true ∧ s.amAc = true ∧ (linearAddr s g ea).toNat % 8 ≠ 0)
      ∧ gatherBytes s (linearAddr s g ea) offs = some v := by
  unfold readMemory raise
  simp only
  by_cases h2 : f = .sse ∧ (linearAddr s g ea).toNat % 16 ≠ 0
  case pos => simp [h2]
  case neg =>
    cases h1 : segmentViolation s g ea (linearAddr s g ea) offs
    case true => simp [h2]
    case false =>
      cases h3 : oracleFault s (offs.map (byteAddr s (linearAddr s g ea)))
      case some e => simp [h2]
      case none =>
        cases h4 : oracleHit s OracleAnswer.isDevice (offs.map (byteAddr s (linearAddr s g ea)))
        case some e => simp [h2]
        case none =>
          by_cases h5 : bcst = true ∧ s.amAc = true ∧ (linearAddr s g ea).toNat % 8 ≠ 0
          case pos => simp [h2, h5]
          case neg =>
            cases h6 : gatherBytes s (linearAddr s g ea) offs <;> simp [h2, h5]

/-- A fault of a memory read carries the state before it. -/
theorem readMemory_fault_state {f : Form} {bcst : Bool} {g : SegReg} {ea : BitVec 64} {offs : List Nat} {s : State}
    {e : Fault} (h : readMemory f bcst g ea offs s = .fault e) : e.state = s := by
  unfold readMemory raise at h
  simp only at h
  split at h
  · simp only [Host.Outcome.fault.injEq] at h
    exact h ▸ rfl
  · split at h
    · simp only [Host.Outcome.fault.injEq] at h
      exact h ▸ segmentFault_state s g
    · split at h
      · rename_i ho
        simp only [Host.Outcome.fault.injEq] at h
        exact h ▸ oracleFault_state ho
      · split at h
        · simp at h
        · split at h
          · simp at h
          · split at h <;> simp at h

/-- A fault of the source operand carries the state before it. -/
theorem readSource_fault_state {f : Form} {len : Nat} {p : Prefixes} {mk : Masking} {src : Source} {s : State} {e : Fault}
    (h : readSource f len p mk src s = .fault e) : e.state = s := by
  cases src with
  | reg r | regSae r => simp [readSource] at h
  | mem a | bcst a => exact readMemory_fault_state h

end Sys2Proof.Machine
end

