-- ==== Sys2Proof/Laws/Vectors.lean ====
section
/-! SUPPORT. Registers and the bit positions of vector elements. -/

namespace Sys2Proof.Machine

@[simp] theorem readZmm_writeZmm_same (s : State) (n : VReg) (v : VecWord) : (s.writeZmm n v).readZmm n = v := by
  simp [State.readZmm, State.writeZmm]

theorem readZmm_writeZmm_other (s : State) (n m : VReg) (v : VecWord) (h : m ≠ n) :
    (s.writeZmm n v).readZmm m = s.readZmm m := by
  have h' : n.val ≠ m.val := fun e => h (Fin.ext e.symm)
  simp [State.readZmm, State.writeZmm, h']

@[simp] theorem readZmm_commit_same (d : VReg) (v : VecWord) (m : BitVec 32) (len : Nat) (s : State) :
    (commit d v m len s).readZmm d = v := readZmm_writeZmm_same s d v

theorem readZmm_commit_other (d n : VReg) (v : VecWord) (m : BitVec 32) (len : Nat) (s : State) (h : n ≠ d) :
    (commit d v m len s).readZmm n = s.readZmm n := readZmm_writeZmm_other s d n v h

/-- Every bit of a packed word: element `b / 32`, bit `b % 32`, below `32 n`; zero above. -/
theorem getLsbD_packLow (n : Nat) (f : Nat → Dword) (b : Nat) (hb : b < 512) :
    (packLow n f).getLsbD b = (decide (b < 32 * n) && (f (b / 32)).getLsbD (b % 32)) := by
  induction n with
  | zero => simp [packLow]
  | succ n ih =>
    simp only [packLow, BitVec.getLsbD_or, ih, BitVec.getLsbD_shiftLeft, BitVec.getLsbD_setWidth]
    by_cases h : b < 32 * n
    · have h2 : b < 32 * (n + 1) := by omega
      simp [h, h2]
    · by_cases h3 : b < 32 * (n + 1)
      · have e1 : b / 32 = n := by omega
        have e2 : b % 32 = b - 32 * n := by omega
        have e3 : b - 32 * n < 512 := by omega
        simp [h, h3, e1, e2, hb, e3]
      · have : 32 ≤ b - 32 * n := by omega
        simp [h, h3, BitVec.getLsbD_of_ge (f n) (b - 32 * n) this]

/-- Element `j` of a packed word. -/
theorem elem32_packLow (n : Nat) (f : Nat → Dword) (j : Nat) (hj : j < n) (hn : n ≤ 16) : elem32 (packLow n f) j = f j := by
  apply BitVec.eq_of_getLsbD_eq
  intro i hi
  rw [elem32, BitVec.getLsbD_extractLsb', getLsbD_packLow _ _ _ (by omega)]
  have e1 : (32 * j + i) / 32 = j := by omega
  have e2 : (32 * j + i) % 32 = i := by omega
  have e3 : 32 * j + i < 32 * n := by omega
  simp [hi, e1, e2, e3]

/-- A packed word has no bit above its elements. -/
theorem getLsbD_packLow_above (n : Nat) (f : Nat → Dword) (b : Nat) (h : 32 * n ≤ b) : (packLow n f).getLsbD b = false := by
  by_cases hb : b < 512
  · rw [getLsbD_packLow _ _ _ hb]
    simp [Nat.not_lt.2 h]
  · exact BitVec.getLsbD_of_ge _ _ (by omega)

/-- Packing depends only on the elements packed. -/
theorem packLow_congr (n : Nat) (f g : Nat → Dword) (h : ∀ j, j < n → f j = g j) : packLow n f = packLow n g := by
  induction n with
  | zero => rfl
  | succ n ih => rw [packLow, packLow, ih fun j hj => h j (by omega), h n (by omega)]

/-- Element `j` of the low `n` bits, when it lies within them. -/
theorem elem64_lowBits (n : Nat) (v : VecWord) (j : Nat) (h : 64 * (j + 1) ≤ n) : elem64 (lowBits n v) j = elem64 v j := by
  apply BitVec.eq_of_getLsbD_eq
  intro i hi
  have h1 : 64 * j + i < n := by omega
  simp only [elem64, lowBits, BitVec.getLsbD_extractLsb', BitVec.getLsbD_setWidth, hi, h1, decide_true, Bool.true_and]
  by_cases h2 : 64 * j + i < 512
  · simp [h2]
  · simp [BitVec.getLsbD_of_ge v (64 * j + i) (by omega)]

/-- The elements of a form lie within its source width. -/
theorem elem_within (f : Form) (j : Nat) (h : j < f.kl) : 64 * (j + 1) ≤ f.vl := by
  cases f <;> simp only [Form.kl, Form.vl] at * <;> omega

/-- The results of every form fit in a vector register. -/
theorem kl_le (f : Form) : f.kl ≤ 8 := by cases f <;> decide

theorem elem32_or (a b : VecWord) (j : Nat) : elem32 (a ||| b) j = elem32 a j ||| elem32 b j := by
  simp [elem32, BitVec.extractLsb'_or]

/-- Element `j` of a new destination value. -/
theorem elem32_destValue (f : Form) (d : VReg) (mk : Masking) (src : Source) (v : VecWord) (s : State) (j : Nat)
    (hj : j < f.kl) : elem32 (destValue f d mk src v s) j = destElem d mk src v s j := by
  have hk := kl_le f
  have hp := elem32_packLow f.kl (destElem d mk src v s) j hj (by omega)
  cases f with
  | sse =>
    show elem32 (_ ||| packLow 2 _) j = _
    rw [elem32_or, show packLow 2 (destElem d mk src v s) = packLow Form.sse.kl _ from rfl, hp]
    have h0 : elem32 (s.readZmm d >>> 128 <<< 128) j = 0#32 := by
      apply BitVec.eq_of_getLsbD_eq
      intro i hi
      have : 32 * j + i < 128 := by simp only [Form.kl] at hj; omega
      simp [elem32, this]
    rw [h0, BitVec.zero_or]
  | vex128 | vex256 | evex128 | evex256 | evex512 => exact hp

/-- The bits above the results: kept from 128 up by F-SSE, zero otherwise. -/
theorem getLsbD_destValue_above (f : Form) (d : VReg) (mk : Masking) (src : Source) (v : VecWord) (s : State) (b : Nat)
    (h : 32 * f.kl ≤ b) :
    (destValue f d mk src v s).getLsbD b = (decide (f = .sse ∧ 128 ≤ b) && (s.readZmm d).getLsbD b) := by
  have hp := getLsbD_packLow_above f.kl (destElem d mk src v s) b h
  cases f with
  | sse =>
    show (_ ||| packLow Form.sse.kl _).getLsbD b = _
    rw [BitVec.getLsbD_or, hp, Bool.or_false, BitVec.getLsbD_shiftLeft, BitVec.getLsbD_ushiftRight]
    by_cases h1 : 128 ≤ b
    · by_cases h2 : b < 512
      · have e : 128 + (b - 128) = b := by omega
        simp [h1, h2, Nat.not_lt.2 h1, e]
      · simp [h2, BitVec.getLsbD_of_ge (s.readZmm d) b (by omega)]
    · simp [h1, Nat.not_le.1 h1]
  | vex128 | vex256 | evex128 | evex256 | evex512 =>
    rw [decide_eq_false (by simp), Bool.false_and]
    exact hp

end Sys2Proof.Machine
end

