-- ==== Sys2Proof/Laws/Skeleton.lean ====
section
/-! SUPPORT. Everything the common skeleton can do, said once. -/

namespace Sys2Proof.Machine

@[simp] theorem Result.bind_next {α β : Type} (a : α) (f : α → Result β) : Result.bind (.next a) f = f a := rfl
@[simp] theorem Result.bind_fault {α β : Type} (e : Fault) (f : α → Result β) : Result.bind (.fault e) f = .fault e := rfl
@[simp] theorem Result.bind_refused {α β : Type} (e : Refusal) (f : α → Result β) :
    Result.bind (.refused e) f = .refused e := rfl

theorem Result.bind_eq_next {α β : Type} {r : Result α} {f : α → Result β} {b : β} :
    Result.bind r f = .next b ↔ ∃ a, r = .next a ∧ f a = .next b := by
  cases r <;> simp

theorem Result.bind_eq_fault {α β : Type} {r : Result α} {f : α → Result β} {e : Fault} :
    Result.bind r f = .fault e ↔ r = .fault e ∨ ∃ a, r = .next a ∧ f a = .fault e := by
  cases r <;> simp

/-- When the skeleton gives a next state, and which. -/
theorem convert_eq_next (f : Form) (len : Nat) (p : Prefixes) (d : VReg) (mk : Masking) (src : Source) (s t : State) :
    convert f len p d mk src s = .next t ↔
      s.enabled f = true ∧ s.ts = false
      ∧ ∃ v m, readSource f len p mk src s = .next v
        ∧ respondFlags src.sae (anyInvalid f mk src v s) (anyInexact f mk src v s) s = .next m
        ∧ t = commit d (destValue f d mk src v s) m len s := by
  unfold convert raise
  cases h1 : s.enabled f <;> cases h2 : s.ts <;> simp [Result.bind_eq_next, @eq_comm _ t]

/-- A completing response leaves MXCSR with at most IE and PE raised. -/
theorem respondFlags_next {sae ie pe : Bool} {s : State} {m : BitVec 32} (h : respondFlags sae ie pe s = .next m) :
    ∃ a b, m = setFlags s.mxcsr a b := by
  rcases respondFlags_cases sae ie pe s with ⟨_, e⟩ | ⟨_, _, e⟩ | ⟨_, _, _, e⟩ | ⟨_, _, _, e⟩
  · exact ⟨false, false, by simpa [e, eq_comm] using h⟩
  · exact ⟨ie, pe, by simpa [e, eq_comm] using h⟩
  · simp [e] at h
  · simp [e] at h

/-- A fault of the skeleton carries the state before it, or that state with flags drawn after an unmasked condition. -/
theorem convert_fault_state {f : Form} {len : Nat} {p : Prefixes} {d : VReg} {mk : Masking} {src : Source} {s : State}
    {e : Fault} (h : convert f len p d mk src s = .fault e) :
    e.state = s ∨ (e = .xm s.drawFlags ∧ s.osxmmexcpt = true) ∨ (e = .ud s.drawFlags ∧ s.osxmmexcpt = false) := by
  unfold convert raise at h
  split at h
  · simp only [Host.Outcome.fault.injEq] at h
    exact .inl (h ▸ rfl)
  · split at h
    · simp only [Host.Outcome.fault.injEq] at h
      exact .inl (h ▸ rfl)
    · rcases Result.bind_eq_fault.1 h with h | ⟨v, -, h⟩
      · exact .inl (readSource_fault_state h)
      · rcases Result.bind_eq_fault.1 h with h | ⟨m, -, h⟩
        · rcases respondFlags_cases src.sae (anyInvalid f mk src v s) (anyInexact f mk src v s) s with
            ⟨_, e1⟩ | ⟨_, _, e1⟩ | ⟨_, _, ho, e1⟩ | ⟨_, _, ho, e1⟩
          · simp [e1] at h
          · simp [e1] at h
          · exact .inr (.inl ⟨by simpa [e1, eq_comm] using h, ho⟩)
          · exact .inr (.inr ⟨by simpa [e1, eq_comm] using h, ho⟩)
        · simp at h

/-- Every instruction runs the skeleton on its own fields. -/
theorem exec_eq_convert (i : Instr) (s : State) :
    exec i s = convert i.fields.form i.length i.fields.pre i.fields.dst i.fields.mask (sourceOf i) s := by
  cases i <;> rfl

end Sys2Proof.Machine
end

