-- ==== Sys2Proof/Laws/Fetch.lean ====
section
/-! SUPPORT. What a step can do, in terms of the decoder and of exec. -/

namespace Sys2Proof.Machine

/-- The fetch gives an instruction exactly when the decoder does. -/
theorem fetchDecode_eq_next (s : State) (i : Instr) :
    fetchDecode s = .next i ↔ ∃ rest, decode (decodeEnv s) (codeBytes s) = .ok (i, rest) := by
  unfold fetchDecode
  cases h : decode (decodeEnv s) (codeBytes s) with
  | ok r => obtain ⟨j, rest⟩ := r; simp
  | error e => cases e <;> simp [rejectDecode, raise]

/-- A rejection that is a fault carries the state before it. -/
theorem fetchDecode_fault_state {s : State} {e : Fault} (h : fetchDecode s = .fault e) : e.state = s := by
  unfold fetchDecode at h
  split at h
  · simp at h
  · rename_i err _
    cases err <;> simp only [rejectDecode, raise, Host.Outcome.fault.injEq, reduceCtorEq] at h
    · exact h ▸ rfl
    · exact h ▸ rfl

/-- When a step gives a next state. -/
theorem step_eq_next (s t : State) :
    step s = .next t ↔ ∃ i rest, decode (decodeEnv s) (codeBytes s) = .ok (i, rest) ∧ exec i s = .next t := by
  unfold step
  rw [Result.bind_eq_next]
  simp only [fetchDecode_eq_next]
  constructor
  · rintro ⟨i, ⟨rest, h⟩, h'⟩
    exact ⟨i, rest, h, h'⟩
  · rintro ⟨i, rest, h, h'⟩
    exact ⟨i, ⟨rest, h⟩, h'⟩

/-- The fetch offers the decoder at most the asked number of bytes. -/
theorem length_codeBytesFrom (s : State) (n o : Nat) : (codeBytesFrom s n o).length ≤ n := by
  induction n generalizing o with
  | zero => simp [codeBytesFrom]
  | succ n ih =>
    unfold codeBytesFrom
    split
    · simpa using ih (o + 1)
    · simp

theorem length_codeBytes (s : State) : (codeBytes s).length ≤ 15 := length_codeBytesFrom s 15 0

end Sys2Proof.Machine
end

