-- ==== Sys2Proof/Laws/Memory.lean ====
section
/-! SUPPORT. The laws of memory: read after write, and that writes keep the canonical form. -/

namespace Sys2Proof.Machine

theorem Memory.get_set_same (m : Memory) (x : Nat) (v : Byte) : (m.set x v).get x = some v := by
  induction m with
  | nil => simp [Memory.set, Memory.get]
  | cons c m ih =>
    obtain ⟨a, b⟩ := c
    unfold Memory.set
    split
    · simp [Memory.get]
    · split
      · simp [Memory.get]
      · rename_i h
        simp [Memory.get, ih, Ne.symm h]

theorem Memory.get_set_other (m : Memory) (x y : Nat) (v : Byte) (h : y ≠ x) : (m.set x v).get y = m.get y := by
  induction m with
  | nil => simp [Memory.set, Memory.get, h.symm]
  | cons c m ih =>
    obtain ⟨a, b⟩ := c
    unfold Memory.set
    split
    · simp [Memory.get, h.symm]
    · split
      · rename_i e
        subst e
        simp [Memory.get, h.symm]
      · simp [Memory.get, ih]

/-- The addresses after a write are the old ones and the new one. -/
theorem Memory.mem_set {m : Memory} {x : Nat} {v : Byte} {c : Host.Cell} (h : c ∈ m.set x v) : c = (x, v) ∨ c ∈ m := by
  induction m with
  | nil => simpa [Memory.set] using h
  | cons e m ih =>
    obtain ⟨a, b⟩ := e
    unfold Memory.set at h
    split at h
    · simpa using h
    · split at h
      · rcases List.mem_cons.1 h with h | h
        · exact .inl h
        · exact .inr (List.mem_cons_of_mem _ h)
      · rcases List.mem_cons.1 h with h | h
        · exact .inr (h ▸ List.mem_cons_self)
        · exact (ih h).imp id (List.mem_cons_of_mem _)

/-- A write within the address space keeps the canonical form. -/
theorem Memory.set_wf {m : Memory} {x : Nat} {v : Byte} (hm : m.wf) (hx : x < 2 ^ 64) : (m.set x v).wf := by
  refine ⟨?_, fun c hc => ?_⟩
  · have hp := hm.1
    clear hm hx
    induction m with
    | nil => simp [Memory.set]
    | cons e m ih =>
      obtain ⟨a, b⟩ := e
      rw [List.map_cons, List.pairwise_cons] at hp
      unfold Memory.set
      split
      · rename_i hlt
        rw [List.map_cons, List.pairwise_cons, List.map_cons, List.pairwise_cons]
        refine ⟨fun y hy => ?_, hp⟩
        rcases List.mem_cons.1 hy with h | h
        · exact h ▸ hlt
        · exact lt_trans hlt (hp.1 y h)
      · split
        · rename_i e
          subst e
          simpa using hp
        · rename_i h1 h2
          rw [List.map_cons, List.pairwise_cons]
          refine ⟨fun y hy => ?_, ih hp.2⟩
          obtain ⟨c, hc, rfl⟩ := List.mem_map.1 hy
          rcases Memory.mem_set hc with rfl | hc
          · show a < x
            omega
          · exact hp.1 _ (List.mem_map_of_mem hc)
  · rcases Memory.mem_set hc with rfl | hc
    · exact hx
    · exact hm.2 c hc

/-- Placing code keeps the canonical form. -/
theorem placeCode_wf {s : State} (o : Nat) (bs : List Byte) (h : s.mem.wf) : (placeCode s o bs).mem.wf := by
  induction bs generalizing s o with
  | nil => exact h
  | cons b bs ih => exact ih (o + 1) (Memory.set_wf h (codeAddr s o).isLt)

theorem reset_mem_wf : State.reset.mem.wf := by simp [State.reset, Memory.wf]

end Sys2Proof.Machine
end

