-- ==== Sys2Proof/Laws/PerInstr.lean ====
section
/-! SUPPORT. Facts about every instruction as syntax, one lemma per constructor (LAWS.json). -/

namespace Sys2Proof.Laws

/-- The fields of an instruction name it: its row and all its operands. -/
def FieldsRoundTrip.Statement (i : Instr) : Prop := i.fields.toInstr = i

/-- The shape, the form and the masking of an instruction's fields go together. -/
def FieldsCoherent.Statement (i : Instr) : Prop := i.fields.coherent

theorem FieldsRoundTrip.sse (n : Nat) (p : Prefixes) (d : VReg) (o : Operand) : Statement (.sse n p d o) := rfl
theorem FieldsRoundTrip.sseRex (n : Nat) (p : Prefixes) (d : VReg) (o : Operand) : Statement (.sseRex n p d o) := rfl
theorem FieldsRoundTrip.vex128c5 (p : Prefixes) (d : VReg) (o : Operand) : Statement (.vex128c5 p d o) := rfl
theorem FieldsRoundTrip.vex128c4 (p : Prefixes) (d : VReg) (o : Operand) : Statement (.vex128c4 p d o) := rfl
theorem FieldsRoundTrip.vex256c5 (p : Prefixes) (d : VReg) (o : Operand) : Statement (.vex256c5 p d o) := rfl
theorem FieldsRoundTrip.vex256c4 (p : Prefixes) (d : VReg) (o : Operand) : Statement (.vex256c4 p d o) := rfl
theorem FieldsRoundTrip.evex128 (p : Prefixes) (d : VReg) (m : Masking) (o : Operand) : Statement (.evex128 p d m o) := rfl
theorem FieldsRoundTrip.evex128b (p : Prefixes) (d : VReg) (m : Masking) (a : Address) : Statement (.evex128b p d m a) := rfl
theorem FieldsRoundTrip.evex256 (p : Prefixes) (d : VReg) (m : Masking) (o : Operand) : Statement (.evex256 p d m o) := rfl
theorem FieldsRoundTrip.evex256b (p : Prefixes) (d : VReg) (m : Masking) (a : Address) : Statement (.evex256b p d m a) := rfl
theorem FieldsRoundTrip.evex512 (p : Prefixes) (d : VReg) (m : Masking) (o : Operand) : Statement (.evex512 p d m o) := rfl
theorem FieldsRoundTrip.evex512b (p : Prefixes) (d : VReg) (m : Masking) (o : Operand) : Statement (.evex512b p d m o) := rfl

theorem FieldsCoherent.sse (n : Nat) (p : Prefixes) (d : VReg) (o : Operand) : Statement (.sse n p d o) := ⟨rfl, rfl, rfl⟩
theorem FieldsCoherent.sseRex (n : Nat) (p : Prefixes) (d : VReg) (o : Operand) : Statement (.sseRex n p d o) := ⟨rfl, rfl, rfl⟩
theorem FieldsCoherent.vex128c5 (p : Prefixes) (d : VReg) (o : Operand) : Statement (.vex128c5 p d o) := ⟨.inl rfl, rfl, rfl, rfl⟩
theorem FieldsCoherent.vex128c4 (p : Prefixes) (d : VReg) (o : Operand) : Statement (.vex128c4 p d o) := ⟨.inl rfl, rfl, rfl, rfl⟩
theorem FieldsCoherent.vex256c5 (p : Prefixes) (d : VReg) (o : Operand) : Statement (.vex256c5 p d o) := ⟨.inr rfl, rfl, rfl, rfl⟩
theorem FieldsCoherent.vex256c4 (p : Prefixes) (d : VReg) (o : Operand) : Statement (.vex256c4 p d o) := ⟨.inr rfl, rfl, rfl, rfl⟩
theorem FieldsCoherent.evex128 (p : Prefixes) (d : VReg) (m : Masking) (o : Operand) : Statement (.evex128 p d m o) := ⟨.inl rfl, rfl, fun h _ => Bool.noConfusion h⟩
theorem FieldsCoherent.evex128b (p : Prefixes) (d : VReg) (m : Masking) (a : Address) : Statement (.evex128b p d m a) := ⟨.inl rfl, rfl, fun _ _ => rfl⟩
theorem FieldsCoherent.evex256 (p : Prefixes) (d : VReg) (m : Masking) (o : Operand) : Statement (.evex256 p d m o) := ⟨.inr (.inl rfl), rfl, fun h _ => Bool.noConfusion h⟩
theorem FieldsCoherent.evex256b (p : Prefixes) (d : VReg) (m : Masking) (a : Address) : Statement (.evex256b p d m a) := ⟨.inr (.inl rfl), rfl, fun _ _ => rfl⟩
theorem FieldsCoherent.evex512 (p : Prefixes) (d : VReg) (m : Masking) (o : Operand) : Statement (.evex512 p d m o) := ⟨.inr (.inr rfl), rfl, fun _ h => absurd rfl h⟩
theorem FieldsCoherent.evex512b (p : Prefixes) (d : VReg) (m : Masking) (o : Operand) : Statement (.evex512b p d m o) := ⟨.inr (.inr rfl), rfl, fun _ h => absurd rfl h⟩

end Sys2Proof.Laws
end

