-- ==== Sys2Proof/Laws/Prefixes.lean ====
section
/-! SUPPORT. How the decoder reads prefixes in any order and the heads of Safety.lean, and what a step does with its answer. -/

namespace Sys2Proof

open Sys2Proof.Machine

/-! ### Legacy prefixes in any order -/

/-- What is recorded of a list of legacy prefixes. -/
def Scan.after (sc : Scan) (pre : List Byte) : Scan :=
  { n66 := sc.n66 + pre.count 0x66#8
    segs := sc.segs ++ pre.filterMap segOfByte
    n67 := sc.n67 + pre.count 0x67#8
    lock := sc.lock || decide (0xF0#8 ∈ pre)
    rep := sc.rep || decide (0xF2#8 ∈ pre ∨ 0xF3#8 ∈ pre) }

/-- One legacy prefix is recorded. -/
theorem note_legacy (sc : Scan) (b : Byte) (h : isLegacyPrefix b = true) : sc.note b = some (sc.after [b]) := by
  simp only [isLegacyPrefix, List.mem_cons, List.not_mem_nil, or_false, decide_eq_true_eq] at h
  rcases h with rfl | rfl | rfl | rfl | rfl | rfl | rfl | rfl | rfl | rfl | rfl <;>
    simp [Scan.note, Scan.after, segOfByte]

theorem after_append (sc : Scan) (xs ys : List Byte) : (sc.after xs).after ys = sc.after (xs ++ ys) := by
  simp [Scan.after, List.count_append, Nat.add_assoc, Bool.or_assoc, List.filterMap_append]
  grind

/-- The scan consumes legacy prefixes and records them. -/
theorem scanPrefixes_legacy (pre : List Byte) (h : ∀ b ∈ pre, isLegacyPrefix b = true) (sc : Scan) (tl : List Byte) :
    scanPrefixes sc (pre ++ tl) = scanPrefixes (sc.after pre) tl := by
  induction pre generalizing sc with
  | nil => simp [Scan.after]
  | cons b pre ih =>
    rw [List.cons_append, scanPrefixes, note_legacy sc b (h b List.mem_cons_self)]
    simp only
    rw [ih fun c hc => h c (List.mem_cons_of_mem _ hc), after_append, List.singleton_append]

/-- Only the order of the segment overrides is recorded of the order of prefixes. -/
theorem after_perm {pre pre' : List Byte} (h : pre.Perm pre') (sc : Scan) :
    sc.after pre' = { sc.after pre with segs := sc.segs ++ pre'.filterMap segOfByte } := by
  simp [Scan.after, h.count_eq, h.mem_iff]

/-- The segment overrides recorded. -/
theorem length_segs (pre : List Byte) : (pre.filterMap segOfByte).length = pre.countP isSegOverride := by
  induction pre with
  | nil => rfl
  | cons b pre ih =>
    have h : ∀ b : Byte, (segOfByte b).isSome = isSegOverride b := by decide
    have hb := h b
    cases hs : segOfByte b with
    | none => simp [hs] at hb; simp [hs, ih, ← hb]
    | some g => simp [hs] at hb; simp [hs, ih, ← hb]

/-! ### The heads -/

theorem prefixHolds_iff (m : Mode) (p : Byte) : prefixHolds m p = true ↔ prefixAllowed m p := by
  cases m <;> simp [prefixHolds, prefixAllowed]

theorem parseHead_sse (m : Mode) (tl : List Byte) : parseHead m (0x0F#8 :: 0xE6#8 :: tl) = .ok (.legacy, tl) := rfl

theorem parseHead_vex2 {m : Mode} {P : Byte} (h : prefixAllowed m P) (hp : P.extractLsb' 0 2 = 1#2) (tl : List Byte) :
    parseHead m (0xC5#8 :: P :: 0xE6#8 :: tl) = .ok (.vex2 P, tl) := by
  simp [parseHead, vex2Head, expectOpcode, (prefixHolds_iff m P).2 h, hp]

theorem parseHead_vex3 {m : Mode} {P0 P1 : Byte} (h : prefixAllowed m P0) (hm : P0.extractLsb' 0 5 = 1#5)
    (hp : P1.extractLsb' 0 2 = 1#2) (tl : List Byte) :
    parseHead m (0xC4#8 :: P0 :: P1 :: 0xE6#8 :: tl) = .ok (.vex3 P0 P1, tl) := by
  simp [parseHead, vex3Head, expectOpcode, (prefixHolds_iff m P0).2 h, hm, hp]

theorem parseHead_evex {m : Mode} {P0 P1 : Byte} (P2 : Byte) (h : prefixAllowed m P0) (hm : P0.extractLsb' 0 2 = 1#2)
    (hp : P1.extractLsb' 0 2 = 1#2) (tl : List Byte) :
    parseHead m (0x62#8 :: P0 :: P1 :: P2 :: 0xE6#8 :: tl) = .ok (.evex P0 P1 P2, tl) := by
  simp [parseHead, evexHead, expectOpcode, (prefixHolds_iff m P0).2 h, hm, hp]

/-- A REX prefix is taken, if there is one, before a byte that begins a head. -/
theorem takeRex_rexBytes {m : Mode} {rex : List Byte} (hr : RexBytes m rex) {b : Byte}
    (hb : b ∈ [0x0F#8, 0xC5#8, 0xC4#8, 0x62#8]) (tl : List Byte) :
    takeRex m (rex ++ b :: tl) = (rex.head?, b :: tl) := by
  have hb4 : b.extractLsb' 4 4 ≠ 4#4 := by
    simp only [List.mem_cons, List.not_mem_nil, or_false] at hb
    rcases hb with rfl | rfl | rfl | rfl <;> decide
  rcases hr with rfl | ⟨r, h4, rfl, rfl⟩
  · cases m <;> simp [takeRex, hb4]
  · simp [takeRex, h4]

/-- The whole of `parse`, once the head is known: what follows the head decides. -/
theorem parse_of_head {m : Mode} {pre rex tl tail : List Byte} {b : Byte} {h : Head}
    (hp : ∀ c ∈ pre, isLegacyPrefix c = true) (hr : RexBytes m rex) (hb : b ∈ [0x0F#8, 0xC5#8, 0xC4#8, 0x62#8])
    (hh : parseHead m (b :: tl) = .ok (h, tail)) :
    parse m (pre ++ (rex ++ b :: tl))
      = match headRejects (Scan.start.after pre) rex.head? h with
        | some e => .error e
        | none =>
          match parseOperand (shortAddress m pre) tail with
          | .error e => .error e
          | .ok (rg, raw, r) => .ok (⟨Scan.start.after pre, rex.head?, h, rg, raw⟩, r) := by
  have hs : scanPrefixes Scan.start (pre ++ (rex ++ b :: tl)) = (Scan.start.after pre, rex ++ b :: tl) := by
    rw [scanPrefixes_legacy pre hp]
    rcases hr with rfl | ⟨r, h4, -, rfl⟩
    · exact scanPrefixes_stop _ _ _ (note_head b hb _)
    · exact scanPrefixes_stop _ _ _ (note_rex r h4 _)
  have h67 : ((Scan.start.after pre).n67 != 0) = decide (0x67#8 ∈ pre) := by
    rw [Bool.eq_iff_iff]
    simp [Scan.after, Scan.start, List.count_eq_zero]
  simp only [parse, hs, takeRex_rexBytes hr hb, hh, h67, shortAddress] <;> rfl

/-! ### The step on bytes -/

/-- A step on bytes that the decoder rejects. -/
theorem step_of_error {s : State} {e : DecodeError} (h : decode (decodeEnv s) (codeBytes s) = .error e) :
    step s = rejectDecode s e := by
  simp only [step, fetchDecode, h]
  cases e <;> rfl

/-- A step on bytes that decode. -/
theorem step_of_ok {s : State} {i : Instr} {rest : List Byte} (h : decode (decodeEnv s) (codeBytes s) = .ok (i, rest)) :
    step s = exec i s := by
  simp [step, fetchDecode, h, Result.bind]

/-! ### Sound bytes, and bytes that are `#UD` -/

/-- Prefixes among the segment overrides, 66H and 67H. -/
theorem legacy_of_sound {pre : List Byte} (h : ∀ b ∈ pre, isSegOverride b = true ∨ b = 0x66#8 ∨ b = 0x67#8) :
    (∀ b ∈ pre, isLegacyPrefix b = true) ∧ 0xF0#8 ∉ pre ∧ 0xF2#8 ∉ pre ∧ 0xF3#8 ∉ pre := by
  refine ⟨fun b hb => ?_, fun hb => ?_, fun hb => ?_, fun hb => ?_⟩
  · have : ∀ b : Byte, isSegOverride b = true ∨ b = 0x66#8 ∨ b = 0x67#8 → isLegacyPrefix b = true := by decide
    exact this b (h b hb)
  all_goals exact absurd (h _ hb) (by decide)

theorem repeated_iff (pre : List Byte) :
    (decide ((Scan.start.after pre).segs.length > 1) || decide ((Scan.start.after pre).n67 > 1)) = true
      ↔ Repeated pre := by
  simp [Scan.after, Scan.start, length_segs, Repeated]

/-- The operand is a suffix's worth of bytes: what follows it is no longer than what was given. -/
theorem length_parseOperand {short : Bool} {tl r : List Byte} {rg : BitVec 3} {raw : RawOperand}
    (h : parseOperand short tl = .ok (rg, raw, r)) : r.length ≤ tl.length := by
  have hd4 : ∀ {bs : List Byte} {w r}, takeDisp32 bs = .ok (w, r) → r.length ≤ bs.length := by
    intro bs w r h
    match bs, h with
    | b0 :: b1 :: b2 :: b3 :: tl, h =>
      simp only [takeDisp32, Except.ok.injEq, Prod.mk.injEq] at h
      rw [← h.2]
      simp
      omega
  have hd : ∀ {md} {bs : List Byte} {d r}, takeDisp md bs = .ok (d, r) → r.length ≤ bs.length := by
    intro md bs d r h
    unfold takeDisp at h
    split at h
    · simp only [Except.ok.injEq, Prod.mk.injEq] at h
      rw [h.2]
    · split at h
      · split at h
        · simp only [Except.ok.injEq, Prod.mk.injEq] at h
          rw [← h.2]
          simp
        · simp at h
      · split at h
        · rename_i h'
          simp only [Except.ok.injEq, Prod.mk.injEq] at h
          rw [← h.2]
          exact hd4 h'
        · simp at h
  have hk : ∀ {n} {bs r : List Byte}, skipBytes n bs = .ok r → r.length ≤ bs.length := by
    intro n
    induction n with
    | zero => intro bs r h; simp only [skipBytes, Except.ok.injEq] at h; rw [h]
    | succ n ih =>
      intro bs r h
      cases bs with
      | nil => simp [skipBytes] at h
      | cons b tl => exact (ih h).trans (by simp)
  cases short with
  | true =>
    simp only [parseOperand, if_true] at h
    cases tl with
    | nil => simp [parseModRM16] at h
    | cons b tl =>
      simp only [parseModRM16] at h
      split at h
      · simp only [Except.ok.injEq, Prod.mk.injEq] at h
        rw [← h.2.2]
        simp
      · split at h
        · rename_i h'
          simp only [Except.ok.injEq, Prod.mk.injEq] at h
          rw [← h.2.2]
          exact (hk h').trans (by simp)
        · simp at h
  | false =>
    simp only [parseOperand, Bool.false_eq_true, if_false] at h
    cases tl with
    | nil => simp [parseModRM] at h
    | cons b tl =>
      simp only [parseModRM] at h
      split at h
      · simp only [Except.ok.injEq, Prod.mk.injEq] at h
        rw [← h.2.2]
        simp
      · split at h
        · split at h
          · rename_i h'
            simp only [Except.ok.injEq, Prod.mk.injEq] at h
            rw [← h.2.2]
            cases tl with
            | nil => simp [parseSib] at h'
            | cons sb tl =>
              simp only [parseSib] at h'
              split at h'
              · split at h'
                · rename_i h2
                  simp only [Except.ok.injEq, Prod.mk.injEq] at h'
                  rw [← h'.2]
                  exact (hd4 h2).trans (by simp; omega)
                · simp at h'
              · split at h'
                · rename_i h2
                  simp only [Except.ok.injEq, Prod.mk.injEq] at h'
                  rw [← h'.2]
                  exact (hd h2).trans (by simp; omega)
                · simp at h'
          · simp at h
        · split at h
          · split at h
            · rename_i h'
              simp only [Except.ok.injEq, Prod.mk.injEq] at h
              rw [← h.2.2]
              exact (hd4 h').trans (by simp)
            · simp at h
          · split at h
            · rename_i h'
              simp only [Except.ok.injEq, Prod.mk.injEq] at h
              rw [← h.2.2]
              exact (hd h').trans (by simp)
            · simp at h

/-- The operand has 16-bit addressing exactly when it is a memory operand in that layout. -/
theorem parseOperand_addr16 {short : Bool} {tl r : List Byte} {rg : BitVec 3} {raw : RawOperand}
    (h : parseOperand short tl = .ok (rg, raw, r)) : raw = .addr16 ↔ short = true ∧ raw.isReg = false := by
  cases short with
  | true =>
    simp only [parseOperand, if_true] at h
    cases tl with
    | nil => simp [parseModRM16] at h
    | cons b tl =>
      simp only [parseModRM16] at h
      split at h
      · simp only [Except.ok.injEq, Prod.mk.injEq] at h
        rw [← h.2.1]
        simp [RawOperand.isReg]
      · split at h
        · simp only [Except.ok.injEq, Prod.mk.injEq] at h
          rw [← h.2.1]
          simp [RawOperand.isReg]
        · simp at h
  | false =>
    simp only [parseOperand, Bool.false_eq_true, if_false] at h
    simp only [Bool.false_eq_true, false_and, iff_false]
    rintro rfl
    cases tl with
    | nil => simp [parseModRM] at h
    | cons b tl =>
      simp only [parseModRM] at h
      split at h
      · simp at h
      · split at h
        · split at h
          · rename_i h'
            simp only [Except.ok.injEq, Prod.mk.injEq] at h
            obtain ⟨-, rfl, -⟩ := h
            cases tl with
            | nil => simp [parseSib] at h'
            | cons sb tl =>
              simp only [parseSib] at h'
              split at h' <;> split at h' <;> simp at h'
          · simp at h
        · split at h
          · split at h <;> simp at h
          · split at h <;> simp at h

/-- What the decoder reads of sound bytes: nothing in it is `#UD`, and the refusal rows are those of Safety.lean. -/
theorem parse_sound {m : Mode} {bs pre head : List Byte} {raw : RawOperand} (h : SoundBytes m bs pre head raw) :
    ∃ p rest, parse m bs = .ok (p, rest) ∧ p.isUd = false ∧ p.raw = raw ∧ p.scan = Scan.start.after pre
      ∧ (p.badSae = true ↔ SaeMismatch head raw) ∧ (m = .mode32 → (p.extended = true ↔ ExtensionBits head))
      ∧ rest.length ≤ bs.length := by
  obtain ⟨hp, hs, tail, ⟨rg, rest, ho⟩, rfl⟩ := h
  obtain ⟨hl, h0, h2, h3⟩ := legacy_of_sound hp
  have hlock : (Scan.start.after pre).lock = false := by simp [Scan.after, Scan.start, h0]
  have hrep : (Scan.start.after pre).rep = false := by simp [Scan.after, Scan.start, h2, h3]
  have hle := length_parseOperand ho
  cases hs with
  | sse h66 =>
    have hn : (Scan.start.after pre).n66 ≠ 0 := by simp [Scan.after, Scan.start, List.count_eq_zero, h66]
    have := parse_of_head (m := m) hl (.inl rfl) (by decide) (parseHead_sse m tail)
    simp [headRejects, Head.isVexEvex, hrep, hn, Head.reservedBits, ho] at this
    refine ⟨_, _, this, ?_⟩
    simp [Parsed.isUd, illegalPrefix, hlock, Head.isVexEvex, Head.isEvex, extOf, Parsed.badSae, SaeMismatch,
      Parsed.extended, ExtensionBits]
    omega
  | sseRex r hm h4 h66 =>
    subst hm
    have hn : (Scan.start.after pre).n66 ≠ 0 := by simp [Scan.after, Scan.start, List.count_eq_zero, h66]
    have := parse_of_head hl (.inr ⟨r, h4, rfl, rfl⟩) (by decide) (parseHead_sse _ tail)
    simp [headRejects, Head.isVexEvex, hrep, hn, Head.reservedBits, ho] at this
    refine ⟨_, _, this, ?_⟩
    simp [Parsed.isUd, illegalPrefix, hlock, Head.isVexEvex, Head.isEvex, extOf, Parsed.badSae, SaeMismatch]
    omega
  | vex2 P h66 ha hpp hv =>
    have hn : (Scan.start.after pre).n66 = 0 := by simp [Scan.after, Scan.start, List.count_eq_zero, h66]
    have := parse_of_head hl (.inl rfl) (by decide) (parseHead_vex2 ha hpp tail)
    simp [headRejects, Head.isVexEvex, hrep, hn, Head.reservedBits, ho] at this
    refine ⟨_, _, this, ?_⟩
    simp [Parsed.isUd, illegalPrefix, hlock, hrep, hn, hv, Head.isVexEvex, Head.isEvex, extOf, Parsed.badSae, SaeMismatch,
      Parsed.extended, ExtensionBits]
    refine ⟨?_, by omega⟩
    intro hm
    have := ha hm
    revert this; clear * -; revert P; decide
  | vex3 P0 P1 h66 ha hmm hpp hv =>
    have hn : (Scan.start.after pre).n66 = 0 := by simp [Scan.after, Scan.start, List.count_eq_zero, h66]
    have := parse_of_head hl (.inl rfl) (by decide) (parseHead_vex3 ha hmm hpp tail)
    simp [headRejects, Head.isVexEvex, hrep, hn, Head.reservedBits, ho] at this
    refine ⟨_, _, this, ?_⟩
    simp [Parsed.isUd, illegalPrefix, hlock, hrep, hn, hv, Head.isVexEvex, Head.isEvex, extOf, Parsed.badSae, SaeMismatch,
      Parsed.extended, ExtensionBits]
    refine ⟨?_, by omega⟩
    intro hm
    have := ha hm
    revert this; clear * -; revert P0; decide
  | evex P0 P1 P2 h66 ha h0 hv h1 hz hll =>
    subst hv
    have hn : (Scan.start.after pre).n66 = 0 := by simp [Scan.after, Scan.start, List.count_eq_zero, h66]
    have hm1 : P0.extractLsb' 0 2 = 1#2 := by revert h0; clear * -; revert P0; decide
    have hm2 : P0.extractLsb' 2 2 = 0#2 := by revert h0; clear * -; revert P0; decide
    have := parse_of_head hl (.inl rfl) (by decide)
      (parseHead_evex P2 ha hm1 (by decide : (0xFD#8).extractLsb' 0 2 = 1#2) tail)
    simp [headRejects, Head.isVexEvex, hrep, hn, Head.reservedBits, ho, hm2] at this
    refine ⟨_, _, this, ?_⟩
    simp only [Parsed.isUd, illegalPrefix, hlock, hrep, hn, Head.isVexEvex, Head.isEvex, extOf, Parsed.badSae, SaeMismatch,
      Parsed.extended, ExtensionBits]
    refine ⟨?_, trivial, trivial, ?_, ?_, ?_⟩
    · have e1 : (0xFD#8).extractLsb' 3 4 = 15#4 := by decide
      have e2 : (0xFD#8).getLsbD 7 = true := by decide
      simp only [e1, e2, h1, ne_eq, not_true_eq_false, decide_false, Bool.false_or, Bool.not_true, Bool.true_and,
        Bool.or_eq_false_iff, Bool.and_eq_false_iff, Bool.not_eq_false', Bool.and_eq_true,
        bne_self_eq_false, Option.isSome_none, Bool.or_self, Bool.and_false]
      refine ⟨?_, ?_⟩
      · by_cases e : P2.getLsbD 7 = true
        · exact .inr (decide_eq_false fun e' => hz ⟨e, e'⟩)
        · exact .inl (by simpa using e)
      · by_cases e : P2.extractLsb' 5 2 = 3#2
        · exact .inr (hll e)
        · exact .inl (decide_eq_false e)
    · simp only [Bool.true_and, Bool.and_eq_true, and_assoc, List.cons.injEq, true_and, and_true]
      constructor
      · rintro ⟨h1, h2, h3⟩
        exact ⟨_, _, _, rfl, rfl, rfl, h1, h2, of_decide_eq_true h3⟩
      · rintro ⟨_, _, _, rfl, rfl, rfl, h1, h2, h3⟩
        exact ⟨h1, h2, decide_eq_true h3⟩
    · intro hm
      have := ha hm
      revert this; clear * -; revert P0
      simp
      decide
    · simp; omega

/-- The decoder on sound bytes of at most 15: one of the refusals, or the instruction. -/
theorem decode_sound {env : DecodeEnv} {bs pre head : List Byte} {raw : RawOperand}
    (h : SoundBytes env.mode bs pre head raw) (hlen : bs.length ≤ 15) :
    ∃ p rest, p.scan = Scan.start.after pre ∧ p.raw = raw ∧
      (p.badSae = true ↔ SaeMismatch head raw) ∧ (env.mode = .mode32 → (p.extended = true ↔ ExtensionBits head)) ∧
      (operandOf p.head.isEvex (extOf p.rex p.head) p.raw = none
        ↔ shortAddress env.mode pre = true ∧ raw.isReg = false) ∧
      parse env.mode bs = .ok (p, rest) ∧
      decode env bs = match p.refusal env with
      | some e => .error e
      | none => match operandOf p.head.isEvex (extOf p.rex p.head) p.raw with
        | some src => .ok ((p.fields src).toInstr, rest)
        | none => .error .addr16 := by
  obtain ⟨p, rest, hp, hu, hr, hs, h1, h2, h3⟩ := parse_sound h
  obtain ⟨-, -, tail, ⟨rg, rest', ho⟩, -⟩ := h
  have ha := parseOperand_addr16 ho
  refine ⟨p, rest, hs, hr, h1, h2, ?_, hp, ?_⟩
  · rw [← ha, hr]
    cases raw <;> simp [operandOf]
  · have : ¬ bs.length - rest.length > Config.maxLength := by simp [Config.maxLength]; omega
    simp [decode, hp, hu, this] <;> rfl

/-- Bytes that begin with a head that is not refused, have a complete operand and meet a `#UD` condition: the step is
`#UD`. -/
theorem step_ud_of_head {s : State} {pre rex tl tail : List Byte} {b : Byte} {h : Head} {raw : RawOperand}
    (hp : ∀ c ∈ pre, isLegacyPrefix c = true) (hr : RexBytes s.mode rex) (hb : b ∈ [0x0F#8, 0xC5#8, 0xC4#8, 0x62#8])
    (hh : parseHead s.mode (b :: tl) = .ok (h, tail)) (ho : OperandIs (shortAddress s.mode pre) raw tail)
    (hc : codeBytes s = pre ++ (rex ++ b :: tl)) (hj : headRejects (Scan.start.after pre) rex.head? h = none)
    (hu : ∀ rg, (⟨Scan.start.after pre, rex.head?, h, rg, raw⟩ : Parsed).isUd = true) : step s = .fault (.ud s) := by
  obtain ⟨rg, rest, ho⟩ := ho
  have h1 := parse_of_head hp hr hb hh
  rw [hj] at h1
  simp only [ho] at h1
  rw [← hc] at h1
  have hlen := length_codeBytes s
  have h2 : ¬ (codeBytes s).length - rest.length > Config.maxLength := by simp [Config.maxLength]; omega
  have : decode (decodeEnv s) (codeBytes s) = .error .ud := by
    rw [decode, show (decodeEnv s).mode = s.mode from rfl, h1]
    simp [h2, hu]
  rw [step_of_error this]; rfl

end Sys2Proof
end

