-- ==== Sys2Proof/Laws/Sources.lean ====
section
/-! SUPPORT. The source operand in the terms of Safety.lean: which bytes are read, and what the read gives. -/

namespace Sys2Proof.Machine

/-- A field of a field. -/
theorem extractLsb'_nested {w : Nat} (v : BitVec w) (a m b n : Nat) (h : b + n ≤ m) :
    (v.extractLsb' a m).extractLsb' b n = v.extractLsb' (a + b) n := by
  apply BitVec.eq_of_getLsbD_eq
  intro i hi
  have e : b + i < m := by omega
  simp [hi, e, Nat.add_assoc]

theorem mem_elementBytes (j o : Nat) : o ∈ elementBytes j ↔ o / 8 = j := by
  simp only [elementBytes, List.mem_cons, List.not_mem_nil, or_false]
  omega

theorem nodup_elementBytes (j : Nat) : (elementBytes j).Nodup := by
  simp [elementBytes]

theorem vl_bytes (f : Form) : f.vl / 8 = 8 * f.kl := by cases f <;> rfl

/-- The offsets read are the bytes that Safety.lean says are read. -/
theorem mem_readOffsets (f : Form) (mk : Masking) (src : Source) (s : State) (o : Nat)
    (h : src.address.isSome = true) :
    o ∈ readOffsets f mk src.isBcst s ↔ byteRead f mk src s o = true := by
  have hk := vl_bytes f
  cases hs : (s.params.faultSuppression && f.isEvex) <;> cases src with
  | reg r | regSae r => simp [Source.address] at h
  | mem a =>
    simp only [readOffsets, byteRead, hs, Source.isBcst, Bool.false_eq_true, if_false, if_true, List.mem_range,
      List.mem_flatMap, List.mem_filter, mem_elementBytes, Bool.not_true, Bool.not_false, Bool.true_or, Bool.false_or,
      Bool.and_true, Bool.and_eq_true, decide_eq_true_eq, hk]
    try
      constructor
      · rintro ⟨j, ⟨h1, h2⟩, rfl⟩
        exact ⟨by omega, h2⟩
      · rintro ⟨h1, h2⟩
        exact ⟨o / 8, ⟨by omega, h2⟩, rfl⟩
  | bcst a =>
    have h8 : o / 8 = 0 ↔ o < 8 := by omega
    have he : ((List.range f.kl).filter (computed mk s)).isEmpty = !(List.range f.kl).any (computed mk s) := by
      rw [Bool.eq_iff_iff, List.isEmpty_iff, List.filter_eq_nil_iff, Bool.not_eq_true', List.any_eq_false]
    simp only [readOffsets, byteRead, hs, Source.isBcst, if_true, Bool.false_and, Bool.true_and, Bool.false_eq_true,
      if_false, mem_elementBytes, h8, Bool.not_true, Bool.not_false, Bool.true_or, Bool.false_or, Bool.and_true,
      Bool.and_eq_true, decide_eq_true_eq, he]
    try cases (List.range f.kl).any (computed mk s) <;> simp [mem_elementBytes, h8]

theorem nodup_readOffsets (f : Form) (mk : Masking) (b : Bool) (s : State) : (readOffsets f mk b s).Nodup := by
  unfold readOffsets
  simp only
  split
  · split
    · exact List.nodup_nil
    · exact nodup_elementBytes 0
  · split
    · refine List.nodup_flatMap.2 ⟨fun j _ => nodup_elementBytes j, ?_⟩
      refine (List.nodup_range.filter _).imp fun {a b} hab => ?_
      intro o h1 h2
      rw [mem_elementBytes] at h1 h2
      exact hab (h1 ▸ h2)
    · exact List.nodup_range

theorem byteRead_lt {f : Form} {mk : Masking} {src : Source} {s : State} {o : Nat} (h : byteRead f mk src s o = true) :
    o < 64 := by
  have : f.vl / 8 ≤ 64 := by cases f <;> decide
  cases src <;> simp only [byteRead, Bool.false_eq_true, Bool.and_eq_true, decide_eq_true_eq] at h <;> omega

/-- A segment violation is a byte that is read and is not in the segment. -/
theorem segmentViolation_eq_false (s : State) (g : SegReg) (ea : BitVec 64) (offs : List Nat) :
    segmentViolation s g ea (linearAddr s g ea) offs = false ↔ ∀ o ∈ offs, byteInSegment s g ea o = true := by
  unfold segmentViolation byteInSegment
  cases s.mode with
  | mode64 => simp
  | mode32 =>
    cases hr : s.realMode with
    | true => simp
    | false => simp [and_assoc]

/-- The oracle admits every address of a list exactly when no search of it finds an answer. -/
theorem oracleAdmits_iff (s : State) (addrs : List (BitVec 64)) :
    (oracleFault s addrs = none ∧ oracleHit s OracleAnswer.isDevice addrs = none) ↔
      ∀ a ∈ addrs, oracleAdmits s a = true := by
  rw [oracleFault_eq_none, oracleHit_eq_none, oracleHit_eq_none, oracleHit_eq_none]
  simp only [oracleAdmits, List.all_eq_true, Bool.or_eq_true, Bool.not_eq_true', Bool.and_eq_true, decide_eq_true_eq]
  constructor
  · rintro ⟨⟨h1, h2⟩, h3⟩ a ha r hr
    cases hw : r.answer
    case supervisor =>
      by_cases hc : s.cpl = 3#2
      · exact .inl (h2 r hr (by simp [hw, OracleAnswer.isPageFault, hc]) a ha)
      · exact .inr ⟨rfl, hc⟩
    case gp0 => exact .inl (h1 r hr (by simp [hw, OracleAnswer.isSegment]) a ha)
    case ss0 => exact .inl (h1 r hr (by simp [hw, OracleAnswer.isSegment]) a ha)
    case device => exact .inl (h3 r hr (by simp [hw, OracleAnswer.isDevice]) a ha)
    all_goals exact .inl (h2 r hr (by simp [hw, OracleAnswer.isPageFault]) a ha)
  · intro h
    refine ⟨⟨fun r hr hw a ha => ?_, fun r hr hw a ha => ?_⟩, fun r hr hw a ha => ?_⟩ <;>
      rcases h a ha r hr with h | ⟨h, hc⟩ <;>
      first | exact h | simp [h, OracleAnswer.isSegment, OracleAnswer.isDevice, OracleAnswer.isPageFault, hc] at hw

/-- The flags of the skeleton are those that the source elements raise. -/
theorem raises_iff (f : Form) (mk : Masking) (src : Source) (v : VecWord) (e : Nat → Qword) (s : State)
    (hv : ∀ j, j < f.kl → computed mk s j = true → sourceElem src v j = e j) :
    (anyInvalid f mk src v s = true ↔ RaisesInvalid f mk e s)
      ∧ (anyInexact f mk src v s = true ↔ RaisesInexact f mk e s) := by
  simp only [anyInvalid, anyInexact, RaisesInvalid, RaisesInexact, List.any_eq_true, List.mem_range, Bool.and_eq_true,
    convertedAt]
  constructor <;>
    exact exists_congr fun j => and_congr_right fun hj => and_congr_right fun hc => by rw [hv j hj hc]

/-- The next `pc` as exact arithmetic. -/
theorem toNat_nextPc (s : State) (len : Nat) : (s.nextPc len).toNat = (s.pc.toNat + len) % 2 ^ addrBits s.mode := by
  unfold State.nextPc State.truncAddr addrBits
  cases s.mode
  · simp only [BitVec.toNat_setWidth, BitVec.toNat_add, BitVec.toNat_ofNat]
    omega
  · simp

/-- What is read of a source whose elements are known. -/
theorem readSource_of_sourceIs {f : Form} {len : Nat} {p : Prefixes} {mk : Masking} {src : Source} {e : Nat → Qword}
    {s : State} (h : SourceIs f len p mk src e s) :
    ∃ v, readSource f len p mk src s = .next v
      ∧ ∀ j, j < f.kl → computed mk s j = true → sourceElem src v j = e j := by
  by_cases hsrc : src.address = none
  · cases src with
    | reg r | regSae r =>
      refine ⟨_, rfl, fun j hj _ => ?_⟩
      show elem64 (lowBits f.vl (s.readZmm r)) j = e j
      rw [elem64_lowBits _ _ _ (elem_within f j hj)]
      exact (h j hj).symm
    | mem a | bcst a => simp [Source.address] at hsrc
  · obtain ⟨a, ha⟩ := Option.ne_none_iff_exists'.1 hsrc
    have hbytes := mem_readOffsets f mk src s
    rw [ha] at hbytes
    have hS : operandAligned f src (operandAddr f len p src a s) s = true
        ∧ (src.isBcst = true → ∀ j, j < f.kl → e j = e 0)
        ∧ ∀ o, o < 64 → byteRead f mk src s o = true →
          byteInSegment s (effSeg s.mode p a) (operandEA f len p src a s) o = true
          ∧ oracleAdmits s (byteAddr s (operandAddr f len p src a s) o) = true
          ∧ s.mem.get (byteAddr s (operandAddr f len p src a s) o).toNat = some (sourceByte src e o) := by
      cases src <;> simp only [Source.address, Option.some.injEq, reduceCtorEq] at ha <;> subst ha <;> exact h
    obtain ⟨hal, hb0, hrd⟩ := hS
    have hrs : readSource f len p mk src s = readMemory f src.isBcst (effSeg s.mode p a) (operandEA f len p src a s)
        (readOffsets f mk src.isBcst s) s := by
      cases src <;> simp only [Source.address, Option.some.injEq, reduceCtorEq] at ha <;> subst ha <;> rfl
    have hread : ∀ o ∈ readOffsets f mk src.isBcst s, o < 64 ∧ byteRead f mk src s o = true := fun o ho => by
      have := (hbytes o rfl).1 ho
      exact ⟨byteRead_lt this, this⟩
    have hsome : (gatherBytes s (operandAddr f len p src a s) (readOffsets f mk src.isBcst s)).isSome = true := by
      rw [gatherBytes_isSome]
      intro o ho
      obtain ⟨h1, h2⟩ := hread o ho
      rw [(hrd o h1 h2).2.2]
      rfl
    obtain ⟨v, hv⟩ := Option.isSome_iff_exists.1 hsome
    refine ⟨v, ?_, fun j hj hc => ?_⟩
    · rw [hrs, readMemory_eq_next]
      have horc := (oracleAdmits_iff s ((readOffsets f mk src.isBcst s).map
        (byteAddr s (linearAddr s (effSeg s.mode p a) (operandEA f len p src a s))))).2 (by
          intro x hx
          obtain ⟨o, ho, rfl⟩ := List.mem_map.1 hx
          obtain ⟨h1, h2⟩ := hread o ho
          exact (hrd o h1 h2).2.1)
      simp only [operandAligned, Bool.and_eq_true, Bool.or_eq_true, Bool.not_eq_true', decide_eq_true_eq,
        decide_eq_false_iff_not] at hal
      refine ⟨(segmentViolation_eq_false _ _ _ _).2 fun o ho => ?_, ?_, horc.1, horc.2, ?_, hv⟩
      · obtain ⟨h1, h2⟩ := hread o ho
        exact (hrd o h1 h2).1
      · rintro ⟨h1, h2⟩
        exact hal.1.elim (fun k => k h1) fun k => h2 k
      · rintro ⟨h1, h2, h3⟩
        rcases hal.2 with k | k
        · simp [h1, h2] at k
        · exact h3 k
    · obtain ⟨hg, -⟩ := gatherBytes_byte s _ _ v hv (nodup_readOffsets f mk src.isBcst s)
      have hkl := kl_le f
      have hbyte : ∀ i, i < 8 → (sourceElem src v j).extractLsb' (8 * i) 8 = (e j).extractLsb' (8 * i) 8 := by
        intro i hi
        have hr : byteRead f mk src s (if src.isBcst then i else 8 * j + i) = true := by
          cases src with
          | reg r | regSae r => simp [Source.address] at ha
          | mem b =>
            have e1 : (8 * j + i) / 8 = j := by omega
            have e2 : 8 * j + i < 8 * f.kl := by omega
            simp [byteRead, Source.isBcst, vl_bytes, e1, e2, hc]
          | bcst b =>
            have : (List.range f.kl).any (computed mk s) = true := List.any_eq_true.2 ⟨j, List.mem_range.2 hj, hc⟩
            simp [byteRead, Source.isBcst, hi, this]
        have h64 := byteRead_lt hr
        have h1 := hg _ ((hbytes _ rfl).2 hr) h64
        have h2 := (hrd _ h64 hr).2.2
        have h3 := Option.some.inj (h1.symm.trans h2)
        cases hbc : src.isBcst with
        | true =>
          rw [hb0 hbc j hj]
          simp only [hbc, if_true] at h3
          have e1 : i % 8 = i := by omega
          simp only [sourceByte, hbc, if_true, e1] at h3
          rw [← h3]
          simp only [sourceElem, hbc, if_true, elem64]
          rw [extractLsb'_nested _ _ _ _ _ (by omega), Nat.mul_zero, Nat.zero_add]
        | false =>
          simp only [hbc, Bool.false_eq_true, if_false] at h3
          have e1 : (8 * j + i) / 8 = j := by omega
          have e2 : (8 * j + i) % 8 = i := by omega
          simp only [sourceByte, hbc, Bool.false_eq_true, if_false, e1, e2] at h3
          rw [← h3]
          simp only [sourceElem, hbc, Bool.false_eq_true, if_false, elem64]
          rw [extractLsb'_nested _ _ _ _ _ (by omega)]
          congr 1
          omega
      apply BitVec.eq_of_getLsbD_eq
      intro b hb
      have h1 := congrArg (fun x => x.getLsbD (b % 8)) (hbyte (b / 8) (by omega))
      have e1 : 8 * (b / 8) + b % 8 = b := by omega
      have e2 : b % 8 < 8 := by omega
      simpa [BitVec.getLsbD_extractLsb', e1, e2] using h1

end Sys2Proof.Machine
end

