-- ==== Sys2Proof/Tests/Slice0.lean ====
section
/-! SUPPORT. The author's tests: ill-formed terms that WellFormed refuses, words of the spec decoded, vectors of
95_test_vectors.md run, and for every statement with hypotheses a state and operands that meet them. -/

namespace Sys2Proof.Tests

open Sys2Proof.Machine

set_option Elab.async false

/-! ### Ill-formed terms, one per check of WellFormed.lean and Decode.lean -/

/-- No optional prefix. -/
def np : Prefixes := ⟨none, false⟩
/-- No writemask. -/
def nm : Masking := ⟨0, false⟩

theorem test_wf_dst_mode32 : (Instr.evex128 np 8 nm (.reg 0)).wf .mode32 = false := by decide
theorem test_wf_dst_no_rex : (Instr.sse 0 np 8 (.reg 0)).wf .mode64 = false := by decide
theorem test_wf_dst_vex : (Instr.vex128c5 np 16 (.reg 0)).wf .mode64 = false := by decide
theorem test_wf_src_vex2 : (Instr.vex256c5 np 0 (.reg 8)).wf .mode64 = false := by decide
theorem test_wf_src_vex3 : (Instr.vex256c4 np 0 (.reg 16)).wf .mode64 = false := by decide
theorem test_wf_base_vex2 : (Instr.vex128c5 np 0 (.mem (.base 8 .none))).wf .mode64 = false := by decide
theorem test_wf_base_needs_sib : (Instr.evex512 np 0 nm (.mem (.base 4 .none))).wf .mode64 = false := by decide
theorem test_wf_base_needs_disp : (Instr.evex512 np 0 nm (.mem (.base 5 .none))).wf .mode64 = false := by decide
theorem test_wf_sib_needs_disp : (Instr.evex512 np 0 nm (.mem (.sib 13 none 0 .none))).wf .mode64 = false := by decide
theorem test_wf_sib_base_mode32 : (Instr.evex512 np 0 nm (.mem (.sib 9 none 0 .none))).wf .mode32 = false := by decide
theorem test_wf_index_four : (Instr.evex512 np 0 nm (.mem (.sib 0 (some 4) 0 .none))).wf .mode64 = false := by decide
theorem test_wf_index_limit : (Instr.vex128c5 np 0 (.mem (.sibNoBase (some 9) 0 0))).wf .mode64 = false := by decide
theorem test_wf_zeroing_needs_mask : (Instr.evex128 np 0 ⟨0, true⟩ (.reg 0)).wf .mode64 = false := by decide
theorem test_wf_rex_mode32 : (Instr.sseRex 0 np 0 (.reg 0)).wf .mode32 = false := by decide
theorem test_wf_addr16 : (Instr.vex128c5 ⟨none, true⟩ 0 (.mem (.disp32 0))).wf .mode32 = false := by decide
theorem test_wf_length : (Instr.sse 12 np 0 (.reg 0)).wf .mode64 = false := by decide
theorem test_wf_length_fifteen : (Instr.sse 11 np 0 (.reg 0)).wf .mode64 = true := by decide

/-! ### Words of the spec -/

/-- The instruction the decoder reads in Mode64, if the bytes are all of it. -/
def dec (bs : List Byte) : Option Instr :=
  match decode ⟨.mode64, false⟩ bs with
  | .ok (i, []) => some i
  | _ => none

/-- Why the decoder rejects bytes. -/
def rejects (m : Mode) (bs : List Byte) : Option DecodeError :=
  match decode ⟨m, false⟩ bs with
  | .error e => some e
  | .ok _ => none

-- 95_test_vectors.md: S1, S7, V1, V6, W3.
theorem test_decode_sse : dec [0x66, 0x0F, 0xE6, 0xCA] = some (.sse 0 np 1 (.reg 2)) := by decide
theorem test_decode_sseRex : dec [0x66, 0x44, 0x0F, 0xE6, 0xFA] = some (.sseRex 0 np 15 (.reg 2)) := by decide
theorem test_decode_vex128c5 : dec [0xC5, 0xF9, 0xE6, 0xCA] = some (.vex128c5 np 1 (.reg 2)) := by decide
theorem test_decode_vex128c4 : dec [0xC4, 0xC1, 0x79, 0xE6, 0xC9] = some (.vex128c4 np 1 (.reg 9)) := by decide
theorem test_decode_vex256c5 : dec [0xC5, 0xFD, 0xE6, 0x0C, 0xC8] = some (.vex256c5 np 1 (.mem (.sib 0 (some 1) 3 .none))) := by
  decide
-- 30_encoding.md R63: C4, P0 = ~R ~X ~B 00001 = 1 1 0 00001, P1 = W vvvv L pp = 0 1111 1 01, E6, ModRM 11 001 010.
theorem test_decode_vex256c4 : dec [0xC4, 0xC1, 0x7D, 0xE6, 0xCA] = some (.vex256c4 np 1 (.reg 10)) := by decide
-- E17, E7, F2, F4, G13, G4, G6, S16 and program 2 of 95_test_vectors.md.
theorem test_decode_evex128 : dec [0x62, 0xA1, 0xFD, 0x08, 0xE6, 0xC7] = some (.evex128 np 16 nm (.reg 23)) := by decide
theorem test_decode_evex128b :
    dec [0x62, 0xF1, 0xFD, 0x18, 0xE6, 0x48, 0xFF] = some (.evex128b np 1 nm (.base 0 (.d8 0xFF))) := by decide
theorem test_decode_evex256 : dec [0x62, 0xF1, 0xFD, 0xA9, 0xE6, 0xCA] = some (.evex256 np 1 ⟨1, true⟩ (.reg 2)) := by decide
theorem test_decode_evex256b :
    dec [0x62, 0xF1, 0xFD, 0x38, 0xE6, 0x58, 0x02] = some (.evex256b np 3 nm (.base 0 (.d8 2))) := by decide
theorem test_decode_evex512 :
    dec [0x62, 0xF1, 0xFD, 0x48, 0xE6, 0x84, 0xC8, 0x00, 0x01, 0x00, 0x00]
      = some (.evex512 np 0 nm (.mem (.sib 0 (some 1) 3 (.d32 0x100)))) := by decide
theorem test_decode_evex512b_sae : dec [0x62, 0xF1, 0xFD, 0x58, 0xE6, 0xCA] = some (.evex512b np 1 nm (.reg 2)) := by decide
theorem test_decode_evex512b_bcst :
    dec [0x62, 0xF1, 0xFD, 0x58, 0xE6, 0x48, 0x02] = some (.evex512b np 1 nm (.mem (.base 0 (.d8 2)))) := by decide
theorem test_decode_rsp : dec [0x66, 0x0F, 0xE6, 0x4C, 0x24, 0x10] = some (.sse 0 np 1 (.mem (.sib 4 none 0 (.d8 0x10)))) := by
  decide
theorem test_decode_rip :
    dec [0x66, 0x0F, 0xE6, 0x15, 0xF2, 0x0F, 0x00, 0x00] = some (.sse 0 np 2 (.mem (.disp32 0xFF2))) := by decide
-- S9, V4, V9, E9 to E12, E14, E15, X11.
theorem test_reject_lock : rejects .mode64 [0xF0, 0x66, 0x0F, 0xE6, 0xCA] = some .ud := by decide
theorem test_reject_vvvv : rejects .mode64 [0xC5, 0xF1, 0xE6, 0xCA] = some .ud := by decide
theorem test_reject_map : rejects .mode64 [0xC4, 0xE2, 0x79, 0xE6, 0xCA] = some .otherInstruction := by decide
theorem test_reject_sae_ll : rejects .mode64 [0x62, 0xF1, 0xFD, 0x18, 0xE6, 0xCA] = some .saeVectorLength := by decide
theorem test_reject_w0 : rejects .mode64 [0x62, 0xF1, 0x7D, 0x08, 0xE6, 0xCA] = some .ud := by decide
theorem test_reject_zeroing : rejects .mode64 [0x62, 0xF1, 0xFD, 0x88, 0xE6, 0xCA] = some .ud := by decide
theorem test_reject_v' : rejects .mode64 [0x62, 0xF1, 0xFD, 0x00, 0xE6, 0xCA] = some .ud := by decide
theorem test_reject_ll : rejects .mode64 [0x62, 0xF1, 0xFD, 0x68, 0xE6, 0xCA] = some .ud := by decide
theorem test_reject_reserved : rejects .mode64 [0x62, 0xF5, 0xFD, 0x08, 0xE6, 0xCA] = some .evexReserved := by decide
-- 30_encoding.md R78: step 4 comes before the refusals of step 5.
theorem test_reject_reserved_66 : rejects .mode64 [0x66, 0x62, 0xF5, 0xFD, 0x08, 0xE6, 0xCA] = some .ud := by decide
-- R76: 67H in Mode32 with `mod = 10b` adds a disp16: 14 bytes with eight 66H, refused (R81 row 4), and 16 with ten.
theorem test_reject_addr16 : rejects .mode32 (List.replicate 8 0x66 ++ [0x67, 0x0F, 0xE6, 0x8C, 0x34, 0x12]) = some .addr16 := by
  decide
theorem test_reject_addr16_long :
    rejects .mode32 (List.replicate 10 0x66 ++ [0x67, 0x0F, 0xE6, 0x8C, 0x34]) = some .tooLong := by decide
theorem test_reject_mode32_b : rejects .mode32 [0xC4, 0xC1, 0x79, 0xE6, 0xC9] = some .mode32Extension := by decide

/-! ### Vectors run by one step -/

/-- The enabled launch state of 10_state.md R30, every register as after reset but vector registers 1 and 3, which hold the
filler of 95_test_vectors.md, and `code` at `pc`. -/
def launch (code : List Byte) : State :=
  let filler : VecWord := 0xA5A5A5A5A5A5A5A5A5A5A5A5A5A5A5A5A5A5A5A5A5A5A5A5A5A5A5A5A5A5A5A5A5A5A5A5A5A5A5A5A5A5A5A5A5A5A5A5A5A5A5A5A5A5A5A5A5A5A5A5A5A5A5A5#512
  placeCode (((enableAll State.reset).writeZmm 1 filler).writeZmm 3 filler) 0 code

/-- `launch` with a source in vector register 2. -/
def withSrc (code : List Byte) (v : VecWord) : State := (launch code).writeZmm 2 v

/-- Bytes described from an address on. -/
def describe (m : Memory) : Nat → List Byte → Memory
  | _, [] => m
  | a, b :: bs => describe (m.set a b) (a + 1) bs

/-- `launch` with RAX and bytes of memory. -/
def withMem (code : List Byte) (rax : BitVec 64) (a : Nat) (bytes : List Byte) : State :=
  let s := launch code
  { s with gpr := s.gpr.set 0 rax, mem := describe s.mem a bytes }

/-- One step completes, with this destination, MXCSR and length. -/
def gives (s : State) (d : VReg) (v : VecWord) (mx : BitVec 32) (len : Nat) : Bool :=
  match step s with
  | .next t => decide (t.readZmm d = v) && decide (t.mxcsr = mx) && decide (t.pc = s.pc + BitVec.ofNat 64 len)
  | _ => false

-- Expected values: 95_test_vectors.md, the vector named.
theorem test_S1 : gives (withSrc [0x66, 0x0F, 0xE6, 0xCA] 0xC0000000000000003FF8000000000000#512) 1
    ((launch []).readZmm 1 >>> 128 <<< 128 ||| 0xFFFFFFFE00000001#512) 0x1FA0#32 4 = true := by decide +kernel
theorem test_S7 : gives (withSrc [0x66, 0x44, 0x0F, 0xE6, 0xFA] 0xC0590000000000004059000000000000#512) 15
    0xFFFFFF9C00000064#512 0x1F80#32 5 = true := by decide +kernel
theorem test_V1 : gives (withSrc [0xC5, 0xF9, 0xE6, 0xCA] 0xC0000000000000003FF8000000000000#512) 1
    0xFFFFFFFE00000001#512 0x1FA0#32 4 = true := by decide +kernel
theorem test_V3 : gives (withSrc [0xC4, 0xE1, 0xF9, 0xE6, 0xCA] 0xC0000000000000003FF8000000000000#512) 1
    0xFFFFFFFE00000001#512 0x1FA0#32 5 = true := by decide +kernel
theorem test_W1 : gives (withSrc [0xC5, 0xFD, 0xE6, 0xCA]
    0x4202A05F200000004004000000000000BFF00000000000003FF0000000000000#512) 1
    0x8000000000000002FFFFFFFF00000001#512 0x1FA1#32 4 = true := by decide +kernel
-- W1's source and result under the three-byte prefix (30_encoding.md R63: both prefixes are equivalent).
theorem test_W1_c4 : gives (withSrc [0xC4, 0xE1, 0x7D, 0xE6, 0xCA]
    0x4202A05F200000004004000000000000BFF00000000000003FF0000000000000#512) 1
    0x8000000000000002FFFFFFFF00000001#512 0x1FA1#32 5 = true := by decide +kernel
/-- A state with one opmask register written. -/
def withMask (s : State) (k : KReg) (v : BitVec 64) : State := { s with k := s.k.set k v }
theorem test_E2 : gives (withMask (withSrc [0x62, 0xF1, 0xFD, 0x0A, 0xE6, 0xDA] 0x7FF8000000000000401F99999999999A#512) 2 1) 3
    0xA5A5A5A500000007#512 0x1FA0#32 6 = true := by decide +kernel
theorem test_E6 : gives (withMem [0x62, 0xF1, 0xFD, 0x18, 0xE6, 0x08] 0x2004#64 0x2004
    [0x00, 0x00, 0x00, 0x00, 0x00, 0x00, 0x0E, 0xC0]) 1 0xFFFFFFFDFFFFFFFD#512 0x1FA0#32 6 = true := by decide +kernel
theorem test_F2 : gives (withMask (withSrc [0x62, 0xF1, 0xFD, 0xA9, 0xE6, 0xCA]
    0x4202A05F200000004004000000000000BFF00000000000003FF0000000000000#512) 1 5) 1
    0x000000020000000000000001#512 0x1FA0#32 6 = true := by decide +kernel
theorem test_F4 : gives (withMem [0x62, 0xF1, 0xFD, 0x38, 0xE6, 0x58, 0x02] 0x5000#64 0x5010
    [0x00, 0x00, 0x00, 0x00, 0x00, 0x00, 0x0E, 0xC0]) 3 0xFFFFFFFDFFFFFFFDFFFFFFFDFFFFFFFD#512 0x1FA0#32 7 = true := by
  decide +kernel
theorem test_G1 : gives (withSrc [0x62, 0xF1, 0xFD, 0x48, 0xE6, 0xCA]
    0xC1E000000000000041DFFFFFFFC00000C0590000000000004059000000000000BFE00000000000003FE000000000000080000000000000000000000000000000#512)
    1 0x800000007FFFFFFFFFFFFF9C0000006400000000000000000000000000000000#512 0x1FA0#32 6 = true := by decide +kernel
theorem test_G4 : gives { withSrc [0x62, 0xF1, 0xFD, 0x58, 0xE6, 0xCA]
    0xC1E00000001FF7CF41DFFFFFFFFFEF9E80000000000000004202A05F200000004045000000000000C1E00000002000003FE00000000000007FF0000000000001#512
    with mxcsr := 0#32 } 1 0x800000007FFFFFFF00000000800000000000002A800000000000000080000000#512 0#32 6 = true := by
  decide +kernel
theorem test_G6 : gives (withMem [0x62, 0xF1, 0xFD, 0x58, 0xE6, 0x48, 0x02] 0x6000#64 0x6010
    [0x00, 0x00, 0x00, 0x00, 0xF0, 0xFF, 0xEF, 0x40]) 1
    0x0000FFFF0000FFFF0000FFFF0000FFFF0000FFFF0000FFFF0000FFFF0000FFFF#512 0x1FA0#32 7 = true := by decide +kernel

/-- The vector of the fault a step raises, if it raises one with vector register 1 and `pc` unchanged. -/
def faults (s : State) : Option Nat :=
  match step s with
  | .fault f => if f.state.readZmm 1 = s.readZmm 1 ∧ f.state.pc = s.pc then some f.vector else none
  | _ => none

theorem test_S6 : faults (withMem [0x66, 0x0F, 0xE6, 0x08] 0x2008#64 0x2000 []) = some 13 := by decide +kernel
theorem test_S10 : faults { withSrc [0x66, 0x0F, 0xE6, 0xCA] 0x3FF00000000000007FF8000000000000#512 with mxcsr := 0x1F00#32 }
    = some 19 := by decide +kernel
theorem test_X6 : faults { withSrc [0xC5, 0xF9, 0xE6, 0xCA] 0 with cr0 := 0x60000019#32 } = some 7 := by decide +kernel
theorem test_reset_ud : (match exec (.sse 0 np 1 (.reg 2)) State.reset with
    | .fault f => f.vector
    | _ => 0) = 6 := by decide +kernel

/-! ### Witnesses: for each statement with hypotheses, a state and operands that meet them -/

/-- A step or instruction that completes has a next state. -/
def completes (r : Result State) : Bool :=
  match r with
  | .next _ => true
  | _ => false

theorem next_of_completes {r : Result State} (h : completes r = true) : ∃ t, r = .next t := by
  cases r with
  | next t => exact ⟨t, rfl⟩
  | fault e => exact absurd h (by simp [completes])
  | refused e => exact absurd h (by simp [completes])

/-- A step or instruction that faults has a fault. -/
def faulty (r : Result State) : Bool :=
  match r with
  | .fault _ => true
  | _ => false

theorem fault_of_faulty {r : Result State} (h : faulty r = true) : ∃ e, r = .fault e := by
  cases r with
  | fault e => exact ⟨e, rfl⟩
  | next t => exact absurd h (by simp [faulty])
  | refused e => exact absurd h (by simp [faulty])

/-- The launch state in Mode32, protected. -/
def launch32 (code : List Byte) : State := placeCode { enableAll State.reset with mode := .mode32 } 0 code

-- DecodeEncodeRoundTrip
theorem wit_round_trip : (Instr.evex512b ⟨some .fs, true⟩ 31 ⟨7, true⟩ (.mem (.sib 12 (some 15) 3 (.d8 0xFF)))).wf .mode64 = true
    ∧ (Instr.sse 3 ⟨some .ss, false⟩ 7 (.mem (.sibNoBase none 0 0xFFFFFFFF))).wf .mode32 = true := by decide
-- DecodedIsWellFormed
theorem wit_decoded : decode ⟨.mode32, true⟩ [0xC4, 0xE1, 0xF9, 0xE6, 0xCA, 0x00] = .ok (.vex128c4 np 1 (.reg 2), [0x00]) := by
  decide
-- ReservedVvvvFaults: each clause, and both causes of the EVEX clause
theorem wit_operand (short : Bool) : OperandIs short (.reg 2) [0xCA] := by cases short <;> exact ⟨1, [], by decide⟩
theorem wit_vvvv : codeBytes (launch [0x2E, 0xC5, 0xF1, 0xE6, 0xCA]) = [0x2E] ++ 0xC5#8 :: 0xF1#8 :: 0xE6#8 :: [0xCA]
    ∧ codeBytes (launch [0xC4, 0xE1, 0x71, 0xE6, 0xCA]) = [] ++ 0xC4#8 :: 0xE1#8 :: 0x71#8 :: 0xE6#8 :: [0xCA]
    ∧ codeBytes (launch [0x62, 0xF1, 0xF5, 0x08, 0xE6, 0xCA])
      = [] ++ 0x62#8 :: 0xF1#8 :: 0xF5#8 :: 0x08#8 :: 0xE6#8 :: [0xCA]
    ∧ codeBytes (launch [0x62, 0xF1, 0xFD, 0x00, 0xE6, 0xCA])
      = [] ++ 0x62#8 :: 0xF1#8 :: 0xFD#8 :: 0x00#8 :: 0xE6#8 :: [0xCA]
    ∧ (0xF1#8).extractLsb' 3 4 ≠ 15#4 ∧ (0x71#8).extractLsb' 3 4 ≠ 15#4 ∧ (0xF5#8).extractLsb' 3 4 ≠ 15#4
    ∧ (0x00#8).getLsbD 3 = false ∧ isLegacyPrefix 0x2E = true ∧ (0xF1#8).extractLsb' 0 4 = 1#4
    ∧ (0xFD#8).extractLsb' 0 3 = 5#3 ∧ (0xF5#8).extractLsb' 0 3 = 5#3 ∧ (0xE1#8).extractLsb' 0 5 = 1#5
    ∧ (0x71#8).extractLsb' 0 2 = 1#2 ∧ (0xF1#8).extractLsb' 0 2 = 1#2 := by decide +kernel
-- IllegalEvexFieldsFault: both alternatives
theorem wit_illegal_evex : codeBytes (launch [0x62, 0xF1, 0xFD, 0x68, 0xE6, 0xCA])
      = [] ++ 0x62#8 :: 0xF1#8 :: 0xFD#8 :: 0x68#8 :: 0xE6#8 :: [0xCA]
    ∧ codeBytes (launch [0x62, 0xF1, 0xFD, 0x88, 0xE6, 0xCA])
      = [] ++ 0x62#8 :: 0xF1#8 :: 0xFD#8 :: 0x88#8 :: 0xE6#8 :: [0xCA]
    ∧ ((0x68#8).extractLsb' 5 2 = 3#2 ∧ (0x68#8).getLsbD 4 = false)
    ∧ (0x88#8).getLsbD 7 = true ∧ (0x88#8).extractLsb' 0 3 = 0#3 := by decide +kernel
-- WBits, third clause (the first two ask only for prefix bytes, a REX byte and Mode64)
theorem wit_w_bits : codeBytes (launch [0x62, 0xF1, 0x7D, 0x08, 0xE6, 0xCA])
      = [] ++ 0x62#8 :: 0xF1#8 :: 0x7D#8 :: 0x08#8 :: 0xE6#8 :: [0xCA]
    ∧ (0x7D#8).getLsbD 7 = false ∧ (0x7D#8).extractLsb' 0 3 = 5#3 ∧ (0x48#8).extractLsb' 4 4 = 4#4 := by decide +kernel
-- IllegalPrefixesFault: a 66H, a REX byte and a LOCK before VEX, F3H before EVEX with reserved bits, a LOCK before F-SSE
theorem wit_illegal_heads : VexHead .mode64 [0xC5#8, 0xF9#8, 0xE6#8] ∧ VexHead .mode32 [0xC4#8, 0xE1#8, 0x79#8, 0xE6#8]
    ∧ VexHead .mode32 [0x62#8, 0xF5#8, 0xF9#8, 0x08#8, 0xE6#8] ∧ RexBytes .mode64 [0x48#8] :=
  ⟨.vex2 _ (by decide) (by decide), .vex3 _ _ (by decide) (by decide) (by decide),
    .evex _ _ _ (by decide) (by decide) (by decide), .inr ⟨_, by decide, rfl, rfl⟩⟩
theorem wit_illegal_prefixes :
    codeBytes (launch [0x66, 0xC5, 0xF9, 0xE6, 0xCA]) = [0x66] ++ [] ++ [0xC5#8, 0xF9#8, 0xE6#8] ++ [0xCA]
    ∧ codeBytes (launch [0x48, 0xC5, 0xF9, 0xE6, 0xCA]) = [] ++ [0x48] ++ [0xC5#8, 0xF9#8, 0xE6#8] ++ [0xCA]
    ∧ codeBytes (launch [0xF0, 0xC4, 0xE1, 0x79, 0xE6, 0xCA]) = [0xF0] ++ [] ++ [0xC4#8, 0xE1#8, 0x79#8, 0xE6#8] ++ [0xCA]
    ∧ codeBytes (launch32 [0xF3, 0x62, 0xF5, 0xF9, 0x08, 0xE6, 0xCA])
      = [0xF3] ++ [] ++ [0x62#8, 0xF5#8, 0xF9#8, 0x08#8, 0xE6#8] ++ [0xCA]
    ∧ codeBytes (launch [0xF0, 0x66, 0x0F, 0xE6, 0xCA]) = [0xF0, 0x66] ++ [] ++ [0x0F#8, 0xE6#8] ++ [0xCA]
    ∧ (launch []).mode = .mode64 := by decide +kernel
-- SaeVectorLength: in Mode32 with both optional prefixes, 67H first; and the fields of the second clause
theorem wit_sae_vl : SoundBytes .mode32 (codeBytes (launch32 [0x67, 0x36, 0x62, 0xF1, 0xFD, 0x18, 0xE6, 0xCA]))
    [0x67, 0x36] [0x62, 0xF1, 0xFD, 0x18, 0xE6] (.reg 2) :=
  ⟨by decide, .evex _ _ _ (by decide) (by decide) (by decide) rfl (by decide) (by decide) (by decide), [0xCA],
    wit_operand _, by decide +kernel⟩
theorem wit_sae_mismatch : SaeMismatch [0x62, 0xF1, 0xFD, 0x18, 0xE6] (.reg 2) := ⟨_, _, _, rfl, by decide⟩
theorem wit_sae_ignored : ([0x67, 0x36] : List Byte) = (⟨some .ss, true⟩ : Prefixes).bytes.reverse
    ∧ (0x18#8).extractLsb' 5 2 ≠ 2#2 ∧ (0x18#8).getLsbD 4 = true ∧ (0x18#8).getLsbD 3 = true
    ∧ (0x18#8).getLsbD 7 = false ∧ (0xCA#8).extractLsb' 6 2 = 3#2 ∧ (0xF1#8).extractLsb' 0 4 = 1#4
    ∧ (0xF1#8).extractLsb' 4 4 = 15#4 := by decide
-- Mode32NeedsPrefixBits
theorem wit_mode32 : (launch32 [0xC5, 0x39, 0xE6, 0xCA]).mode = .mode32
    ∧ codeBytes (launch32 [0xC5, 0x39, 0xE6, 0xCA]) = [] ++ 0xC5#8 :: 0x39#8 :: [0xE6, 0xCA]
    ∧ (0x39#8).extractLsb' 6 2 ≠ 3#2 := by decide +kernel
-- TooLongFaults: 16 bytes, the overrides among the 66H bytes; the last byte is the disp8 of 16-bit addressing
theorem wit_too_long :
    let pre : List Byte := 0x2E :: List.replicate 9 0x66 ++ [0x67, 0x66]
    (∀ b ∈ pre, isSegOverride b = true ∨ b = 0x66#8 ∨ b = 0x67#8) ∧ pre.countP isSegOverride = 1 ∧ pre.count 0x67#8 = 1
    ∧ 0x66#8 ∈ pre ∧ parseOperand (shortAddress .mode32 pre) [0x4C, 0x12] = .ok (1, .addr16, [])
    ∧ 15 < (pre ++ ([0x0F, 0xE6] ++ [0x4C, 0x12])).length
    ∧ codeBytes (launch32 (pre ++ ([0x0F, 0xE6] ++ [0x4C, 0x12]))) = (pre ++ ([0x0F, 0xE6] ++ [0x4C, 0x12])).take 15 := by
  decide +kernel
-- StepRunsDecoded
theorem wit_step : decode (decodeEnv (launch [0xC5, 0xF9, 0xE6, 0xCA])) (codeBytes (launch [0xC5, 0xF9, 0xE6, 0xCA]))
    = .ok (.vex128c5 np 1 (.reg 2), []) := by decide +kernel
-- CodeAtRuns
theorem wit_code_at : (Instr.vex128c5 np 1 (.reg 2)).wf .mode64 = true
    ∧ ∀ o, o < (Instr.vex128c5 np 1 (.reg 2)).encode.length →
      codeByte (launch [0xC5, 0xF9, 0xE6, 0xCA]) o = (Instr.vex128c5 np 1 (.reg 2)).encode[o]? := by decide +kernel
-- StepOfRejectedBytes, each clause
theorem wit_rejected :
    decode (decodeEnv (launch [0xC5, 0xF1, 0xE6, 0xCA])) (codeBytes (launch [0xC5, 0xF1, 0xE6, 0xCA])) = .error .ud
    ∧ decode (decodeEnv (launch (List.replicate 15 0x66))) (codeBytes (launch (List.replicate 15 0x66))) = .error .tooLong
    ∧ decode (decodeEnv (launch [0x90])) (codeBytes (launch [0x90])) = .error .otherInstruction := by decide +kernel
-- FetchWordRuns
theorem wit_fetch_word : decodeTableWord 32 0x660FE6CA = some (.sse 0 np 1 (.reg 2))
    ∧ decodeTableWord 56 0x62F1FD48E6CA00 = some (.evex512 np 1 nm (.reg 2)) := by decide

theorem val_two_pow_31 : val 0x41E0000000000000#64 = 2147483648 := by
  have h1 : expField 0x41E0000000000000#64 = 1054 := by decide
  have h2 : fracField 0x41E0000000000000#64 = 0 := by decide
  have h3 : signBit 0x41E0000000000000#64 = false := by decide
  simp only [val, h1, h2, h3]
  norm_num
-- ConversionByExactValue, each case: infinity, a denormal with DAZ, an overflow (the first one) and zero
theorem wit_exact_value : expField 0x7FF0000000000000#64 = 2047 ∧ (expField 1#64 = 0 ∧ fracField 1#64 ≠ 0)
    ∧ (expField 0x41E0000000000000#64 ≠ 2047 ∧ expField 0x41E0000000000000#64 ≠ 0
        ∧ trunc (val 0x41E0000000000000#64) > 2 ^ 31 - 1)
    ∧ (expField 0#64 ≠ 2047 ∧ fracField 0#64 = 0 ∧ trunc (val 0#64) = 0) := by
  refine ⟨by decide, by decide, ⟨by decide, by decide, ?_⟩, by decide, by decide, ?_⟩
  · rw [val_two_pow_31]
    norm_num [trunc]
  · have h : val 0#64 = 0 := by
      have h1 : expField 0#64 = 0 := by decide
      have h2 : fracField 0#64 = 0 := by decide
      simp [val, h1, h2]
    rw [h]
    norm_num [trunc]
-- InvalidExactly (second clause), InexactExactly, DenormalsAndZeros (each clause), ResultIsTwosComplement
theorem wit_invalid : (cvtt 0x7FF8000000000000#64 false).ie = true := by decide
theorem wit_inexact : (cvtt 0x3FF8000000000000#64 false).pe = true := by decide +kernel
theorem wit_denormal : expField 1#64 = 0 ∧ fracField 1#64 ≠ 0 ∧ expField 0x8000000000000000#64 = 0
    ∧ fracField 0x8000000000000000#64 = 0 := by decide
theorem wit_twos : (cvtt 0xC1E00000001FFFFF#64 false).ie = false := by decide +kernel
-- ConversionLemmas: the flipped pair
theorem wit_flip : (cvtt 0x3FF8000000000000#64 true).ie = false
    ∧ (cvtt (0x3FF8000000000000#64 ^^^ 0x8000000000000000#64) true).ie = false := by decide +kernel

/-- Elements for a register source: those of vector register 2. -/
def regElems (s : State) : Nat → Qword := elem64 (s.readZmm 2)

/-- All exceptions masked: no condition is unmasked, whatever is raised. -/
theorem no_unmasked (f : Form) (mk : Masking) (e : Nat → Qword) (s : State) (h : AllMasked s) :
    NoUnmaskedCondition f mk e s := ⟨fun _ => h.1, fun _ => h.2⟩

/-- RAX = 2000H and 64 bytes of zero at 2000H. -/
def zeros : State := withMem [] 0x2000#64 0x2000 (List.replicate 64 0)

-- SseConverts: a register and a memory source, without and with REX
theorem wit_sse : Enabled .sse zeros ∧ AllMasked zeros := by
  unfold Enabled AllMasked
  decide +kernel
theorem wit_sse_reg : SourceIs .sse 4 np Masking.off (.reg 2) (regElems zeros) zeros := by
  simp only [SourceIs, regElems, implies_true]
theorem wit_sse_mem : SourceIs .sse 4 np Masking.off (.mem (.base 0 .none)) (fun _ => 0) zeros := by
  simp only [SourceIs]
  decide +kernel
-- The next pc at the top of the address space: 2^32 in Mode32 (10_state.md R27), 2^64 in Mode64 (log 32).
theorem wit_next_pc_wraps :
    (match exec (.sse 0 np 1 (.reg 2)) { zeros with pc := 0xFFFFFFFFFFFFFFFE#64 } with
      | .next t => decide (t.pc = 2#64)
      | _ => false) = true
    ∧ (match exec (.sse 0 np 1 (.reg 2)) { zeros with mode := .mode32, pc := 0xFFFFFFFE#64 } with
      | .next t => decide (t.pc = 2#64)
      | _ => false) = true := by decide +kernel
-- Vex128Converts, Vex256Converts: an address that is no multiple of 16
theorem wit_vex : Enabled .vex128 zeros ∧ Enabled .vex256 zeros
    ∧ Enabled .vex128 { zeros with mode := .mode32 } := by
  unfold Enabled
  decide +kernel
theorem wit_vex128_mem : SourceIs .vex128 5 np Masking.off (.mem (.base 0 (.d8 1))) (fun _ => 0) zeros := by
  simp only [SourceIs]
  decide +kernel
theorem wit_vex256_mem : SourceIs .vex256 5 np Masking.off (.mem (.base 0 (.d8 32))) (fun _ => 0) zeros := by
  simp only [SourceIs]
  decide +kernel
theorem wit_vex256_mode32 : SourceIs .vex256 5 np Masking.off (.mem (.disp32 0x2020)) (fun _ => 0)
    { zeros with mode := .mode32 } := by
  simp only [SourceIs]
  decide +kernel
-- Evex128Converts, Evex256Converts, Evex512Converts: full-width and broadcast
theorem wit_evex : Enabled .evex128 zeros ∧ Enabled .evex256 zeros ∧ Enabled .evex512 zeros := by
  unfold Enabled
  decide +kernel
theorem wit_evex128_mem : SourceIs .evex128 7 np ⟨1, true⟩ (.mem (.base 0 (.d8 3))) (fun _ => 0) zeros := by
  simp only [SourceIs]
  decide +kernel
theorem wit_evex256_mem : SourceIs .evex256 7 np ⟨1, false⟩ (.mem (.base 0 (.d8 1))) (fun _ => 0) zeros := by
  simp only [SourceIs]
  decide +kernel
theorem wit_evex512_mem : SourceIs .evex512 6 np nm (.mem (.base 0 .none)) (fun _ => 0) zeros := by
  simp only [SourceIs]
  decide +kernel
theorem wit_evex_bcst : SourceIs .evex128 7 np nm (.bcst (.base 0 (.d8 7))) (fun _ => 0) zeros
    ∧ SourceIs .evex256 7 np nm (.bcst (.base 0 (.d8 7))) (fun _ => 0) zeros
    ∧ SourceIs .evex512 7 np nm (.bcst (.base 0 (.d8 7))) (fun _ => 0) zeros := by
  simp only [SourceIs]
  decide +kernel
-- With FAULT_SUPPRESSION and every element masked off, nothing is read: no byte need be described.
theorem wit_evex_suppressed : SourceIs .evex512 6 np ⟨1, false⟩ (.mem (.base 0 .none)) (fun _ => 1)
    { launch [] with params := ⟨false, true⟩ } := by
  simp only [SourceIs]
  decide +kernel

-- AllMaskedOff: K[1] is 0, and FCH has both mask bits of the 128-bit form clear
theorem wit_all_masked_off : ∃ t, exec (.evex128 np 3 ⟨2, false⟩ (.reg 2)) (withMask (launch []) 2 0xFC#64) = .next t :=
  next_of_completes (by decide +kernel)
theorem wit_all_masked_bits : ∀ j, j < 2 → ((withMask (launch []) 2 0xFC#64).k[(2 : KReg)]).getLsbD j = false := by
  decide +kernel
-- OpmaskBitsRead: another register and higher bits differ
theorem wit_opmask : (∃ t, exec (.evex128 np 3 ⟨2, false⟩ (.reg 2)) (launch []) = .next t)
    ∧ ∀ j, j < 2 → ((Vector.replicate 8 0xFC#64)[(2 : KReg)]).getLsbD j = ((launch []).k[(2 : KReg)]).getLsbD j :=
  ⟨next_of_completes (by decide +kernel), by decide +kernel⟩
-- MaskedOffElementsUnused: element 1 is masked off and becomes a NaN
theorem wit_masked_off : (∃ t, exec (.evex128 np 3 ⟨2, false⟩ (.reg 2)) (withMask (launch []) 2 1#64) = .next t)
    ∧ ∀ j, j < 2 → computed ⟨2, false⟩ (withMask (launch []) 2 1#64) j = true →
      elem64 0x7FF80000000000000000000000000000#512 j = elem64 ((withMask (launch []) 2 1#64).readZmm 2) j :=
  ⟨next_of_completes (by decide +kernel), by decide +kernel⟩
-- BroadcastIsCopies
theorem wit_broadcast : (∃ t, exec (.evex256b np 3 nm (.base 0 .none)) zeros = .next t)
    ∧ (∃ t, exec (.evex256 np 3 nm (.reg 2)) (zeros.writeZmm 2 0) = .next t)
    ∧ ∀ j, j < 4 → elem64 (0 : VecWord) j = 0 :=
  ⟨next_of_completes (by decide +kernel), next_of_completes (by decide +kernel), by decide +kernel⟩
theorem wit_broadcast_source : SourceIs .evex256 6 np nm (.bcst (.base 0 .none)) (fun _ => 0) zeros := by
  simp only [SourceIs]
  decide +kernel
-- ResultsIgnoreMxcsr: all masked, round down, and everything unmasked
theorem wit_mxcsr : (∃ t, exec (.sse 0 np 1 (.reg 2)) { launch [] with mxcsr := 0x3F80#32 } = .next t)
    ∧ ∃ t, exec (.sse 0 np 1 (.reg 2)) { launch [] with mxcsr := 0#32 } = .next t :=
  ⟨next_of_completes (by decide +kernel), next_of_completes (by decide +kernel)⟩
-- RegisterSourceReadsNoMemory
theorem wit_register_source : (sourceOf (.vex256c4 np 1 (.reg 2))).address = none
    ∧ ∃ t, exec (.vex256c4 np 1 (.reg 2)) (launch []) = .next t := ⟨rfl, next_of_completes (by decide +kernel)⟩
-- FormsAgreeOnRegisters
theorem wit_forms_agree : ∀ i ∈ [Instr.vex128c5 np 1 (.reg 2), .vex128c4 np 1 (.reg 2), .vex256c5 np 1 (.reg 2),
    .vex256c4 np 1 (.reg 2), .evex128 np 1 Masking.off (.reg 2), .evex256 np 1 Masking.off (.reg 2)],
    completes (exec i (launch [])) = true := by decide +kernel
-- MemoryIsLittleEndian
theorem wit_little_endian : (match readMemory .vex128 false .ds 0x2001#64 (List.range 16) zeros with
    | .next _ => true
    | _ => false) = true := by decide +kernel
/-- RAX = FFFFFFFFFFFFFFF8H, and memory of zeros at both ends of the address space. -/
def wrapped : State :=
  let s := zeros
  { s with gpr := s.gpr.set 0 0xFFFFFFFFFFFFFFF8#64,
           mem := describe [] 0 (List.replicate 8 1) ++ describe [] 0xFFFFFFFFFFFFFFF8 (List.replicate 8 2) }
-- The operand crosses the top of the address space (log 14): its byte 8 is the byte at 0.
theorem wit_little_endian_wrap : (match readMemory .vex128 false .ds 0xFFFFFFFFFFFFFFF8#64 (List.range 16) wrapped with
    | .next v => decide (v = 0x01010101010101010202020202020202#512)
    | _ => false) = true ∧ byteAddr wrapped 0xFFFFFFFFFFFFFFF8#64 8 = 0#64 := by decide +kernel
-- FaultSuppressionOnlyAllowsMore
theorem wit_suppression : zeros.params.faultSuppression = false
    ∧ ∃ t, exec (.evex512 np 1 ⟨1, false⟩ (.mem (.base 0 .none))) zeros = .next t :=
  ⟨by decide +kernel, next_of_completes (by decide +kernel)⟩
-- TaskSwitchedFaults: both clauses
theorem wit_task_switched : ({ launch [] with cr0 := 9#32 } : State).cr0.getLsbD 3 = true
    ∧ ({ launch [] with cr0 := 9#32 } : State).enabled .evex512 = true
    ∧ ({ launch [] with cr0 := 9#32, xcr0 := 7#8 } : State).enabled .evex512 = false := by decide +kernel
-- 60_exceptions.md R149, Mode64: SS by override gives `#SS(0)` at [RAX], no override `#GP(0)`; 30_encoding.md R61: DS, ES and
-- CS overrides are ignored, so [RSP] stays `#SS(0)`, and an FS override replaces it.
theorem test_segment_override : faults (withMem [0x36, 0xC5, 0xF9, 0xE6, 0x08] 0x800000000000#64 0x2000 []) = some 12
    ∧ faults (withMem [0xC5, 0xF9, 0xE6, 0x08] 0x800000000000#64 0x2000 []) = some 13 := by decide +kernel
/-- A prefix before `vcvttpd2dq xmm1, [rsp]`, with RSP not canonical. -/
def atRsp (b : Byte) : State :=
  let s := launch [b, 0xC5, 0xF9, 0xE6, 0x0C, 0x24]
  { s with gpr := s.gpr.set 4 0x800000000000#64 }
theorem test_segment_ignored : [0x3E, 0x26, 0x2E, 0x36, 0x64].map (fun b => faults (atRsp b))
    = [some 12, some 12, some 12, some 12, some 13] := by decide +kernel
-- SegmentChecksFault: the four clauses, at the first byte that fails
/-- A memory operand at RAX. -/
def atRax : Instr := .sse 0 np 1 (.mem (.base 0 .none))
/-- `zeros` with RAX at the last aligned operand below the hole in the canonical addresses, and one byte beyond it. -/
def edge64 : State := { zeros with gpr := zeros.gpr.set 0 0x7FFFFFFFFFF0#64 }
theorem wit_segment_64 : byteRead .vex128 Masking.off (.mem (.base 0 (.d8 1))) edge64 15 = true
    ∧ operandAddr .vex128 5 np (.mem (.base 0 (.d8 1))) (.base 0 (.d8 1)) edge64 = 0x7FFFFFFFFFF1#64
    ∧ canonical false (byteAddr edge64 0x7FFFFFFFFFF1#64 15) = false
    ∧ canonical false (byteAddr edge64 0x7FFFFFFFFFF1#64 14) = true ∧ edge64.enabled .vex128 = true := by decide +kernel
/-- `zeros` in Mode32 with a flat limit of FFFFH and RAX at the top of it. -/
def top32 : State := { zeros with mode := .mode32, gpr := zeros.gpr.set 0 0xFFF8#64 }
theorem wit_segment_32 : top32.mode = .mode32 ∧ top32.realMode = false ∧ top32.enabled .vex128 = true
    ∧ (top32.segment .ds).limit.toNat < (operandEA .vex128 4 np (.mem (.base 0 .none)) (.base 0 .none) top32).toNat + 8
    ∧ byteRead .vex128 Masking.off (.mem (.base 0 .none)) top32 8 = true := by decide +kernel
/-- Real-address mode, the operand at 10000H, aligned and its first byte outside. -/
def topReal : State := { top32 with cr0 := 0#32, gpr := zeros.gpr.set 0 0x10000#64 }
theorem wit_segment_real : topReal.mode = .mode32 ∧ topReal.realMode = true ∧ topReal.enabled .sse = true
    ∧ (operandAddr .sse 4 np (.mem (.base 0 .none)) (.base 0 .none) topReal).toNat % 16 = 0
    ∧ byteRead .sse Masking.off (.mem (.base 0 .none)) topReal 0 = true
    ∧ 0xFFFF < (operandEA .sse 4 np (.mem (.base 0 .none)) (.base 0 .none) topReal).toNat + 0 := by decide +kernel
theorem wit_segment_align : (operandAddr .sse 4 np (.mem (.base 0 (.d8 8))) (.base 0 (.d8 8)) zeros).toNat % 16 = 8
    ∧ zeros.enabled .sse = true := by decide +kernel
/-- `zeros` with one region of the memory oracle, at the last byte of a 16-byte operand at 2000H. -/
def oneRegion (a : OracleAnswer) (cpl : BitVec 2) : State := { zeros with oracle := [⟨0x200F, 0x1000, a⟩], cpl := cpl }
theorem wit_reaches_read (a : OracleAnswer) : ReachesRead atRax (.base 0 .none) (oneRegion a 3#2) := by
  cases a <;> exact ⟨by decide, ⟨by decide +kernel, by decide +kernel⟩, by decide +kernel, by decide +kernel⟩
theorem wit_reads_region (a : OracleAnswer) :
    ReadsRegion atRax (.base 0 .none) (oneRegion a 3#2) ⟨0x200F, 0x1000, a⟩ 15 := by
  cases a <;> exact ⟨by decide +kernel, by decide +kernel, by decide +kernel⟩
/-- The one region is the only one that can be read. -/
theorem region_answer {a : OracleAnswer} {r : OracleRegion} {o : Nat}
    (h : ReadsRegion atRax (.base 0 .none) (oneRegion a 3#2) r o) : r.answer = a := by
  have h1 : r ∈ [(⟨0x200F, 0x1000, a⟩ : OracleRegion)] := h.1
  rw [List.mem_singleton.1 h1]
-- OracleSegmentFaults, PageFaults (each cause), ReadRefusals (each clause)
theorem wit_oracle_segment : OracleAnswer.gp0.isSegment = true ∧ OracleAnswer.ss0.isSegment = true := by decide
theorem wit_page_faults : ∀ a ∈ [OracleAnswer.notPresent, .supervisor, .reservedBit, .protectionKey],
    a.isPageFault 3#2 = true ∧ a.isSegment = false := by decide
theorem wit_device : OracleAnswer.device.isSegment = false ∧ OracleAnswer.device.isPageFault 3#2 = false := by decide
/-- Alignment checking on: CR0.AM, EFLAGS.AC and CPL 3. -/
def checking : State :=
  { zeros with cr0 := zeros.cr0 ||| 0x40000#32, eflags := zeros.eflags ||| 0x40000#32, cpl := 3#2 }
theorem wit_misaligned : checking.amAc = true
    ∧ (operandAddr .evex128 7 np (.bcst (.disp32 0x2004)) (.disp32 0x2004) { checking with pc := 0#64 }).toNat % 8 ≠ 0
    ∧ byteRead .evex128 nm (.bcst (.disp32 0x2004)) checking 0 = true := by decide +kernel
-- 20_memory.md R44, 60_exceptions.md R152: refused too when FAULT_SUPPRESSION leaves no byte to read (K[1] is 0).
theorem test_misaligned_suppressed :
    let i := Instr.evex128b np 1 ⟨1, false⟩ (.base 0 .none)
    let s := { checking with gpr := checking.gpr.set 0 0x2004#64, params := ⟨false, true⟩ }
    (match exec i s with
      | .refused r => decide (r = .alignmentCheckOpen)
      | _ => false) = true
    ∧ readOffsets .evex128 ⟨1, false⟩ true s = [] := by decide +kernel
theorem wit_reaches_misaligned :
    ReachesRead (.evex128b np 1 nm (.base 0 (.d8 1))) (.base 0 (.d8 1))
      { checking with gpr := checking.gpr.set 0 0x2004#64 } :=
  ⟨by decide, ⟨by decide +kernel, by decide +kernel⟩, by decide +kernel, by decide⟩
theorem wit_reaches_undescribed : ReachesRead atRax (.base 0 .none) (launch []) :=
  ⟨by decide, ⟨by decide +kernel, by decide +kernel⟩, by decide +kernel, by decide +kernel⟩
theorem wit_undescribed : (launch []).oracle = [] ∧ (launch []).amAc = false
    ∧ (launch []).mem.get (byteAddr (launch []) 0#64 0).toNat = none := by decide +kernel
-- UnmaskedConditionFaults: both causes, and `{sae}`
/-- Everything unmasked; element 0 of the source is a quiet NaN, element 1 is 0.5. -/
def unmaskedState : State := { withSrc [] 0x3FE00000000000007FF8000000000000#512 with mxcsr := 0#32 }
theorem wit_unmasked : (RaisesInvalid .sse Masking.off (regElems unmaskedState) unmaskedState
      ∧ mxIM unmaskedState.mxcsr = false)
    ∧ RaisesInexact .sse Masking.off (regElems unmaskedState) unmaskedState ∧ mxPM unmaskedState.mxcsr = false :=
  ⟨⟨⟨0, by decide +kernel⟩, by decide +kernel⟩, ⟨1, by decide +kernel⟩, by decide +kernel⟩
theorem wit_unmasked_source : SourceIs .sse 4 np Masking.off (.reg 2) (regElems unmaskedState) unmaskedState := by
  simp only [SourceIs, regElems, implies_true]
theorem wit_sae : (sourceOf (.evex512b np 1 nm (.reg 2))).sae = true ∧ (sourceOf (.sse 0 np 1 (.reg 2))).sae = false :=
  ⟨rfl, rfl⟩
-- RestartAfterFault: an unmasked invalid, then masked
theorem wit_restart :
    (∃ f, exec (.vex128c5 np 1 (.reg 2)) { withSrc [] 0x7FF8000000000000#512 with mxcsr := 0#32 } = .fault f)
    ∧ ∃ t, exec (.vex128c5 np 1 (.reg 2)) { withSrc [] 0x7FF8000000000000#512 with mxcsr := 0#32 ||| 0x1080#32 } = .next t :=
  ⟨fault_of_faulty (by decide +kernel), next_of_completes (by decide +kernel)⟩
-- StepFrame, StepKeepsInv: a step that completes, one that faults
theorem wit_step_next : ∃ t, step (launch [0xC5, 0xF9, 0xE6, 0xCA]) = .next t := next_of_completes (by decide +kernel)
theorem wit_step_fault : ∃ f, step (launch [0xC5, 0xF1, 0xE6, 0xCA]) = .fault f := fault_of_faulty (by decide +kernel)
theorem wit_step_inv : Inv (enableAll State.reset) :=
  ⟨by simp [enableAll, State.reset, Memory.wf], by decide, fun h => by simp [enableAll] at h, fun _ => by decide⟩
-- ResetInv: reset has the invariant
theorem wit_reset_inv : Inv State.reset :=
  ⟨by simp [State.reset, Memory.wf], by decide, fun _ => by decide, fun h => by simp [State.reset] at h⟩

-- Mode32FormsRefused: an extension bit in the VEX and the EVEX prefix; 16-bit addressing
theorem wit_mode32_extension :
    SoundBytes .mode32 (codeBytes (launch32 [0x64, 0xC4, 0xC1, 0x79, 0xE6, 0xCA])) [0x64] [0xC4, 0xC1, 0x79, 0xE6] (.reg 2)
    ∧ ExtensionBits [0xC4, 0xC1, 0x79, 0xE6] ∧ ExtensionBits [0x62, 0xE1, 0xFD, 0x08, 0xE6] :=
  ⟨⟨by decide, .vex3 _ _ (by decide) (by decide) (by decide) (by decide) (by decide), [0xCA], wit_operand _,
      by decide +kernel⟩, .inl ⟨_, _, rfl, by decide⟩, .inr ⟨_, _, _, rfl, by decide⟩⟩
theorem wit_addr16 :
    SoundBytes .mode32 (codeBytes (launch32 [0x67, 0xC5, 0xF9, 0xE6, 0x0E, 0x34, 0x12])) [0x67] [0xC5, 0xF9, 0xE6] .addr16
    ∧ ¬ ExtensionBits [0xC5, 0xF9, 0xE6] ∧ ¬ SaeMismatch [0xC5, 0xF9, 0xE6] .addr16 ∧ ¬ Repeated [0x67#8] :=
  ⟨⟨by decide, .vex2 _ (by decide) (by decide) (by decide) (by decide), [0x0E, 0x34, 0x12], ⟨1, [], by decide⟩,
      by decide +kernel⟩, by simp [ExtensionBits], by simp [SaeMismatch], by simp [Repeated, isSegOverride]⟩
-- OtherOpcodesRefused: F2H after 66H, and no prefix
theorem wit_other_opcodes :
    codeBytes (launch [0x66, 0xF2, 0x48, 0x0F, 0xE6]) = [0x66, 0xF2] ++ ([0x48] ++ (0x0F#8 :: 0xE6#8 :: []))
    ∧ codeBytes (launch32 [0x0F, 0xE6, 0xCA]) = [] ++ ([] ++ (0x0F#8 :: 0xE6#8 :: [0xCA])) := by decide +kernel
-- RepeatedPrefixesRefused: two segment overrides, and two 67H
theorem wit_repeated :
    SoundBytes .mode64 (codeBytes (launch [0x26, 0x66, 0x64, 0x0F, 0xE6, 0xCA])) [0x26, 0x66, 0x64] [0x0F, 0xE6] (.reg 2)
    ∧ ¬ SaeMismatch [0x0F, 0xE6] (.reg 2) ∧ Repeated [0x26#8, 0x66#8, 0x64#8] ∧ Repeated [0x67#8, 0x67#8] :=
  ⟨⟨by decide, .sse (by decide), [0xCA], wit_operand _, by decide +kernel⟩, by simp [SaeMismatch],
    .inl (by decide), .inr (by decide)⟩
-- EvexReservedRefused: P0[3:2], and P1[2]
theorem wit_reserved : ReservedBits [0x62, 0xF5, 0xFD, 0x08, 0xE6] ∧ ReservedBits [0x62, 0xF1, 0xF9, 0x08, 0xE6]
    ∧ VexHead .mode64 [0x62, 0xF5, 0xFD, 0x08, 0xE6] ∧ VexHead .mode64 [0x62, 0xF1, 0xF9, 0x08, 0xE6]
    ∧ codeBytes (launch [0x67, 0x62, 0xF5, 0xFD, 0x08, 0xE6]) = [0x67] ++ ([0x62, 0xF5, 0xFD, 0x08, 0xE6] ++ []) :=
  ⟨⟨_, _, _, rfl, by decide⟩, ⟨_, _, _, rfl, by decide⟩, .evex _ _ _ (by decide) (by decide) (by decide),
    .evex _ _ _ (by decide) (by decide) (by decide), by decide +kernel⟩
-- SoundBytesDecode: 67H with a register source in Mode32, the prefixes in another order, a byte of the next instruction
theorem wit_sound :
    SoundBytes .mode32 [0x67, 0x66, 0x2E, 0x0F, 0xE6, 0xCA, 0x90] [0x67, 0x66, 0x2E] [0x0F, 0xE6] (.reg 2)
    ∧ ¬ Repeated [0x67#8, 0x66#8, 0x2E#8] ∧ ¬ ExtensionBits [0x0F, 0xE6] ∧ RawOperand.isReg (.reg 2) = true :=
  ⟨⟨by decide, .sse (by decide), [0xCA, 0x90], ⟨1, [0x90], by decide⟩, by decide⟩, by simp [Repeated, isSegOverride],
    by simp [ExtensionBits], rfl⟩

end Sys2Proof.Tests
end

section
/-! PROOFS. The state as a whole (10_state.md): what a step changes and keeps, reset and INIT, and what an instruction does
not read. -/

namespace Sys2Proof.Machine

/-! ### What a completed or faulting step leaves behind -/

/-- MXCSR[31:16] after setting flags: IE and PE lie below. -/
theorem extractLsb'_setFlags_reserved (m : BitVec 32) (ie pe : Bool) :
    (setFlags m ie pe).extractLsb' 16 16 = m.extractLsb' 16 16 := by
  apply BitVec.eq_of_getLsbD_eq
  intro b _
  rw [BitVec.getLsbD_extractLsb', BitVec.getLsbD_extractLsb', getLsbD_setFlags_other _ _ _ _ (by omega) (by omega)]

/-- The frame of `commit`: every field but the vector registers, MXCSR and `pc`. -/
theorem sameElsewhere_commit (d : VReg) (v : VecWord) (m : BitVec 32) (len : Nat) (s : State) :
    SameElsewhere s (commit d v m len s) := by
  constructor <;> simp

/-- The frame of the two free draws of 40_conversion.md R106. -/
theorem sameElsewhere_drawFlags (s : State) : SameElsewhere s s.drawFlags := by
  constructor <;> simp

/-- What the draws leave is a state that a SIMD floating-point fault may carry. -/
theorem faultStateOf_drawFlags (s : State) : FaultStateOf s s.drawFlags where
  zmm := rfl
  pc := rfl
  sticky := by
    rw [State.drawFlags_mxcsr, mxIE_setFlags, mxPE_setFlags]
    exact ⟨fun h => by rw [h, Bool.true_or], fun h => by rw [h, Bool.true_or]⟩
  controls b h0 h5 := getLsbD_setFlags_other _ _ _ b h0 h5
  rest := sameElsewhere_drawFlags s

/-- An instruction that completes has committed some vector to its destination and at most raised IE and PE. -/
theorem exec_next_eq_commit {i : Instr} {s t : State} (h : exec i s = .next t) :
    ∃ v ie pe, t = commit i.fields.dst v (setFlags s.mxcsr ie pe) i.length s := by
  rw [exec_eq_convert, convert_eq_next] at h
  obtain ⟨-, -, v, m, -, hm, rfl⟩ := h
  obtain ⟨ie, pe, rfl⟩ := respondFlags_next hm
  exact ⟨_, ie, pe, rfl⟩

/-- A fault of a step carries the state before it, or, after an unmasked SIMD floating-point condition, that state with
flags drawn. -/
theorem step_fault_cases {s : State} {e : Fault} (h : step s = .fault e) :
    e.state = s ∨ (e = .xm s.drawFlags ∧ s.osxmmexcpt = true) ∨ (e = .ud s.drawFlags ∧ s.osxmmexcpt = false) := by
  rcases Result.bind_eq_fault.1 h with hf | ⟨i, -, hx⟩
  · exact .inl (fetchDecode_fault_state hf)
  · rw [exec_eq_convert] at hx
    exact convert_fault_state hx

/-- Settles O51: a next state is a `commit`, a fault's state is the old one or the drawn one, and both have their frame. -/
theorem stepFrame : Obligations.StepFrame := by
  unfold Obligations.StepFrame
  refine ⟨fun s t h => ?_, fun s f h => ?_⟩
  · obtain ⟨i, rest, hdec, hx⟩ := (step_eq_next s t).1 h
    obtain ⟨v, ie, pe, rfl⟩ := exec_next_eq_commit hx
    refine ⟨i, rest, hdec, fun r hr => readZmm_commit_other _ _ _ _ _ _ hr,
      fun b h0 h5 => getLsbD_setFlags_other _ _ _ b h0 h5, fun hie => ?_, fun hpe => ?_, toNat_nextPc s i.length,
      sameElsewhere_commit _ _ _ _ s⟩
    · rw [State.commit_mxcsr, mxIE_setFlags, hie, Bool.true_or]
    · rw [State.commit_mxcsr, mxPE_setFlags, hpe, Bool.true_or]
  · rcases step_fault_cases h with hs | ⟨rfl, ho⟩ | ⟨rfl, ho⟩
    · exact .inl hs
    · exact .inr ⟨faultStateOf_drawFlags s, .inl ⟨rfl, ho⟩⟩
    · exact .inr ⟨faultStateOf_drawFlags s, .inr ⟨rfl, ho⟩⟩

/-! ### The invariant -/

/-- In Mode32 the next `pc` stays within 32 bits. -/
theorem nextPc_lt_of_mode32 {s : State} (h : s.mode = .mode32) (len : Nat) : (s.nextPc len).toNat < 2 ^ 32 := by
  rw [toNat_nextPc, h]
  exact Nat.mod_lt _ (by decide)

theorem inv_commit {s : State} (h : Inv s) (d : VReg) (v : VecWord) (ie pe : Bool) (len : Nat) :
    Inv (commit d v (setFlags s.mxcsr ie pe) len s) where
  mem := h.mem
  reserved := (extractLsb'_setFlags_reserved _ ie pe).trans h.reserved
  pc hm := nextPc_lt_of_mode32 (s := s) hm len
  mode := h.mode

theorem inv_drawFlags {s : State} (h : Inv s) : Inv s.drawFlags where
  mem := h.mem
  reserved := (extractLsb'_setFlags_reserved _ _ _).trans h.reserved
  pc := h.pc
  mode := h.mode

/-- The record of a fault adds at most CR2, of which the invariant says nothing. -/
theorem inv_recorded {f : Fault} (h : Inv f.state) : Inv f.recorded := by
  cases f with
  | pf code linear s => exact ⟨h.mem, h.reserved, h.pc, h.mode⟩
  | ud s | nm s | ss0 s | gp0 s | xm s => exact h

/-- Settles O52: `commit`, the draws and the record of a fault each keep the invariant. -/
theorem stepKeepsInv : Obligations.StepKeepsInv := by
  unfold Obligations.StepKeepsInv
  refine ⟨fun s t hs h => ?_, fun s f hs h => ?_⟩
  · obtain ⟨i, -, -, hx⟩ := (step_eq_next s t).1 h
    obtain ⟨v, ie, pe, rfl⟩ := exec_next_eq_commit hx
    exact inv_commit hs _ v ie pe _
  · have hf : Inv f.state := by
      rcases step_fault_cases h with e | ⟨rfl, -⟩ | ⟨rfl, -⟩
      · exact e ▸ hs
      · exact inv_drawFlags hs
      · exact inv_drawFlags hs
    exact ⟨hf, inv_recorded hf⟩

/-! ### What an instruction does not read -/

theorem any_range_congr {n : Nat} {p q : Nat → Bool} (h : ∀ j, j < n → p j = q j) :
    (List.range n).any p = (List.range n).any q := by
  rw [Bool.eq_iff_iff, List.any_eq_true, List.any_eq_true]
  exact exists_congr fun j => and_congr_right fun hj => by rw [h j (List.mem_range.1 hj)]

/-- Two states agree on what the skeleton reads besides its source operand: whether the form may run, the vector registers,
MXCSR, and which elements are computed. -/
structure SameInputs (f : Form) (mk : Masking) (s s' : State) : Prop where
  enabled : s'.enabled f = s.enabled f
  ts : s'.ts = s.ts
  zmm : s'.zmm = s.zmm
  mxcsr : s'.mxcsr = s.mxcsr
  computed : ∀ j, j < f.kl → computed mk s' j = computed mk s j

section
variable {f : Form} {mk : Masking} {s s' : State}

theorem SameInputs.convertedAt_eq (h : SameInputs f mk s s') (src : Source) (v : VecWord) (j : Nat) :
    convertedAt src v s' j = convertedAt src v s j := by
  rw [convertedAt, convertedAt, h.mxcsr]

theorem SameInputs.anyInvalid_eq (h : SameInputs f mk s s') (src : Source) (v : VecWord) :
    anyInvalid f mk src v s' = anyInvalid f mk src v s :=
  any_range_congr fun j hj => by rw [h.computed j hj, h.convertedAt_eq]

theorem SameInputs.anyInexact_eq (h : SameInputs f mk s s') (src : Source) (v : VecWord) :
    anyInexact f mk src v s' = anyInexact f mk src v s :=
  any_range_congr fun j hj => by rw [h.computed j hj, h.convertedAt_eq]

theorem SameInputs.readZmm_eq (h : SameInputs f mk s s') (r : VReg) : s'.readZmm r = s.readZmm r := by
  rw [State.readZmm, State.readZmm, h.zmm]

theorem SameInputs.destValue_eq (h : SameInputs f mk s s') (d : VReg) (src : Source) (v : VecWord) :
    destValue f d mk src v s' = destValue f d mk src v s := by
  have hlow : packLow f.kl (destElem d mk src v s') = packLow f.kl (destElem d mk src v s) :=
    packLow_congr _ _ _ fun j hj => by
      rw [destElem, destElem, h.computed j hj, h.convertedAt_eq, h.readZmm_eq]
  unfold destValue
  rw [hlow, h.readZmm_eq]

/-- A response that completes depends on MXCSR alone. -/
theorem respondFlags_next_congr {sae ie pe : Bool} {m : BitVec 32} (hm : s'.mxcsr = s.mxcsr)
    (h : respondFlags sae ie pe s = .next m) : respondFlags sae ie pe s' = .next m := by
  rcases respondFlags_cases sae ie pe s with ⟨hsae, e⟩ | ⟨hsae, hu, e⟩ | ⟨-, -, -, e⟩ | ⟨-, -, -, e⟩
  · rw [← h, e, respondFlags, if_pos hsae, hm]
  · rw [← h, e, respondFlags, hsae, if_neg Bool.false_ne_true, hm, hu, if_neg Bool.false_ne_true]
  · simp [e] at h
  · simp [e] at h

/-- An instruction that completes gives the same commit from every state with the same inputs in which its source operand
reads the same. -/
theorem SameInputs.exec_next {i : Instr} {t : State} (h : SameInputs i.fields.form i.fields.mask s s')
    (hsrc : ∀ v, readSource i.fields.form i.length i.fields.pre i.fields.mask (sourceOf i) s = .next v →
      readSource i.fields.form i.length i.fields.pre i.fields.mask (sourceOf i) s' = .next v)
    (hx : exec i s = .next t) :
    ∃ v m, t = commit i.fields.dst v m i.length s ∧ exec i s' = .next (commit i.fields.dst v m i.length s') := by
  rw [exec_eq_convert, convert_eq_next] at hx
  obtain ⟨hen, hts, v, m, hv, hm, rfl⟩ := hx
  refine ⟨_, m, rfl, ?_⟩
  rw [exec_eq_convert, convert_eq_next]
  refine ⟨h.enabled.trans hen, h.ts.trans hts, v, m, hsrc v hv, ?_, by rw [h.destValue_eq]⟩
  rw [h.anyInvalid_eq, h.anyInexact_eq]
  exact respondFlags_next_congr h.mxcsr hm

/-- The bytes to read depend on the opmask registers through the computed elements alone. -/
theorem readOffsets_congr (hc : ∀ j, j < f.kl → computed mk s' j = computed mk s j) (hp : s'.params = s.params)
    (bcst : Bool) : readOffsets f mk bcst s' = readOffsets f mk bcst s := by
  have hneeded : (List.range f.kl).filter (computed mk s') = (List.range f.kl).filter (computed mk s) :=
    List.filter_congr fun j hj => hc j (List.mem_range.1 hj)
  rw [readOffsets, readOffsets, hneeded, hp]

end

/-- Gathering bytes reads no opmask register. -/
theorem gatherBytes_with_k (s : State) (k' : Vector (BitVec 64) 8) (addr : BitVec 64) (offs : List Nat) :
    gatherBytes { s with k := k' } addr offs = gatherBytes s addr offs := by
  induction offs with
  | nil => rfl
  | cons o os ih =>
    rw [gatherBytes, gatherBytes, ih]
    rfl

/-- The read of a memory operand at given offsets reads no opmask register. -/
theorem readMemory_next_with_k {f : Form} {bcst : Bool} {g : SegReg} {ea : BitVec 64} {offs : List Nat} {s : State}
    {v : VecWord} (k' : Vector (BitVec 64) 8) (h : readMemory f bcst g ea offs s = .next v) :
    readMemory f bcst g ea offs { s with k := k' } = .next v := by
  rw [readMemory_eq_next] at h ⊢
  rw [gatherBytes_with_k]
  exact h

/-- The source operand reads the opmask registers through the computed elements alone. -/
theorem readSource_next_with_k {f : Form} {len : Nat} {p : Prefixes} {mk : Masking} {src : Source} {s : State}
    {v : VecWord} {k' : Vector (BitVec 64) 8} (hc : ∀ j, j < f.kl → computed mk { s with k := k' } j = computed mk s j)
    (h : readSource f len p mk src s = .next v) : readSource f len p mk src { s with k := k' } = .next v := by
  cases src with
  | reg r | regSae r => exact h
  | mem a | bcst a =>
    rw [readSource, readOffsets_congr hc rfl]
    exact readMemory_next_with_k k' h

/-- Which elements are computed depends on the low `KL` bits of the writemask, if there is one. -/
theorem computed_with_k {mk : Masking} {s : State} {k' : Vector (BitVec 64) 8} {j : Nat}
    (h : mk.k ≠ 0 → k'[mk.k].getLsbD j = s.k[mk.k].getLsbD j) : computed mk { s with k := k' } j = computed mk s j := by
  by_cases hk : mk.k = 0
  · simp [computed, hk]
  · simp only [computed, h hk]

/-- Settles O30: the opmask registers enter through the computed elements alone, in the operand read and in the result. -/
theorem opmaskBitsRead : Obligations.OpmaskBitsRead := by
  unfold Obligations.OpmaskBitsRead
  intro i s t k' hk hx
  have hc : ∀ j, j < i.fields.form.kl →
      computed i.fields.mask { s with k := k' } j = computed i.fields.mask s j :=
    fun j hj => computed_with_k fun h0 => hk h0 j hj
  have hsame : SameInputs i.fields.form i.fields.mask s { s with k := k' } := ⟨rfl, rfl, rfl, rfl, hc⟩
  obtain ⟨v, m, rfl, hx'⟩ := hsame.exec_next (fun _ => readSource_next_with_k hc) hx
  exact hx'

/-- A register source is read from the vector registers alone. -/
theorem readSource_eq_of_register {src : Source} {s s' : State} (h : src.address = none) (hz : s'.zmm = s.zmm) (f : Form)
    (len : Nat) (p : Prefixes) (mk : Masking) : readSource f len p mk src s' = readSource f len p mk src s := by
  cases src with
  | reg r | regSae r => rw [readSource, readSource, State.readZmm, State.readZmm, hz]
  | mem a | bcst a => simp [Source.address] at h

/-- Settles O34: the skeleton's own inputs and a register source lie outside the replaced fields. -/
theorem registerSourceReadsNoMemory : Obligations.RegisterSourceReadsNoMemory := by
  unfold Obligations.RegisterSourceReadsNoMemory
  intro i s t g sg c me o hsrc hx
  have hsame : SameInputs i.fields.form i.fields.mask s { s with gpr := g, seg := sg, cpl := c, mem := me, oracle := o } :=
    ⟨rfl, rfl, rfl, rfl, fun _ _ => rfl⟩
  obtain ⟨v, m, rfl, hx'⟩ := hsame.exec_next
    (fun _ hv => (readSource_eq_of_register hsrc hsame.zmm _ _ _ _).trans hv) hx
  exact hx'

/-! ### Reset, INIT and the launch -/

/-- The general registers after reset and INIT, but for the processor signature in RDX. -/
theorem gprAtReset_of_ne {r : Gpr} (h : r ≠ 2) : gprAtReset[r] = 0 := by
  have hr : 2 ≠ r.val := fun e => h (Fin.ext e.symm)
  simp [gprAtReset, hr]

/-- INIT leaves of CR0 at most the cache bits, so protection is off. -/
theorem realMode_init (s : State) : s.init.realMode = true := by
  simp [State.realMode, State.init]

/-- Settles O54: the values stand in `State.reset` and `State.init`; only the register files and CR0.PE need an argument. -/
theorem resetValues : Obligations.ResetValues := by
  unfold Obligations.ResetValues
  refine ⟨⟨fun r => ?_, fun k => ?_, rfl, fun r hr => gprAtReset_of_ne hr, rfl, rfl, rfl, rfl, rfl, rfl, rfl, rfl,
      rfl⟩,
    fun s => ⟨rfl, rfl, rfl, fun r hr => gprAtReset_of_ne hr, rfl, rfl, rfl, rfl, rfl, rfl, realMode_init s, rfl⟩⟩
  · simp [State.readZmm, State.reset]
  · simp [State.reset]

/-- Every form needs an enable in CR4: OSFXSR or OSXSAVE. -/
theorem enabled_eq_false_of_cr4_zero {s : State} (h : s.cr4 = 0#32) (f : Form) : s.enabled f = false := by
  have hfx : s.osfxsr = false := by simp [State.osfxsr, h]
  have hxs : s.osxsave = false := by simp [State.osxsave, h]
  cases f <;> simp [State.enabled, State.systemEnabled, hfx, hxs]

/-- An instruction whose form is not enabled is `#UD` before anything else (60_exceptions.md R144). -/
theorem exec_eq_ud_of_disabled {i : Instr} {s : State} (h : s.enabled i.fields.form = false) :
    exec i s = .fault (.ud s) := by
  rw [exec_eq_convert, convert, if_pos h, raise]

/-- Settles O55: reset and INIT clear CR4, which every form needs. -/
theorem noFormRunsAfterReset : Obligations.NoFormRunsAfterReset := by
  unfold Obligations.NoFormRunsAfterReset
  exact fun i s => ⟨exec_eq_ud_of_disabled (enabled_eq_false_of_cr4_zero rfl _),
    exec_eq_ud_of_disabled (enabled_eq_false_of_cr4_zero rfl _)⟩

theorem inv_reset : Inv State.reset where
  mem := reset_mem_wf
  reserved := by decide
  pc _ := by decide
  mode h := by cases h

theorem inv_init {s : State} (h : Inv s) : Inv s.init where
  mem := h.mem
  reserved := h.reserved
  pc _ := show (0xFFF0#64).toNat < 2 ^ 32 by decide
  mode hm := by cases hm

/-- The launch turns protection on and virtual-8086 mode off. -/
theorem realOrV86_withFetchWord (s : State) (nbits w : Nat) : (s.withFetchWord nbits w).realOrV86 = false := by
  simp [State.realOrV86, State.realMode, State.withFetchWord]

theorem inv_withFetchWord {s : State} (h : Inv s) (nbits w : Nat) : Inv (s.withFetchWord nbits w) where
  mem := placeCode_wf 0 _ h.mem
  reserved := by simpa [State.withFetchWord] using h.reserved
  pc hm := by simp [State.withFetchWord] at hm
  mode _ := realOrV86_withFetchWord s nbits w

/-- Settles O53: reset, INIT and the launch each give a state with the invariant. -/
theorem resetInv : Obligations.ResetInv := by
  unfold Obligations.ResetInv
  exact ⟨inv_reset, fun _ h => inv_init h, fun _ nbits w h => inv_withFetchWord h nbits w⟩

end Sys2Proof.Machine
end

section
/-! PROOFS. The memory operand (20_memory.md): addresses and their bytes, what a read answers, and the broadcast. -/

namespace Sys2Proof.Machine

/-! ### Canonical addresses -/

/-- The quotient of an address by `2^n` holds its bits from `n` up. -/
theorem testBit_toNat_shiftRight (a : BitVec 64) (n i : Nat) : (a.toNat >>> n).testBit i = a.getLsbD (n + i) :=
  Nat.testBit_shiftRight _

theorem toNat_shiftRight_eq_zero_iff {n : Nat} (a : BitVec 64) :
    a.toNat >>> n = 0 ↔ ∀ b, n ≤ b → b < 64 → a.getLsbD b = false := by
  constructor
  · intro h b hn _
    rw [← Nat.add_sub_cancel' hn, ← testBit_toNat_shiftRight, h, Nat.zero_testBit]
  · intro h
    apply Nat.eq_of_testBit_eq
    intro i
    rw [testBit_toNat_shiftRight, Nat.zero_testBit]
    by_cases hi : n + i < 64
    · exact h _ (Nat.le_add_right n i) hi
    · exact BitVec.getLsbD_of_ge a _ (Nat.not_lt.1 hi)

theorem toNat_shiftRight_eq_ones_iff {n : Nat} (a : BitVec 64) :
    a.toNat >>> n = 2 ^ (64 - n) - 1 ↔ ∀ b, n ≤ b → b < 64 → a.getLsbD b = true := by
  constructor
  · intro h b hn hb
    rw [← Nat.add_sub_cancel' hn, ← testBit_toNat_shiftRight, h, Nat.testBit_two_pow_sub_one]
    exact decide_eq_true (by omega)
  · intro h
    apply Nat.eq_of_testBit_eq
    intro i
    rw [testBit_toNat_shiftRight, Nat.testBit_two_pow_sub_one]
    by_cases hi : n + i < 64
    · rw [h _ (Nat.le_add_right n i) hi, decide_eq_true (by omega)]
    · rw [BitVec.getLsbD_of_ge a _ (Nat.not_lt.1 hi), decide_eq_false (by omega)]

/-- Bits 63 down to `n` are all equal when they are all 0 or all 1. -/
theorem toNat_shiftRight_zero_or_ones_iff {n : Nat} (hn : n < 64) (a : BitVec 64) :
    (a.toNat >>> n = 0 ∨ a.toNat >>> n = 2 ^ (64 - n) - 1) ↔
      ∀ b, n ≤ b → b < 64 → a.getLsbD b = a.getLsbD 63 := by
  rw [toNat_shiftRight_eq_zero_iff, toNat_shiftRight_eq_ones_iff]
  have h63 : n ≤ 63 := by omega
  constructor
  · rintro (h | h) b hb hb'
    · rw [h b hb hb', h 63 h63 (by decide)]
    · rw [h b hb hb', h 63 h63 (by decide)]
  · intro h
    cases htop : a.getLsbD 63
    · exact .inl fun b hb hb' => (h b hb hb').trans htop
    · exact .inr fun b hb hb' => (h b hb hb').trans htop

/-- Settles O44: both forms are one statement about the bits from `n` up, with `n` 47 or 56. -/
theorem canonicalAddresses : Obligations.CanonicalAddresses := by
  unfold Obligations.CanonicalAddresses canonical
  intro a
  simp only [Bool.or_eq_true, decide_eq_true_eq]
  exact ⟨toNat_shiftRight_zero_or_ones_iff (by decide) a, toNat_shiftRight_zero_or_ones_iff (by decide) a⟩

/-! ### The bytes of a read -/

/-- The address of a byte of an operand as exact arithmetic: it is cut to the address width as the next `pc` is. -/
theorem toNat_byteAddr (s : State) (addr : BitVec 64) (o : Nat) :
    (byteAddr s addr o).toNat = (addr.toNat + o) % 2 ^ addrBits s.mode :=
  toNat_nextPc { s with pc := addr } o

/-- Settles O39: the bytes a read gathers stand at their offsets, and nothing else is filled. -/
theorem memoryIsLittleEndian : Obligations.MemoryIsLittleEndian := by
  unfold Obligations.MemoryIsLittleEndian
  intro f b g ea n s v hn h
  obtain ⟨-, -, -, -, -, hv⟩ := (readMemory_eq_next f b g ea _ s v).1 h
  obtain ⟨hbyte, habove⟩ := gatherBytes_byte s _ _ v hv List.nodup_range
  refine ⟨fun i hi => hbyte i (List.mem_range.2 hi) (by omega), toNat_byteAddr s _, fun k hk => habove k ?_⟩
  rw [List.mem_range]
  omega

/-! ### Stops at the read (60_exceptions.md R153 items 4 and 5, 30_encoding.md R81) -/

section
variable {f : Form} {bcst : Bool} {g : SegReg} {ea : BitVec 64} {offs : List Nat} {s : State}

/-- The checks of a read that the state itself decides pass: the alignment of F-SSE, the segment and canonical checks. -/
structure ReadChecksPass (f : Form) (g : SegReg) (ea : BitVec 64) (offs : List Nat) (s : State) : Prop where
  aligned : ¬ (f = .sse ∧ (linearAddr s g ea).toNat % 16 ≠ 0)
  segment : segmentViolation s g ea (linearAddr s g ea) offs = false

variable (h : ReadChecksPass f g ea offs s)
include h

theorem readMemory_of_oracleFault {e : State → Fault}
    (ho : oracleFault s (offs.map (byteAddr s (linearAddr s g ea))) = some e) :
    readMemory f bcst g ea offs s = .fault (e s) := by
  simp [readMemory, raise, h.aligned, h.segment, ho]

variable (ho : oracleFault s (offs.map (byteAddr s (linearAddr s g ea))) = none)
include ho

theorem readMemory_of_device
    (hd : oracleHit s OracleAnswer.isDevice (offs.map (byteAddr s (linearAddr s g ea))) ≠ none) :
    readMemory f bcst g ea offs s = .refused .deviceRead := by
  simp [readMemory, h.aligned, h.segment, ho, Option.isSome_iff_ne_none, hd]

variable (hd : oracleHit s OracleAnswer.isDevice (offs.map (byteAddr s (linearAddr s g ea))) = none)
include hd

theorem readMemory_of_misaligned
    (hm : bcst = true ∧ s.amAc = true ∧ (linearAddr s g ea).toNat % 8 ≠ 0) :
    readMemory f bcst g ea offs s = .refused .alignmentCheckOpen := by
  simp [readMemory, h.aligned, h.segment, ho, hd, hm]

theorem readMemory_of_undescribed
    (hm : ¬ (bcst = true ∧ s.amAc = true ∧ (linearAddr s g ea).toNat % 8 ≠ 0))
    (hg : gatherBytes s (linearAddr s g ea) offs = none) :
    readMemory f bcst g ea offs s = .refused .undescribedMemory := by
  simp [readMemory, h.aligned, h.segment, ho, hd, hm, hg]

end

/-- The read of a source in memory. -/
theorem readSource_of_address {src : Source} {a : Address} (h : src.address = some a) (f : Form) (len : Nat)
    (p : Prefixes) (mk : Masking) (s : State) :
    readSource f len p mk src s = readMemory f src.isBcst (effSeg s.mode p a) (operandEA f len p src a s)
      (readOffsets f mk src.isBcst s) s := by
  cases src with
  | reg r | regSae r => simp [Source.address] at h
  | mem b | bcst b =>
    obtain rfl : b = a := Option.some.inj h
    rfl

/-- The linear addresses of the bytes that an instruction reads of its operand at address form `a`. -/
def readAddrs (i : Instr) (a : Address) (s : State) : List (BitVec 64) :=
  (readOffsets i.fields.form i.fields.mask (sourceOf i).isBcst s).map
    (byteAddr s (operandAddr i.fields.form i.length i.fields.pre (sourceOf i) a s))

section
variable {i : Instr} {a : Address} {s : State}

theorem mem_readOffsets_of_address (ha : (sourceOf i).address = some a) (o : Nat) :
    o ∈ readOffsets i.fields.form i.fields.mask (sourceOf i).isBcst s ↔
      byteRead i.fields.form i.fields.mask (sourceOf i) s o = true :=
  mem_readOffsets _ _ _ _ _ (by rw [ha, Option.isSome_some])

/-- A search of the oracle over the bytes read finds nothing exactly when no region read has a wanted answer. -/
theorem oracleHit_readAddrs_eq_none (ha : (sourceOf i).address = some a) (want : OracleAnswer → Bool) :
    oracleHit s want (readAddrs i a s) = none ↔ ∀ r o, ReadsRegion i a s r o → want r.answer = false := by
  rw [oracleHit_eq_none]
  constructor
  · rintro h r o ⟨hr, ho, hcov⟩
    by_contra hw
    have := h r hr (Bool.eq_true_of_not_eq_false hw) _
      (List.mem_map_of_mem ((mem_readOffsets_of_address ha o).2 ho))
    rw [hcov] at this
    cases this
  · intro h r hr hw x hx
    obtain ⟨o, ho, rfl⟩ := List.mem_map.1 hx
    by_contra hcov
    have := h r o ⟨hr, (mem_readOffsets_of_address ha o).1 ho, Bool.eq_true_of_not_eq_false hcov⟩
    rw [hw] at this
    cases this

/-- What a search of the oracle finds is the wanted answer of a region read, at the address of a byte in it. -/
theorem oracleHit_readAddrs_eq_some (ha : (sourceOf i).address = some a) {want : OracleAnswer → Bool}
    {ans : OracleAnswer} {x : BitVec 64} (h : oracleHit s want (readAddrs i a s) = some (ans, x)) :
    ∃ r o, ReadsRegion i a s r o ∧ want r.answer = true ∧ r.answer = ans
      ∧ x = byteAddr s (operandAddr i.fields.form i.length i.fields.pre (sourceOf i) a s) o := by
  obtain ⟨r, hr, h⟩ := List.exists_of_findSome?_eq_some h
  split at h
  · rename_i hw
    obtain ⟨y, hy, he⟩ := Option.map_eq_some_iff.1 h
    obtain ⟨rfl, rfl⟩ := Prod.mk.inj he
    obtain ⟨o, ho, rfl⟩ := List.mem_map.1 (List.mem_of_find?_eq_some hy)
    exact ⟨r, o, ⟨hr, (mem_readOffsets_of_address ha o).1 ho, List.find?_some hy⟩, hw, rfl, rfl⟩
  · cases h

theorem OracleAnswer.isDevice_eq_true {ans : OracleAnswer} : ans.isDevice = true ↔ ans = .device := by
  cases ans <;> decide

/-- An instruction that reaches the read does what the read does, and goes on with the value. -/
theorem ReachesRead.exec_eq_bind (h : ReachesRead i a s) :
    ∃ k, exec i s = Result.bind (readMemory i.fields.form (sourceOf i).isBcst (effSeg s.mode i.fields.pre a)
      (operandEA i.fields.form i.length i.fields.pre (sourceOf i) a s)
      (readOffsets i.fields.form i.fields.mask (sourceOf i).isBcst s) s) k := by
  obtain ⟨hen, hts⟩ := h.enabled
  rw [exec_eq_convert, convert, hen, hts, if_neg Bool.false_ne_true.symm, if_neg Bool.false_ne_true,
    readSource_of_address h.address]
  exact ⟨_, rfl⟩

theorem ReachesRead.readChecksPass (h : ReachesRead i a s) :
    ReadChecksPass i.fields.form (effSeg s.mode i.fields.pre a)
      (operandEA i.fields.form i.length i.fields.pre (sourceOf i) a s)
      (readOffsets i.fields.form i.fields.mask (sourceOf i).isBcst s) s where
  aligned := fun ⟨hf, hm⟩ => hm (h.aligned hf)
  segment := (segmentViolation_eq_false _ _ _ _).2 fun o ho =>
    have hr := (mem_readOffsets_of_address h.address o).1 ho
    h.segment o (byteRead_lt hr) hr

/-- The fault that the oracle answers a read with is the instruction's. -/
theorem ReachesRead.exec_eq_oracleFault (h : ReachesRead i a s) {e : State → Fault}
    (ho : oracleFault s (readAddrs i a s) = some e) : exec i s = .fault (e s) := by
  obtain ⟨k, hk⟩ := h.exec_eq_bind
  rw [hk, readMemory_of_oracleFault h.readChecksPass ho, Result.bind_fault]

end

/-- Settles O45: the search for segment answers, which comes first, finds some region that is read, and its answer is the
fault. -/
theorem oracleSegmentFaults : Obligations.OracleSegmentFaults := by
  unfold Obligations.OracleSegmentFaults
  intro i a s r o h hr hseg
  cases hhit : oracleHit s OracleAnswer.isSegment (readAddrs i a s) with
  | none =>
    have hno := (oracleHit_readAddrs_eq_none h.address _).1 hhit r o hr
    rw [hseg] at hno
    cases hno
  | some found =>
    obtain ⟨ans, x⟩ := found
    obtain ⟨r', o', hr', hseg', rfl, -⟩ := oracleHit_readAddrs_eq_some h.address hhit
    refine ⟨r', o', hr', ?_⟩
    cases hans : r'.answer with
    | gp0 => exact .inl ⟨rfl, h.exec_eq_oracleFault (by rw [oracleFault, hhit, hans])⟩
    | ss0 => exact .inr ⟨rfl, h.exec_eq_oracleFault (by rw [oracleFault, hhit, hans])⟩
    | notPresent | supervisor | reservedBit | protectionKey | device => simp [hans, OracleAnswer.isSegment] at hseg'

/-- Settles O48: with no fault from the oracle the read is refused by the first of its three last checks that fails. -/
theorem readRefusals : Obligations.ReadRefusals := by
  unfold Obligations.ReadRefusals
  intro i a s h hnofault
  obtain ⟨k, hk⟩ := h.exec_eq_bind
  have hpass := h.readChecksPass
  have hfault : oracleFault s (readAddrs i a s) = none := (oracleFault_eq_none _ _).2
    ⟨(oracleHit_readAddrs_eq_none h.address _).2 fun r o hr => (hnofault r o hr).1,
      (oracleHit_readAddrs_eq_none h.address _).2 fun r o hr => (hnofault r o hr).2⟩
  have hdevice : oracleHit s OracleAnswer.isDevice (readAddrs i a s) = none ↔
      ¬ ∃ r o, ReadsRegion i a s r o ∧ r.answer = .device := by
    rw [oracleHit_readAddrs_eq_none h.address]
    simp only [not_exists, not_and, ← OracleAnswer.isDevice_eq_true, Bool.not_eq_true]
  refine ⟨fun hdev => ?_, fun hdev hmis => ?_, fun hdev hmis ⟨o, ho, hnone⟩ => ?_⟩
  · rw [hk, readMemory_of_device hpass hfault (fun hn => hdevice.1 hn hdev), Result.bind_refused]
  · rw [hk, readMemory_of_misaligned hpass hfault (hdevice.2 hdev) hmis, Result.bind_refused]
  · have hgather : gatherBytes s (operandAddr i.fields.form i.length i.fields.pre (sourceOf i) a s)
        (readOffsets i.fields.form i.fields.mask (sourceOf i).isBcst s) = none := by
      rw [← Option.not_isSome_iff_eq_none, gatherBytes_isSome]
      intro hall
      have hsome := hall o ((mem_readOffsets_of_address h.address o).2 ho)
      rw [hnone] at hsome
      cases hsome
    rw [hk, readMemory_of_undescribed hpass hfault (hdevice.2 hdev) hmis hgather, Result.bind_refused]

/-! ### What a readable source holds -/

/-- Byte `o` of a source is byte `o` of the word that is read. -/
theorem sourceByte_sourceElem {f : Form} {mk : Masking} {src : Source} {s : State} {o : Nat}
    (h : byteRead f mk src s o = true) (v : VecWord) : sourceByte src (sourceElem src v) o = v.extractLsb' (8 * o) 8 := by
  rw [sourceByte, sourceElem, elem64, extractLsb'_nested _ _ _ _ _ (by omega)]
  congr 1
  cases src with
  | reg r | regSae r => simp [byteRead] at h
  | mem a => simp only [Source.isBcst, Bool.false_eq_true, if_false]; omega
  | bcst a =>
    simp only [byteRead, Bool.and_eq_true, decide_eq_true_eq] at h
    simp only [Source.isBcst, if_true]
    omega

theorem operandAligned_iff (f : Form) (src : Source) (addr : BitVec 64) (s : State) :
    operandAligned f src addr s = true ↔
      ¬ (f = .sse ∧ addr.toNat % 16 ≠ 0) ∧ ¬ (src.isBcst = true ∧ s.amAc = true ∧ addr.toNat % 8 ≠ 0) := by
  simp [operandAligned, Classical.or_iff_not_imp_left]

/-- A source that is read holds the elements of the word read: the converse of `readSource_of_sourceIs`. -/
theorem sourceIs_of_readSource {f : Form} {len : Nat} {p : Prefixes} {mk : Masking} {src : Source} {s : State}
    {v : VecWord} (h : readSource f len p mk src s = .next v) : SourceIs f len p mk src (sourceElem src v) s := by
  cases src with
  | reg r | regSae r =>
    intro j hj
    rw [← Host.Outcome.next.inj h]
    exact elem64_lowBits _ _ _ (elem_within f j hj)
  | mem a | bcst a =>
    rw [readSource_of_address (a := a) rfl, readMemory_eq_next] at h
    obtain ⟨hseg, hal, hfault, hdev, hmis, hv⟩ := h
    obtain ⟨hbyte, -⟩ := gatherBytes_byte s _ _ v hv (nodup_readOffsets f mk _ s)
    have hadm := (oracleAdmits_iff s _).1 ⟨hfault, hdev⟩
    refine ⟨(operandAligned_iff _ _ _ _).2 ⟨hal, hmis⟩, fun hb j _ => ?_, fun o h64 ho => ?_⟩
    · simp only [sourceElem, hb, if_true]
    · have hread := (mem_readOffsets f mk _ s o rfl).2 ho
      rw [sourceByte_sourceElem ho]
      exact ⟨(segmentViolation_eq_false _ _ _ _).1 hseg o hread, hadm _ (List.mem_map_of_mem hread), hbyte o hread h64⟩

/-! ### Completion with the same elements -/

/-- Two source words and the states they were read in agree on all that the conversion uses: DAZ, the old destination,
which elements are computed, and those elements. -/
structure SameElements (f : Form) (d : VReg) (mk : Masking) (src src' : Source) (v v' : VecWord) (s s' : State) : Prop where
  mxcsr : s'.mxcsr = s.mxcsr
  dest : s'.readZmm d = s.readZmm d
  mask : ∀ j, j < f.kl → computed mk s' j = computed mk s j
  elem : ∀ j, j < f.kl → computed mk s j = true → sourceElem src' v' j = sourceElem src v j

section
variable {f : Form} {d : VReg} {mk : Masking} {src src' : Source} {v v' : VecWord} {s s' : State}

theorem SameElements.convertedAt_eq (h : SameElements f d mk src src' v v' s s') {j : Nat} (hj : j < f.kl)
    (hc : computed mk s j = true) : convertedAt src' v' s' j = convertedAt src v s j := by
  rw [convertedAt, convertedAt, h.elem j hj hc, h.mxcsr]

/-- The flags that the computed elements raise: `g` is one flag of a conversion. -/
theorem SameElements.any_flag_eq (h : SameElements f d mk src src' v v' s s') (g : Converted → Bool) :
    ((List.range f.kl).any fun j => computed mk s' j && g (convertedAt src' v' s' j)) =
      (List.range f.kl).any fun j => computed mk s j && g (convertedAt src v s j) :=
  any_range_congr fun j hj => by
    rw [h.mask j hj]
    cases hc : computed mk s j
    · rfl
    · rw [h.convertedAt_eq hj hc]

theorem SameElements.anyInvalid_eq (h : SameElements f d mk src src' v v' s s') :
    anyInvalid f mk src' v' s' = anyInvalid f mk src v s :=
  h.any_flag_eq Converted.ie

theorem SameElements.anyInexact_eq (h : SameElements f d mk src src' v v' s s') :
    anyInexact f mk src' v' s' = anyInexact f mk src v s :=
  h.any_flag_eq Converted.pe

theorem SameElements.destValue_eq (h : SameElements f d mk src src' v v' s s') :
    destValue f d mk src' v' s' = destValue f d mk src v s := by
  have hlow : packLow f.kl (destElem d mk src' v' s') = packLow f.kl (destElem d mk src v s) :=
    packLow_congr _ _ _ fun j hj => by
      rw [destElem, destElem, h.mask j hj, h.dest]
      cases hc : computed mk s j
      · rfl
      · rw [h.convertedAt_eq hj hc]
  unfold destValue
  rw [hlow, h.dest]

/-- A response that completes is the same to the same elements. -/
theorem SameElements.respondFlags_next (h : SameElements f d mk src src' v v' s s') {sae : Bool} {m : BitVec 32}
    (hm : respondFlags sae (anyInvalid f mk src v s) (anyInexact f mk src v s) s = .next m) :
    respondFlags sae (anyInvalid f mk src' v' s') (anyInexact f mk src' v' s') s' = .next m := by
  rw [h.anyInvalid_eq, h.anyInexact_eq]
  exact respondFlags_next_congr h.mxcsr hm

end

/-! ### FAULT_SUPPRESSION (R52) -/

/-- Without FAULT_SUPPRESSION every byte is read that is read with it. -/
theorem byteRead_of_byteRead_with_params {f : Form} {mk : Masking} {src : Source} {s : State} {q : Params} {o : Nat}
    (hs : s.params.faultSuppression = false) (h : byteRead f mk src { s with params := q } o = true) :
    byteRead f mk src s o = true := by
  cases src with
  | reg r | regSae r => exact h
  | mem a | bcst a =>
    obtain ⟨hlt, -⟩ := Bool.and_eq_true_iff.1 h
    simp only [byteRead, hs, hlt, Bool.false_and, Bool.not_false, Bool.true_or, Bool.and_true]

/-- A source that is readable without FAULT_SUPPRESSION is so under any parameters, with the same elements. -/
theorem sourceIs_with_params {f : Form} {len : Nat} {p : Prefixes} {mk : Masking} {src : Source} {e : Nat → Qword}
    {s : State} (q : Params) (hs : s.params.faultSuppression = false) (h : SourceIs f len p mk src e s) :
    SourceIs f len p mk src e { s with params := q } := by
  cases src with
  | reg r | regSae r => exact h
  | mem a | bcst a =>
    obtain ⟨hal, hcopies, hbytes⟩ := h
    exact ⟨hal, hcopies, fun o h64 ho => hbytes o h64 (byteRead_of_byteRead_with_params hs ho)⟩

/-- Settles O40: the source stays readable when fewer bytes are read, and the elements that are computed are the same. -/
theorem faultSuppressionOnlyAllowsMore : Obligations.FaultSuppressionOnlyAllowsMore := by
  unfold Obligations.FaultSuppressionOnlyAllowsMore
  intro i s t hs hx
  rw [exec_eq_convert, convert_eq_next] at hx
  obtain ⟨hen, hts, v, m, hv, hm, rfl⟩ := hx
  obtain ⟨v', hv', helem⟩ := readSource_of_sourceIs
    (sourceIs_with_params { s.params with faultSuppression := true } hs (sourceIs_of_readSource hv))
  have hsame : SameElements i.fields.form i.fields.dst i.fields.mask (sourceOf i) (sourceOf i) v v' s
      { s with params := { s.params with faultSuppression := true } } := ⟨rfl, rfl, fun _ _ => rfl, helem⟩
  rw [exec_eq_convert, convert_eq_next]
  exact ⟨hen, hts, v', m, hv', hsame.respondFlags_next hm, by rw [hsame.destValue_eq]; rfl⟩

/-! ### Broadcast (R43) -/

/-- R43 for one form: the broadcast operand and the register of copies give the conversion the same elements. -/
theorem convert_bcst_eq_convert_copies {f : Form} {len len' : Nat} {p : Prefixes} {d r : VReg} {mk : Masking} {a : Address}
    {e0 : Qword} {v : VecWord} {s t t' : State} (hsrc : SourceIs f len p mk (.bcst a) (fun _ => e0) s)
    (hb : convert f len p d mk (.bcst a) s = .next t) (hrd : r ≠ d) (hcopies : ∀ j, j < f.kl → elem64 v j = e0)
    (hr : convert f len' p d mk (.reg r) (s.writeZmm r v) = .next t') :
    t'.readZmm d = t.readZmm d ∧ t'.mxcsr = t.mxcsr := by
  rw [convert_eq_next] at hb hr
  obtain ⟨-, -, vb, mb, hvb, hmb, rfl⟩ := hb
  obtain ⟨-, -, vr, mr, hvr, hmr, rfl⟩ := hr
  obtain ⟨vb', hvb', helem⟩ := readSource_of_sourceIs hsrc
  obtain rfl : vb = vb' := Host.Outcome.next.inj (hvb.symm.trans hvb')
  have hreg : ∀ j, j < f.kl → sourceElem (.reg r) vr j = e0 := fun j hj => by
    rw [← hcopies j hj, ← Host.Outcome.next.inj hvr, readZmm_writeZmm_same]
    exact elem64_lowBits _ _ _ (elem_within f j hj)
  have hsame : SameElements f d mk (.bcst a) (.reg r) vb vr s (s.writeZmm r v) :=
    ⟨rfl, readZmm_writeZmm_other _ _ _ _ hrd.symm, fun _ _ => rfl, fun j hj hc => (hreg j hj).trans (helem j hj hc).symm⟩
  rw [readZmm_commit_same, readZmm_commit_same, hsame.destValue_eq]
  exact ⟨rfl, Host.Outcome.next.inj (hmr.symm.trans (hsame.respondFlags_next hmb))⟩

/-- Settles O32: each of the three broadcast rows and its register row run one form. -/
theorem broadcastIsCopies : Obligations.BroadcastIsCopies := by
  unfold Obligations.BroadcastIsCopies
  intro p d r m a e0 v s t t' ib ir hrows hsrc hb hrd hcopies hr
  rcases hrows with ⟨rfl, rfl⟩ | ⟨rfl, rfl⟩ | ⟨rfl, rfl⟩
  · exact convert_bcst_eq_convert_copies hsrc hb hrd hcopies hr
  · exact convert_bcst_eq_convert_copies hsrc hb hrd hcopies hr
  · exact convert_bcst_eq_convert_copies hsrc hb hrd hcopies hr

end Sys2Proof.Machine
end

section
/-! PROOFS. Encoding (30_encoding.md R60 to R75): the decoder reads back what the encoder writes. -/

namespace Sys2Proof

open Sys2Proof.Machine

/-! ### Limits of a well-formed instruction's fields -/

/-- The parts of `Fields.wf`, by name. -/
structure Fields.Limits (m : Mode) (f : Fields) : Prop where
  dst : f.dst.val < f.shape.dstLimit m
  src : f.src.wf m f.shape = true
  mask : f.mask.wf = true
  noRex : m = .mode32 → f.shape ≠ .legacyRex
  noShort : m = .mode32 → f.pre.addrSize = false ∨ f.src.isMem = false

theorem Fields.wf_iff (m : Mode) (f : Fields) : f.wf m = true ↔ f.Limits m := by
  constructor
  · intro h
    simp only [Fields.wf, Bool.and_eq_true, Bool.or_eq_true, decide_eq_true_eq] at h
    obtain ⟨⟨⟨hd, hs⟩, hk⟩, hm⟩ := h
    refine ⟨hd, hs, hk, ?_, ?_⟩ <;> rintro rfl <;> simp_all
  · rintro ⟨hd, hs, hk, hr, ha⟩
    cases m <;> simp_all [Fields.wf]

theorem Shape.limits_mode32 (sh : Shape) :
    sh.dstLimit .mode32 = 8 ∧ sh.srcLimit .mode32 = 8 ∧ sh.gprLimit .mode32 = 8 := by
  cases sh <;> exact ⟨rfl, rfl, rfl⟩

/-- Only EVEX names a vector register above 15. -/
theorem Shape.limits_of_ne_evex (m : Mode) {sh : Shape} (h : sh ≠ .evex) : sh.dstLimit m ≤ 16 ∧ sh.srcLimit m ≤ 16 := by
  cases m <;> cases sh <;> simp_all [Shape.dstLimit, Shape.srcLimit]

/-- The legacy form without REX and the two-byte VEX form name no source register above 7. -/
theorem Fields.Limits.narrow {m : Mode} {f : Fields} (h : f.Limits m) (hs : f.shape = .legacy ∨ f.shape = .vex2) :
    f.src.extB = false ∧ f.src.extX = false := by
  have hlim : f.shape.srcLimit m ≤ 8 ∧ f.shape.gprLimit m ≤ 8 := by
    rcases hs with e | e <;> rw [e] <;> cases m <;> decide
  exact no_extension h.src hlim.1 hlim.2

/-- In Mode32 no extension bit is set. -/
theorem Fields.Limits.mode32 {f : Fields} (h : f.Limits .mode32) :
    f.dst.val.testBit 3 = false ∧ f.dst.val.testBit 4 = false ∧ f.src.extB = false ∧ f.src.extX = false := by
  obtain ⟨hd, hs, hg⟩ := f.shape.limits_mode32
  have hlt : f.dst.val < 8 := hd ▸ h.dst
  obtain ⟨hb, hx⟩ := no_extension h.src hs.le hg.le
  exact ⟨testBit_of_lt_eight _ hlt 3 (by decide), testBit_of_lt_eight _ hlt 4 (by decide), hb, hx⟩

/-- Every instruction's fields go together. -/
theorem Instr.coherent_fields (i : Instr) : i.fields.coherent := by
  cases i with
  | sse n p d o => exact Laws.FieldsCoherent.sse n p d o
  | sseRex n p d o => exact Laws.FieldsCoherent.sseRex n p d o
  | vex128c5 p d o => exact Laws.FieldsCoherent.vex128c5 p d o
  | vex128c4 p d o => exact Laws.FieldsCoherent.vex128c4 p d o
  | vex256c5 p d o => exact Laws.FieldsCoherent.vex256c5 p d o
  | vex256c4 p d o => exact Laws.FieldsCoherent.vex256c4 p d o
  | evex128 p d m o => exact Laws.FieldsCoherent.evex128 p d m o
  | evex128b p d m a => exact Laws.FieldsCoherent.evex128b p d m a
  | evex256 p d m o => exact Laws.FieldsCoherent.evex256 p d m o
  | evex256b p d m a => exact Laws.FieldsCoherent.evex256b p d m a
  | evex512 p d m o => exact Laws.FieldsCoherent.evex512 p d m o
  | evex512b p d m o => exact Laws.FieldsCoherent.evex512b p d m o

/-- An instruction is the row that its fields name. -/
theorem Instr.toInstr_fields (i : Instr) : i.fields.toInstr = i := by cases i <;> rfl

/-! ### The head -/

/-- What the decoder reads of the fields' REX byte and head `h`. -/
structure Fields.HeadRead (f : Fields) (rex : Option Byte) (h : Head) : Prop where
  ext : extOf rex h = f.ext
  shape : ∀ sc rg raw, (⟨sc, rex, h, rg, raw⟩ : Parsed).shape = f.shape
  isEvex : h.isEvex = decide (f.shape = .evex)
  reserved : h.reservedBits = false
  opsize : (h.isVexEvex = false ∧ f.n66 ≠ 0) ∨ (h.isVexEvex = true ∧ f.n66 = 0 ∧ rex = none)

/-- `VEX.L` gives a VEX form's length. -/
theorem vex_ll {f : Form} (h : f = .vex128 ∨ f = .vex256) : 0#1 ++ f.l = f.ll := by
  rcases h with rfl | rfl <;> rfl

/-- The head that the encoder writes is read with the fields' extension bits. -/
theorem Fields.exists_headRead {m : Mode} {f : Fields} (hc : f.coherent) (hl : f.Limits m) :
    ∃ rex b tl h, f.head = rex ++ b :: tl ∧ RexBytes m rex ∧ b ∈ [0x0F#8, 0xC5#8, 0xC4#8, 0x62#8]
      ∧ (∀ tail, parseHead m (b :: (tl ++ tail)) = .ok (h, tail)) ∧ f.HeadRead rex.head? h := by
  have h32 : m = .mode32 → _ := fun e => (e ▸ hl : f.Limits .mode32).mode32
  obtain ⟨shape, form, x66, pre, dst, mask, bbit, src⟩ := f
  cases shape with
  | legacy =>
    obtain ⟨rfl, rfl, rfl⟩ := hc
    obtain ⟨hb, hx⟩ := hl.narrow (.inl rfl)
    have hd : dst.val.testBit 3 = false := testBit_of_lt_eight _ (by cases m <;> exact hl.dst) 3 (by decide)
    simp only at hb hx
    refine ⟨[], _, _, .legacy, rfl, .inl rfl, by decide, fun _ => rfl,
      ⟨?_, fun _ _ _ => rfl, rfl, rfl, .inl ⟨rfl, Nat.succ_ne_zero _⟩⟩⟩
    simp [extOf, Fields.ext, hd, hb, hx, Form.ll, Masking.off, kBits]
  | legacyRex =>
    obtain ⟨rfl, rfl, rfl⟩ := hc
    have hm : m = .mode64 := by cases m <;> [exact absurd rfl (hl.noRex rfl); rfl]
    obtain ⟨h4, h2, h1, h0, h3⟩ := rex_fields (dst.val.testBit 3) (src.isMem && src.extX) src.extB
    refine ⟨[_], _, _, .legacy, rfl, .inr ⟨_, h4, hm, rfl⟩, by decide, fun _ => rfl,
      ⟨?_, fun _ _ _ => rfl, rfl, rfl, .inl ⟨rfl, Nat.succ_ne_zero _⟩⟩⟩
    simp only [List.head?_cons, extOf, Fields.ext, h0, h1, h2, h3]
    rfl
  | vex2 =>
    obtain ⟨hf, rfl, rfl, rfl⟩ := hc
    obtain ⟨hb, hx⟩ := hl.narrow (.inr rfl)
    obtain ⟨h7, h3, h2, h0, h6⟩ := vex_p_fields (!dst.val.testBit 3) form.l
    simp only at hb hx
    refine ⟨[], _, _, .vex2 _, rfl, .inl rfl, by decide, fun _ => parseHead_vex2 (fun e => ?_) h0 _,
      ⟨?_, fun _ _ _ => rfl, rfl, rfl, .inr ⟨rfl, rfl, rfl⟩⟩⟩
    · exact h6.2 (by simp [(h32 e).1])
    · simp only [extOf, Fields.ext, h7, h3, h2, hb, hx, vex_ll hf, Bool.not_not, Bool.and_false]
      rfl
  | vex3 =>
    obtain ⟨hf, rfl, rfl, rfl⟩ := hc
    obtain ⟨g7, g6, g5, g0, gm⟩ := vex_p0_fields (!dst.val.testBit 3) (!(src.isMem && src.extX)) (!src.extB)
    obtain ⟨h7, h3, h2, h0, -⟩ := vex_p_fields false form.l
    refine ⟨[], _, _, .vex3 _ _, rfl, .inl rfl, by decide, fun _ => parseHead_vex3 (fun e => ?_) g0 h0 _,
      ⟨?_, fun _ _ _ => rfl, rfl, rfl, .inr ⟨rfl, rfl, rfl⟩⟩⟩
    · obtain ⟨hd, -, -, hx⟩ := h32 e
      exact gm.2 (by simp_all)
    · simp only [extOf, Fields.ext, g7, g6, g5]
      rw [show (0#1 : BitVec 1) = bit false from rfl, h7, h3, h2, show bit false = 0#1 from rfl, vex_ll hf]
      simp only [Bool.not_not]
      rfl
  | evex =>
    obtain ⟨-, rfl, -⟩ := hc
    obtain ⟨g7, g6, g5, g4, g2, g0, gm⟩ := evex_p0_fields (dst.val.testBit 3) src.extX src.extB (dst.val.testBit 4)
    obtain ⟨h7, h3, h2, h0⟩ := evex_p1_fields
    obtain ⟨i7, i5, i4, i3, i0⟩ := evex_p2_fields mask.z bbit form.ll mask.k
    refine ⟨[], _, _, .evex _ _ _, rfl, .inl rfl, by decide, fun _ => parseHead_evex _ (fun e => ?_) g0 h0 _,
      ⟨?_, fun _ _ _ => rfl, rfl, ?_, .inr ⟨rfl, rfl, rfl⟩⟩⟩
    · obtain ⟨hd, -, -, hx⟩ := h32 e
      exact gm.2 ⟨hd, hx⟩
    · simp only [extOf, Fields.ext, g7, g6, g5, g4, h7, h3, i7, i5, i4, i3, i0, Bool.not_not]
    · simp only [Head.reservedBits, g2, h2]
      rfl

/-! ### The whole encoding -/

/-- What the decoder records of the prefixes. -/
def Fields.scan (f : Fields) : Scan := ⟨f.n66, f.pre.seg.toList, f.pre.addrSize.toNat, false, false⟩

/-- What the decoder reads before its checks, the REX byte and head being `rex` and `h`. -/
def Fields.parsed (f : Fields) (rex : Option Byte) (h : Head) : Parsed :=
  ⟨f.scan, rex, h, lo3 f.dst.val, rawOf f.src⟩

theorem Fields.opsize_eq (f : Fields) : f.opsize = List.replicate f.n66 0x66#8 := by
  obtain ⟨shape, form, x66, pre, dst, mask, bbit, src⟩ := f
  cases shape <;> rfl

theorem Prefixes.bytes_legacy (p : Prefixes) : ∀ b ∈ p.bytes, isLegacyPrefix b = true := by
  obtain ⟨seg, a⟩ := p
  cases seg with
  | none => cases a <;> decide
  | some g => cases g <;> cases a <;> decide

/-- The optional prefixes are not repeated. -/
theorem Prefixes.not_repeated (p : Prefixes) : ¬ p.seg.toList.length > 1 ∧ ¬ p.addrSize.toNat > 1 := by
  obtain ⟨seg, a⟩ := p
  cases seg <;> cases a <;> simp

/-- The optional prefixes are got back from what is recorded of them. -/
theorem Prefixes.of_scan (p : Prefixes) : (⟨p.seg.toList.head?, p.addrSize.toNat == 1⟩ : Prefixes) = p := by
  obtain ⟨seg, a⟩ := p
  cases seg <;> cases a <;> rfl

/-- What is recorded of the prefixes that the encoder writes. -/
theorem Fields.scan_encode (f : Fields) : (∀ b ∈ f.opsize ++ f.pre.bytes, isLegacyPrefix b = true)
    ∧ Scan.start.after (f.opsize ++ f.pre.bytes) = f.scan := by
  have hlegacy : ∀ b ∈ f.opsize ++ f.pre.bytes, isLegacyPrefix b = true := by
    intro b hb
    rcases List.mem_append.1 hb with hb | hb
    · rw [f.opsize_eq] at hb
      rw [List.eq_of_mem_replicate hb]
      decide
    · exact f.pre.bytes_legacy b hb
  have hscan := scanPrefixes_encode f.n66 f.pre 0x0F#8 [] (note_head _ (by decide))
  rw [← f.opsize_eq, ← List.append_assoc, scanPrefixes_legacy _ hlegacy,
    scanPrefixes_stop _ _ _ (note_head _ (by decide) _)] at hscan
  exact ⟨hlegacy, congrArg Prod.fst hscan⟩

/-- The encoder writes 67H only where the fields ask for it. -/
theorem Fields.addrSize_of_shortAddress {m : Mode} {f : Fields} (h : shortAddress m (f.opsize ++ f.pre.bytes) = true) :
    m = .mode32 ∧ f.pre.addrSize = true := by
  simp only [shortAddress, Bool.and_eq_true, decide_eq_true_eq] at h
  have hcount : (f.opsize ++ f.pre.bytes).count 0x67#8 = f.pre.addrSize.toNat := by
    simpa [Scan.after, Scan.start, Fields.scan] using congrArg Scan.n67 f.scan_encode.2
  refine ⟨h.1, ?_⟩
  cases ha : f.pre.addrSize with
  | true => rfl
  | false =>
    rw [ha] at hcount
    exact absurd h.2 (List.count_eq_zero.1 hcount)

/-- Every address of a well-formed operand has an encoding. -/
theorem Operand.wf_address {m : Mode} {sh : Shape} {o : Operand} (h : o.wf m sh = true) :
    ∀ a, o = .mem a → a.wf (sh.gprLimit m) = true := by
  rintro a rfl
  exact h

theorem Fields.HeadRead.rejects {f : Fields} {rex : Option Byte} {h : Head} (hr : f.HeadRead rex h) :
    illegalPrefix f.scan rex h = false ∧ headRejects f.scan rex h = none := by
  rcases hr.opsize with ⟨hv, hn⟩ | ⟨hv, hn, rfl⟩
  · simp [illegalPrefix, headRejects, Fields.scan, hv, hn, hr.reserved]
  · simp [illegalPrefix, headRejects, Fields.scan, hv, hn, hr.reserved]

/-- The encoded bytes are parsed into the fields they were written from. -/
theorem Fields.parse_encode {m : Mode} {f : Fields} (hc : f.coherent) (hl : f.Limits m) (rest : List Byte) :
    ∃ rex h, f.HeadRead rex h ∧ parse m (f.encode ++ rest) = .ok (f.parsed rex h, rest) := by
  obtain ⟨rex, b, tl, h, hhead, hrex, hb, hparse, hread⟩ := f.exists_headRead hc hl
  obtain ⟨hlegacy, hscan⟩ := f.scan_encode
  have hbytes : f.encode ++ rest
      = (f.opsize ++ f.pre.bytes) ++ (rex ++ b :: (tl ++ (modrmBytes (lo3 f.dst.val) f.src ++ rest))) := by
    simp [Fields.encode, hhead]
  have hshort : shortAddress m (f.opsize ++ f.pre.bytes) = true → f.src.isMem = false := fun e => by
    obtain ⟨hm, ha⟩ := addrSize_of_shortAddress e
    exact (hl.noShort hm).resolve_left (by simp [ha])
  refine ⟨rex.head?, h, hread, ?_⟩
  rw [hbytes, parse_of_head hlegacy hrex hb (hparse _), hscan, hread.rejects.2]
  simp only [parseOperand_bytes _ _ _ _ (Operand.wf_address hl.src) hshort, Fields.parsed]

/-! ### The checks and the fields -/

@[simp] theorem Fields.ext_r (f : Fields) : f.ext.r = f.dst.val.testBit 3 := by unfold Fields.ext; cases f.shape <;> rfl
@[simp] theorem Fields.ext_b (f : Fields) : f.ext.b = f.src.extB := by unfold Fields.ext; cases f.shape <;> rfl
@[simp] theorem Fields.ext_vvvv (f : Fields) : f.ext.vvvv = 15#4 := by unfold Fields.ext; cases f.shape <;> rfl
@[simp] theorem Fields.ext_v' (f : Fields) : f.ext.v' = true := by unfold Fields.ext; cases f.shape <;> rfl
@[simp] theorem Fields.ext_ll (f : Fields) : f.ext.ll = f.form.ll := by unfold Fields.ext; cases f.shape <;> rfl
@[simp] theorem Fields.ext_z (f : Fields) : f.ext.z = f.mask.z := by unfold Fields.ext; cases f.shape <;> rfl
@[simp] theorem Fields.ext_bbit (f : Fields) : f.ext.bbit = f.bbit := by unfold Fields.ext; cases f.shape <;> rfl
@[simp] theorem Fields.ext_aaa (f : Fields) : f.ext.aaa = kBits f.mask.k := by unfold Fields.ext; cases f.shape <;> rfl

theorem Fields.ext_of_evex {f : Fields} (h : f.shape = .evex) :
    f.ext.w = true ∧ f.ext.x = f.src.extX ∧ f.ext.r' = f.dst.val.testBit 4 := by
  simp [Fields.ext, h]

theorem Fields.ext_of_ne_evex {f : Fields} (h : f.shape ≠ .evex) :
    f.ext.x = (f.src.isMem && f.src.extX) ∧ f.ext.r' = false := by
  unfold Fields.ext
  cases hs : f.shape <;> simp_all

section
variable {m : Mode} {f : Fields} {rex : Option Byte} {h : Head}

theorem Fields.HeadRead.isUd_parsed (hr : f.HeadRead rex h) (hl : f.Limits m) : (f.parsed rex h).isUd = false := by
  have hk : ∀ k : KReg, decide (kBits k = 0#3) = decide (k = 0) := by decide
  have hz : (f.mask.z && decide (f.mask.k = 0)) = false := by
    simpa [Masking.wf, Bool.and_eq_false_iff, or_iff_not_imp_left] using hl.mask
  have hll : f.form.ll ≠ 3#2 := by cases f.form <;> decide
  simp only [Parsed.isUd, Fields.parsed, hr.rejects.1, hr.ext, hr.isEvex]
  by_cases hs : f.shape = .evex
  · simp [Fields.ext_of_evex hs, hk, hz, hll]
  · simp [hs]

theorem Fields.HeadRead.badSae_parsed (hr : f.HeadRead rex h) (hc : f.coherent) : (f.parsed rex h).badSae = false := by
  simp only [Parsed.badSae, Fields.parsed, hr.ext, hr.isEvex, rawOf_isReg, Fields.ext_bbit, Fields.ext_ll]
  by_cases hs : f.shape = .evex
  · rw [Fields.coherent, hs] at hc
    obtain ⟨-, -, hb⟩ := hc
    by_cases hf : f.form = .evex512
    · simp [hf, Form.ll]
    · cases hbit : f.bbit with
      | false => simp
      | true => simp [hb hbit hf]
  · simp [hs]

theorem Fields.HeadRead.extended_parsed (hr : f.HeadRead rex h) (hl : f.Limits .mode32) :
    (f.parsed rex h).extended = false := by
  obtain ⟨h3, h4, hb, hx⟩ := hl.mode32
  simp only [Parsed.extended, Fields.parsed, hr.ext]
  by_cases hs : f.shape = .evex
  · simp [Fields.ext_of_evex hs, h3, h4, hb, hx]
  · simp [Fields.ext_of_ne_evex hs, h3, hb, hx]

theorem Fields.HeadRead.refusal_parsed (hr : f.HeadRead rex h) {env : DecodeEnv} (hl : f.Limits env.mode)
    (hc : f.coherent) : (f.parsed rex h).refusal env = none := by
  obtain ⟨hsegs, h67⟩ := f.pre.not_repeated
  have hext : (decide (env.mode = .mode32) && (f.parsed rex h).extended) = false := by
    by_cases hm : env.mode = .mode32
    · rw [hr.extended_parsed (hm ▸ hl), Bool.and_false]
    · simp [hm]
  have hscan : (f.parsed rex h).scan = f.scan := rfl
  simp [Parsed.refusal, hr.badSae_parsed hc, hext, hscan, Fields.scan, hsegs, h67]

theorem Fields.HeadRead.operandOf_parsed (hr : f.HeadRead rex h) (hl : f.Limits m) :
    operandOf h.isEvex (extOf rex h) (rawOf f.src) = some f.src := by
  have hx : f.ext.x = f.src.extX ∨ (h.isEvex = false ∧ f.src.isMem = false) := by
    by_cases hs : f.shape = .evex
    · exact .inl (Fields.ext_of_evex hs).2.1
    · rw [hr.isEvex, (Fields.ext_of_ne_evex hs).1]
      cases f.src.isMem <;> simp [hs]
  rw [hr.ext]
  refine operandOf_rawOf _ _ _ _ hx f.ext_b (fun r hreg hev => ?_) (Operand.wf_address hl.src)
  have hlim := (Shape.limits_of_ne_evex m (sh := f.shape) (by simpa [hr.isEvex] using hev)).2
  have hsrc := hl.src
  rw [hreg, Operand.wf, decide_eq_true_eq] at hsrc
  omega

theorem Fields.HeadRead.form_parsed (hr : f.HeadRead rex h) (hc : f.coherent) : (f.parsed rex h).form = f.form := by
  have hshape : (f.parsed rex h).shape = f.shape := hr.shape _ _ _
  have hvex : f.form = .vex128 ∨ f.form = .vex256 → (if f.form.ll = 0#2 then Form.vex128 else .vex256) = f.form := by
    rintro (e | e) <;> rw [e] <;> rfl
  unfold Fields.coherent at hc
  rw [← hshape] at hc
  cases h with
  | legacy => cases rex <;> exact hc.1.symm
  | vex2 P | vex3 P0 P1 =>
    simp only [Parsed.form, Fields.parsed, hr.ext, Fields.ext_ll]
    exact hvex hc.1
  | evex P0 P1 P2 =>
    obtain ⟨hform, -, hb⟩ := hc
    simp only [Parsed.form, Fields.parsed, hr.ext, Fields.ext_ll, Fields.ext_bbit, rawOf_isReg]
    by_cases hsae : (!f.src.isMem && f.bbit) = true
    · rw [if_pos hsae]
      simp only [Bool.and_eq_true, Bool.not_eq_true'] at hsae
      by_contra hne
      exact absurd (hb hsae.2 (Ne.symm hne)) (by simp [hsae.1])
    · rw [if_neg hsae]
      rcases hform with e | e | e <;> rw [e] <;> rfl

theorem Fields.Limits.vregOf_ext (hl : f.Limits m) : vregOf f.ext.r' f.ext.r (lo3 f.dst.val) = f.dst := by
  refine vregOf_eq _ _ _ ?_ f.ext_r
  by_cases hs : f.shape = .evex
  · exact (Fields.ext_of_evex hs).2.2
  · rw [(Fields.ext_of_ne_evex hs).2,
      testBit_four_of_lt _ (lt_of_lt_of_le hl.dst (Shape.limits_of_ne_evex m hs).1)]

theorem Fields.HeadRead.fields_parsed (hr : f.HeadRead rex h) (hl : f.Limits m) (hc : f.coherent) :
    (f.parsed rex h).fields f.src = f := by
  have hshape : (f.parsed rex h).shape = f.shape := hr.shape _ _ _
  have hx66 : f.n66 - 1 = f.x66 := by
    unfold Fields.coherent at hc
    unfold Fields.n66
    cases hs : f.shape <;> simp_all
  have hpre : (⟨f.scan.segs.head?, f.scan.n67 == 1⟩ : Prefixes) = f.pre := f.pre.of_scan
  have haaa : (kBits f.mask.k).toFin = f.mask.k := rfl
  rw [Parsed.fields, hshape, hr.form_parsed hc]
  simp only [Fields.parsed, hpre, show f.scan.n66 = f.n66 from rfl, hx66, hr.ext, hl.vregOf_ext, Fields.ext_aaa, haaa,
    Fields.ext_z, Fields.ext_bbit]

end

/-- What passes every check is decoded. -/
theorem decode_of_parse {env : DecodeEnv} {bs rest : List Byte} {p : Parsed} {src : Operand}
    (hp : parse env.mode bs = .ok (p, rest)) (hlen : bs.length ≤ rest.length + 15) (hud : p.isUd = false)
    (hr : p.refusal env = none) (ho : operandOf p.head.isEvex (extOf p.rex p.head) p.raw = some src) :
    decode env bs = .ok ((p.fields src).toInstr, rest) := by
  have hshort : ¬ bs.length - rest.length > Config.maxLength := by simp [Config.maxLength]; omega
  simp [decode, hp, hshort, hud, hr, ho]

/-- Settles O2: the encoding is parsed into the fields it was written from, which pass every check. -/
theorem decodeEncodeRoundTrip : Obligations.DecodeEncodeRoundTrip := by
  unfold Obligations.DecodeEncodeRoundTrip
  intro env i rest hwf
  simp only [Instr.wf, Bool.and_eq_true, decide_eq_true_eq] at hwf
  obtain ⟨hf, hlen⟩ := hwf
  have hl := (Fields.wf_iff _ _).1 hf
  have hc := i.coherent_fields
  obtain ⟨rex, h, hread, hparse⟩ := Fields.parse_encode hc hl rest
  have hbytes : (i.encode ++ rest).length ≤ rest.length + 15 := by
    rw [List.length_append, Nat.add_comm]
    exact Nat.add_le_add_left hlen _
  have hdec := decode_of_parse hparse hbytes (hread.isUd_parsed hl) (hread.refusal_parsed hl hc)
    (hread.operandOf_parsed hl)
  rw [hread.fields_parsed hl hc, i.toInstr_fields] at hdec
  exact hdec

end Sys2Proof
end

section
/-! PROOFS. Encoding (30_encoding.md R78): the bytes that each part of the decoder consumes. -/

namespace Sys2Proof

open Sys2Proof.Machine

/-! ### What a reader consumes -/

/-- The reader takes `own` off the front of `bs` and leaves `rest`, and every shorter part of `own` is truncated. -/
structure Consumes {β : Type} (read : List Byte → Except DecodeError β) (own bs rest : List Byte) : Prop where
  bytes : bs = own ++ rest
  short : ∀ n, n < own.length → read (own.take n) = .error .truncated

/-- A reader that consumes nothing. -/
theorem Consumes.nil {β : Type} (read : List Byte → Except DecodeError β) (bs : List Byte) : Consumes read [] bs bs :=
  ⟨rfl, fun _ h => absurd h (Nat.not_lt_zero _)⟩

/-- A reader that takes one byte. -/
theorem Consumes.byte {β : Type} {read : List Byte → Except DecodeError β} (b : Byte) (bs : List Byte)
    (hnil : read [] = .error .truncated) : Consumes read [b] (b :: bs) bs where
  bytes := rfl
  short n hn := by
    obtain rfl : n = 0 := Nat.lt_one_iff.1 hn
    exact hnil

/-- A reader that takes one byte and then goes on as another reader. -/
theorem Consumes.cons {β γ : Type} {read : List Byte → Except DecodeError β} {read' : List Byte → Except DecodeError γ}
    {b : Byte} {own bs rest : List Byte} (h : Consumes read own bs rest) (hnil : read' [] = .error .truncated)
    (hcons : ∀ tl, read tl = .error .truncated → read' (b :: tl) = .error .truncated) :
    Consumes read' (b :: own) (b :: bs) rest where
  bytes := by rw [h.bytes, List.cons_append]
  short n hn := by
    cases n with
    | zero => exact hnil
    | succ n => exact hcons _ (h.short n (Nat.lt_of_succ_lt_succ hn))

/-! ### The operand -/

/-- The length of ModRM, SIB and displacement in the layout of R73; 16-bit addressing (R76) is not counted. -/
def RawOperand.size : RawOperand → Nat
  | .reg _ => 1
  | .base _ d => 1 + d.bytes.length
  | .disp32 _ => 5
  | .sib _ _ _ d => 2 + d.bytes.length
  | .sibNoBase _ _ _ => 6
  | .addr16 => 0

/-- The register fields that ModRM and SIB leave to each address form (R73). -/
def RawOperand.wf : RawOperand → Prop
  | .base rm d => rm ≠ 4#3 ∧ (rm = 5#3 → d ≠ .none)
  | .sib _ _ b d => b = 5#3 → d ≠ .none
  | .reg _ | .disp32 _ | .sibNoBase _ _ _ | .addr16 => True

theorem takeDisp32_consumes {bs r : List Byte} {w : Dword} (h : takeDisp32 bs = .ok (w, r)) :
    ∃ own, Consumes takeDisp32 own bs r ∧ own.length = 4 := by
  match bs, h with
  | b0 :: b1 :: b2 :: b3 :: tl, h =>
    obtain ⟨-, rfl⟩ : _ ∧ tl = r := by simpa [takeDisp32] using h
    refine ⟨[b0, b1, b2, b3], ⟨rfl, fun n hn => ?_⟩, rfl⟩
    have hn4 : n < 4 := hn
    interval_cases n <;> rfl

theorem takeDisp_consumes {md : BitVec 2} {bs r : List Byte} {d : Disp} (h : takeDisp md bs = .ok (d, r)) :
    ∃ own, Consumes (takeDisp md) own bs r ∧ own.length = d.bytes.length ∧ (d = .none → md = 0#2) := by
  unfold takeDisp at h
  split at h
  case isTrue h0 =>
    obtain ⟨rfl, rfl⟩ : Disp.none = d ∧ bs = r := by simpa using h
    exact ⟨[], .nil _ _, rfl, fun _ => h0⟩
  case isFalse h0 =>
    split at h
    case isTrue h1 =>
      cases bs with
      | nil => simp at h
      | cons b tl =>
        obtain ⟨rfl, rfl⟩ : Disp.d8 b = d ∧ tl = r := by simpa using h
        exact ⟨[b], .byte b tl (by simp [takeDisp, h1]), rfl, by simp⟩
    case isFalse h1 =>
      split at h
      case h_1 w tl h32 =>
        obtain ⟨rfl, rfl⟩ : Disp.d32 w = d ∧ tl = r := by simpa using h
        obtain ⟨own, hown, hlen⟩ := takeDisp32_consumes h32
        refine ⟨own, ⟨hown.bytes, fun n hn => ?_⟩, hlen, by simp⟩
        simp [takeDisp, h0, h1, hown.short n hn]
      case h_2 => simp at h

theorem parseSib_consumes {md : BitVec 2} {bs r : List Byte} {raw : RawOperand} (h : parseSib md bs = .ok (raw, r)) :
    ∃ own, Consumes (parseSib md) own bs r ∧ own.length + 1 = raw.size ∧ raw.wf := by
  cases bs with
  | nil => simp [parseSib] at h
  | cons sb tl =>
    simp only [parseSib] at h
    split at h
    case isTrue hb =>
      split at h
      case h_1 w tl' h32 =>
        obtain ⟨rfl, rfl⟩ : RawOperand.sibNoBase _ _ w = raw ∧ tl' = r := by simpa using h
        obtain ⟨own, hown, hlen⟩ := takeDisp32_consumes h32
        have hcons := hown.cons (read' := parseSib md) (b := sb) rfl fun t ht => by simp [parseSib, hb, ht]
        exact ⟨sb :: own, hcons, by simp [hlen, RawOperand.size], trivial⟩
      case h_2 => simp at h
    case isFalse hb =>
      split at h
      case h_1 d tl' hd =>
        obtain ⟨rfl, rfl⟩ : RawOperand.sib _ _ _ d = raw ∧ tl' = r := by simpa using h
        obtain ⟨own, hown, hlen, hnone⟩ := takeDisp_consumes hd
        have hcons := hown.cons (read' := parseSib md) (b := sb) rfl fun t ht => by simp [parseSib, hb, ht]
        exact ⟨sb :: own, hcons, by simp [hlen, RawOperand.size]; omega, fun h5 hn => hb ⟨hnone hn, h5⟩⟩
      case h_2 => simp at h

theorem parseModRM_consumes {bs r : List Byte} {rg : BitVec 3} {raw : RawOperand}
    (h : parseModRM bs = .ok (rg, raw, r)) :
    ∃ own, Consumes parseModRM own bs r ∧ own.length = raw.size ∧ raw.wf := by
  cases bs with
  | nil => simp [parseModRM] at h
  | cons b tl =>
    simp only [parseModRM] at h
    split at h
    case isTrue h3 =>
      obtain ⟨-, rfl, rfl⟩ : _ ∧ RawOperand.reg _ = raw ∧ tl = r := by simpa using h
      exact ⟨[b], .byte b tl rfl, rfl, trivial⟩
    case isFalse h3 =>
      split at h
      case isTrue h4 =>
        split at h
        case h_1 o tl' hs =>
          obtain ⟨-, rfl, rfl⟩ : _ ∧ o = raw ∧ tl' = r := by simpa using h
          obtain ⟨own, hown, hlen, hwf⟩ := parseSib_consumes hs
          exact ⟨b :: own, hown.cons rfl fun t ht => by simp [parseModRM, h3, h4, ht], hlen, hwf⟩
        case h_2 => simp at h
      case isFalse h4 =>
        split at h
        case isTrue h5 =>
          split at h
          case h_1 w tl' h32 =>
            obtain ⟨-, rfl, rfl⟩ : _ ∧ RawOperand.disp32 w = raw ∧ tl' = r := by simpa using h
            obtain ⟨own, hown, hlen⟩ := takeDisp32_consumes h32
            have hcons := hown.cons (read' := parseModRM) (b := b) rfl fun t ht => by simp [parseModRM, h5, ht]
            exact ⟨b :: own, hcons, by simp [hlen, RawOperand.size], trivial⟩
          case h_2 => simp at h
        case isFalse h5 =>
          split at h
          case h_1 d tl' hd =>
            obtain ⟨-, rfl, rfl⟩ : _ ∧ RawOperand.base _ d = raw ∧ tl' = r := by simpa using h
            obtain ⟨own, hown, hlen, hnone⟩ := takeDisp_consumes hd
            have hcons := hown.cons (read' := parseModRM) (b := b) rfl fun t ht => by simp [parseModRM, h3, h4, h5, ht]
            exact ⟨b :: own, hcons, by simp [hlen, RawOperand.size]; omega, h4, fun e hn => h5 ⟨hnone hn, e⟩⟩
          case h_2 => simp at h

theorem skipBytes_consumes {n : Nat} {bs r : List Byte} (h : skipBytes n bs = .ok r) :
    ∃ own, Consumes (skipBytes n) own bs r := by
  induction n generalizing bs with
  | zero =>
    obtain rfl : bs = r := by simpa [skipBytes] using h
    exact ⟨[], .nil _ _⟩
  | succ n ih =>
    cases bs with
    | nil => simp [skipBytes] at h
    | cons b tl =>
      obtain ⟨own, hown⟩ := ih h
      exact ⟨b :: own, hown.cons rfl fun _ ht => ht⟩

theorem parseModRM16_consumes {bs r : List Byte} {rg : BitVec 3} {raw : RawOperand}
    (h : parseModRM16 bs = .ok (rg, raw, r)) :
    ∃ own, Consumes parseModRM16 own bs r ∧ (raw ≠ .addr16 → own.length = raw.size ∧ raw.wf) := by
  cases bs with
  | nil => simp [parseModRM16] at h
  | cons b tl =>
    simp only [parseModRM16] at h
    split at h
    case isTrue h3 =>
      obtain ⟨-, rfl, rfl⟩ : _ ∧ RawOperand.reg _ = raw ∧ tl = r := by simpa using h
      exact ⟨[b], .byte b tl rfl, fun _ => ⟨rfl, trivial⟩⟩
    case isFalse h3 =>
      split at h
      case h_1 tl' hs =>
        obtain ⟨-, rfl, rfl⟩ : _ ∧ RawOperand.addr16 = raw ∧ tl' = r := by simpa using h
        obtain ⟨own, hown⟩ := skipBytes_consumes hs
        exact ⟨b :: own, hown.cons rfl fun t ht => by simp [parseModRM16, h3, ht], fun hne => absurd rfl hne⟩
      case h_2 => simp at h

/-- The operand's bytes: any fewer are truncated, and in the layout of R73 the operand says how many. -/
theorem parseOperand_consumes {short : Bool} {bs r : List Byte} {rg : BitVec 3} {raw : RawOperand}
    (h : parseOperand short bs = .ok (rg, raw, r)) :
    ∃ own, Consumes (parseOperand short) own bs r ∧ (raw ≠ .addr16 → own.length = raw.size ∧ raw.wf) := by
  cases short with
  | true => exact parseModRM16_consumes h
  | false =>
    obtain ⟨own, hown, hlen, hwf⟩ := parseModRM_consumes h
    exact ⟨own, hown, fun _ => ⟨hlen, hwf⟩⟩

/-! ### The head -/

/-- The bytes that a head is read from. -/
def Head.bytes : Head → List Byte
  | .legacy => [0x0F#8, 0xE6#8]
  | .vex2 p => [0xC5#8, p, 0xE6#8]
  | .vex3 p0 p1 => [0xC4#8, p0, p1, 0xE6#8]
  | .evex p0 p1 p2 => [0x62#8, p0, p1, p2, 0xE6#8]

theorem expectOpcode_consumes {h h' : Head} {bs r : List Byte} (he : expectOpcode h' bs = .ok (h, r)) :
    h' = h ∧ Consumes (expectOpcode h') [0xE6#8] bs r := by
  cases bs with
  | nil => simp [expectOpcode] at he
  | cons b tl =>
    simp only [expectOpcode] at he
    split at he
    case isTrue hb =>
      obtain ⟨rfl, rfl⟩ : h' = h ∧ tl = r := by simpa using he
      exact ⟨rfl, hb ▸ .byte b tl rfl⟩
    case isFalse => simp at he

theorem vex2Head_consumes {m : Mode} {bs r : List Byte} {h : Head} (he : vex2Head m bs = .ok (h, r)) :
    ∃ p, h = .vex2 p ∧ Consumes (vex2Head m) [p, 0xE6#8] bs r := by
  cases bs with
  | nil => simp [vex2Head] at he
  | cons p tl =>
    simp only [vex2Head] at he
    split at he
    case isTrue hp =>
      obtain ⟨rfl, hown⟩ := expectOpcode_consumes he
      exact ⟨p, rfl, hown.cons rfl fun t ht => by simp only [vex2Head, hp, if_true, ht]⟩
    case isFalse => simp at he

theorem vex3Head_consumes {m : Mode} {bs r : List Byte} {h : Head} (he : vex3Head m bs = .ok (h, r)) :
    ∃ p0 p1, h = .vex3 p0 p1 ∧ Consumes (vex3Head m) [p0, p1, 0xE6#8] bs r := by
  match bs, he with
  | p0 :: p1 :: tl, he =>
    simp only [vex3Head] at he
    split at he
    case isTrue hp =>
      obtain ⟨rfl, hown⟩ := expectOpcode_consumes he
      have hfull := hown.cons (read' := fun t => vex3Head m (p0 :: t)) (b := p1) ?_ fun t ht => ?_
      · exact ⟨p0, p1, rfl, hfull.cons rfl fun _ ht => ht⟩
      · simp only [Bool.and_eq_true] at hp
        simp only [vex3Head, hp.1.1, if_true]
      · simp only [vex3Head, hp, if_true, ht]
    case isFalse => simp at he
  | [p0], he =>
    simp only [vex3Head] at he
    split at he <;> simp at he
  | [], he => simp [vex3Head] at he

theorem evexHead_consumes {m : Mode} {bs r : List Byte} {h : Head} (he : evexHead m bs = .ok (h, r)) :
    ∃ p0 p1 p2, h = .evex p0 p1 p2 ∧ Consumes (evexHead m) [p0, p1, p2, 0xE6#8] bs r := by
  match bs, he with
  | p0 :: p1 :: p2 :: tl, he =>
    simp only [evexHead] at he
    split at he
    case isTrue hp =>
      obtain ⟨rfl, hown⟩ := expectOpcode_consumes he
      have hholds : prefixHolds m p0 = true := by
        simp only [Bool.and_eq_true] at hp
        exact hp.1.1
      have h2 := hown.cons (read' := fun t => evexHead m (p0 :: p1 :: t)) (b := p2)
        (by simp only [evexHead, hholds, if_true]) fun t ht => by simp only [evexHead, hp, if_true, ht]
      have h1 := h2.cons (read' := fun t => evexHead m (p0 :: t)) (b := p1)
        (by simp only [evexHead, hholds, if_true]) fun _ ht => ht
      exact ⟨p0, p1, p2, rfl, h1.cons rfl fun _ ht => ht⟩
    case isFalse => simp at he
  | [p0], he | [p0, _], he =>
    simp only [evexHead] at he
    split at he <;> simp at he
  | [], he => simp [evexHead] at he

/-- The head's bytes: any fewer are truncated. -/
theorem parseHead_consumes {m : Mode} {bs r : List Byte} {h : Head} (hp : parseHead m bs = .ok (h, r)) :
    Consumes (parseHead m) h.bytes bs r := by
  cases bs with
  | nil => simp [parseHead] at hp
  | cons t tl =>
    by_cases h0 : t = 0x0F#8
    case pos =>
      subst h0
      obtain ⟨rfl, hown⟩ := expectOpcode_consumes hp
      exact hown.cons rfl fun _ e => e
    by_cases h1 : t = 0xC5#8
    case pos =>
      subst h1
      obtain ⟨p, rfl, hown⟩ := vex2Head_consumes hp
      exact hown.cons rfl fun _ e => e
    by_cases h2 : t = 0xC4#8
    case pos =>
      subst h2
      obtain ⟨p0, p1, rfl, hown⟩ := vex3Head_consumes hp
      exact hown.cons rfl fun _ e => e
    by_cases h3 : t = 0x62#8
    case pos =>
      subst h3
      obtain ⟨p0, p1, p2, rfl, hown⟩ := evexHead_consumes hp
      exact hown.cons rfl fun _ e => e
    simp [parseHead, h0, h1, h2, h3] at hp

/-! ### Prefixes -/

/-- A byte that is recorded is among the legacy prefixes. -/
theorem legacy_of_note {sc sc' : Scan} {b : Byte} (h : sc.note b = some sc') : isLegacyPrefix b = true := by
  by_contra hb
  simp only [isLegacyPrefix, List.mem_cons, List.not_mem_nil, or_false, decide_eq_true_eq, not_or] at hb
  obtain ⟨h1, h2, h3, h4, h5, h6, h7, h8, h9, h10, h11⟩ := hb
  simp [Scan.note, segOfByte, h1, h2, h3, h4, h5, h6, h7, h8, h9, h10, h11] at h

/-- The scan takes legacy prefixes off the front of the bytes and records them. -/
theorem scanPrefixes_eq (sc : Scan) (bs : List Byte) :
    ∃ pre, (∀ b ∈ pre, isLegacyPrefix b = true) ∧ bs = pre ++ (scanPrefixes sc bs).2
      ∧ (scanPrefixes sc bs).1 = sc.after pre := by
  induction bs generalizing sc with
  | nil => exact ⟨[], by simp, rfl, by simp [scanPrefixes, Scan.after]⟩
  | cons b tl ih =>
    cases hn : sc.note b with
    | none =>
      rw [scanPrefixes_stop _ _ _ hn]
      exact ⟨[], by simp, rfl, by simp [Scan.after]⟩
    | some sc' =>
      have hb := legacy_of_note hn
      obtain rfl := Option.some.inj ((note_legacy sc b hb).symm.trans hn)
      obtain ⟨pre, hpre, htl, hsc⟩ := ih (sc.after [b])
      have hcons : scanPrefixes sc (b :: tl) = scanPrefixes (sc.after [b]) tl := by rw [scanPrefixes, hn]
      rw [hcons]
      refine ⟨b :: pre, List.forall_mem_cons.2 ⟨hb, hpre⟩, ?_, ?_⟩
      · rw [List.cons_append, ← htl]
      · rw [hsc, after_append, List.singleton_append]

theorem takeRex_eq (m : Mode) (bs : List Byte) :
    RexBytes m (takeRex m bs).1.toList ∧ bs = (takeRex m bs).1.toList ++ (takeRex m bs).2 := by
  unfold takeRex
  split
  · split
    case isTrue h4 => exact ⟨.inr ⟨_, h4, rfl, rfl⟩, rfl⟩
    case isFalse => exact ⟨.inl rfl, rfl⟩
  · exact ⟨.inl rfl, rfl⟩

/-! ### The whole of the bytes -/

/-- The bytes that `parse` reads, part by part, and what it has checked of them. -/
structure ParsedFrom (m : Mode) (bs : List Byte) (p : Parsed) (rest pre own : List Byte) : Prop where
  bytes : bs = pre ++ (p.rex.toList ++ (p.head.bytes ++ (own ++ rest)))
  legacy : ∀ b ∈ pre, isLegacyPrefix b = true
  scan : p.scan = Scan.start.after pre
  rex : RexBytes m p.rex.toList
  head : headRejects p.scan p.rex p.head = none
  operand : p.raw ≠ .addr16 → own.length = p.raw.size ∧ p.raw.wf
  short : p.raw = .addr16 ↔ (m = .mode32 ∧ p.scan.n67 ≠ 0) ∧ p.raw.isReg = false

theorem parse_eq_ok {m : Mode} {bs rest : List Byte} {p : Parsed} (h : parse m bs = .ok (p, rest)) :
    ∃ pre own, ParsedFrom m bs p rest pre own := by
  obtain ⟨pre, hlegacy, hbs, hsc⟩ := scanPrefixes_eq Scan.start bs
  obtain ⟨hrex, hr0⟩ := takeRex_eq m (scanPrefixes Scan.start bs).2
  simp only [parse] at h
  split at h
  case h_1 => simp at h
  case h_2 hd r2 hhead =>
    split at h
    case h_1 => simp at h
    case h_2 hrej =>
      split at h
      case h_1 => simp at h
      case h_2 rg raw r3 hop =>
        obtain ⟨rfl, rfl⟩ : _ = p ∧ r3 = rest := by simpa using h
        obtain ⟨own, hown, hsize⟩ := parseOperand_consumes hop
        refine ⟨pre, own, ?_, hlegacy, hsc, hrex, hrej, hsize, ?_⟩
        · rw [← hown.bytes, ← (parseHead_consumes hhead).bytes, ← hr0, ← hbs]
        · simpa using parseOperand_addr16 hop

end Sys2Proof
end

section
/-! PROOFS. Encoding (30_encoding.md R60, R67, R81): what the decoder accepts is well formed, and its length. -/

namespace Sys2Proof

open Sys2Proof.Machine

/-! ### Acceptance -/

/-- What the decoder accepts it has parsed within 15 bytes, and no check rejects it. -/
theorem decode_eq_ok {env : DecodeEnv} {bs rest : List Byte} {i : Instr} (h : decode env bs = .ok (i, rest)) :
    ∃ p src, parse env.mode bs = .ok (p, rest) ∧ bs.length ≤ rest.length + 15 ∧ p.isUd = false
      ∧ p.refusal env = none ∧ operandOf p.head.isEvex (extOf p.rex p.head) p.raw = some src
      ∧ i = (p.fields src).toInstr := by
  unfold decode at h
  split at h
  case h_1 => split at h <;> simp at h
  case h_2 => simp at h
  case h_3 p r hp =>
    split at h
    case isTrue => simp at h
    case isFalse hlen =>
      split at h
      case isTrue => simp at h
      case isFalse hud =>
        split at h
        case h_1 => simp at h
        case h_2 href =>
          split at h
          case h_1 src hsrc =>
            obtain ⟨hi, rfl⟩ : _ = i ∧ r = rest := by simpa using h
            refine ⟨p, src, hp, ?_, by simpa using hud, href, hsrc, hi.symm⟩
            simp only [Config.maxLength] at hlen
            omega
          case h_2 => simp at h

/-- What is known of the bytes that the decoder accepts: what it read of them, `p`, passes every check. -/
structure Parsed.Accepted (env : DecodeEnv) (p : Parsed) (src : Operand) : Prop where
  ud : p.isUd = false
  refusal : p.refusal env = none
  operand : operandOf p.head.isEvex (extOf p.rex p.head) p.raw = some src
  rejects : headRejects p.scan p.rex p.head = none
  rex : RexBytes env.mode p.rex.toList
  raw : p.raw.wf
  short : env.mode = .mode32 → p.scan.n67 ≠ 0 → p.raw.isReg = true

section
variable {env : DecodeEnv} {p : Parsed} {src : Operand}

theorem operandOf_isMem {ev : Bool} {e : Ext} {raw : RawOperand} (h : operandOf ev e raw = some src) :
    src.isMem = !raw.isReg ∧ raw ≠ .addr16 := by
  cases raw <;> simp_all [operandOf] <;> subst h <;> rfl

theorem Parsed.Accepted.illegalPrefix_eq_false (h : p.Accepted env src) :
    illegalPrefix p.scan p.rex p.head = false := by
  have hud := h.ud
  simp only [Parsed.isUd, Bool.or_eq_false_iff] at hud
  exact hud.1.1

/-- Neither F0H, F2H nor F3H is among the prefixes, 66H only before the legacy form, REX not before VEX or EVEX. -/
theorem Parsed.Accepted.prefixes (h : p.Accepted env src) : p.scan.lock = false ∧ p.scan.rep = false
    ∧ (p.head.isVexEvex = false → p.scan.n66 ≠ 0) ∧ (p.head.isVexEvex = true → p.scan.n66 = 0 ∧ p.rex = none) := by
  have hill := h.illegalPrefix_eq_false
  have hrej := h.rejects
  cases hh : p.head with
  | legacy =>
    rw [hh] at hill hrej
    have hor : ¬ (p.scan.n66 = 0 ∨ p.scan.rep = true) := fun e => by
      simp [headRejects, Head.isVexEvex, e] at hrej
    simp_all [illegalPrefix, Head.isVexEvex]
  | vex2 P | vex3 P0 P1 | evex P0 P1 P2 =>
    rw [hh] at hill
    simp_all [illegalPrefix, Head.isVexEvex]

/-- Neither a segment override nor 67H is repeated, and in Mode32 no extension bit is set. -/
theorem Parsed.Accepted.single (h : p.Accepted env src) :
    p.scan.segs.length ≤ 1 ∧ p.scan.n67 ≤ 1 ∧ (env.mode = .mode32 → p.extended = false) := by
  have hr := h.refusal
  unfold Parsed.refusal at hr
  split at hr
  · simp at hr
  · split at hr
    · simp at hr
    · split at hr
      · simp at hr
      · simp_all

/-- The fields of accepted bytes go together. -/
theorem Parsed.Accepted.coherent (h : p.Accepted env src) : (p.fields src).coherent := by
  have hpre := h.prefixes
  have hmem := operandOf_isMem h.operand
  obtain ⟨sc, rex, head, reg, raw⟩ := p
  cases head with
  | legacy => cases rex <;> exact ⟨rfl, rfl, rfl⟩
  | vex2 P | vex3 P0 P1 =>
    have hn : sc.n66 = 0 := (hpre.2.2.2 rfl).1
    refine ⟨?_, rfl, rfl, by simp [Parsed.fields, hn]⟩
    simp only [Parsed.fields, Parsed.form]
    split <;> simp
  | evex P0 P1 P2 =>
    have hn : sc.n66 = 0 := (hpre.2.2.2 rfl).1
    refine ⟨?_, by simp [Parsed.fields, hn], fun hb hne => ?_⟩
    · simp only [Parsed.fields, Parsed.form]
      split_ifs <;> simp
    simp only [Parsed.fields] at hb
    rw [show (Parsed.fields ⟨sc, rex, .evex P0 P1 P2, reg, raw⟩ src).src = src from rfl, hmem.1]
    by_contra hreg
    exact hne (by simp_all [Parsed.fields, Parsed.form])

/-- Fields that go together are the fields of the row they name. -/
theorem Fields.fields_toInstr {f : Fields} (hc : f.coherent) : f.toInstr.fields = f := by
  obtain ⟨shape, form, x66, pre, dst, mask, bbit, src⟩ := f
  cases shape with
  | legacy | legacyRex =>
    obtain ⟨rfl, rfl, rfl⟩ := hc
    rfl
  | vex2 | vex3 =>
    obtain ⟨rfl | rfl, rfl, rfl, rfl⟩ := hc <;> rfl
  | evex =>
    obtain ⟨hform, rfl, hb⟩ := hc
    cases bbit with
    | false => rcases hform with rfl | rfl | rfl <;> rfl
    | true =>
      cases src with
      | mem a => rcases hform with rfl | rfl | rfl <;> rfl
      | reg r =>
        obtain rfl : form = .evex512 := by
          by_contra hne
          exact absurd (hb rfl hne) Bool.false_ne_true
        rfl

/-! ### The length -/

theorem length_modrmBytes (rg : BitVec 3) {ev : Bool} {e : Ext} {raw : RawOperand} (h : operandOf ev e raw = some src) :
    (modrmBytes rg src).length = raw.size := by
  cases raw <;> simp only [operandOf, Option.some.injEq, reduceCtorEq] at h <;> subst h <;>
    simp [modrmBytes, RawOperand.size, dword4] <;> omega

/-- A 66H and the two bytes of the legacy head, or a longer head, and a ModRM byte. -/
theorem Fields.four_le_length (f : Fields) : 4 ≤ f.encode.length := by
  have hmodrm : 1 ≤ (modrmBytes (lo3 f.dst.val) f.src).length := by
    rcases f.src with r | (⟨b, d⟩ | w | ⟨b, x, sc, d⟩ | ⟨x, sc, w⟩) <;> simp [modrmBytes]
  have hhead : 3 ≤ f.opsize.length + f.head.length := by
    unfold Fields.opsize Fields.head
    cases f.shape <;> simp
  simp only [Fields.encode, List.length_append]
  omega

/-- Legacy prefixes are counted by what is recorded of them. -/
theorem length_legacy {pre : List Byte} (h : ∀ b ∈ pre, isLegacyPrefix b = true) (h0 : 0xF0#8 ∉ pre) (h2 : 0xF2#8 ∉ pre)
    (h3 : 0xF3#8 ∉ pre) :
    pre.length = (Scan.start.after pre).n66 + (Scan.start.after pre).segs.length + (Scan.start.after pre).n67 := by
  have hbyte : ∀ b : Byte, isLegacyPrefix b = true → b ≠ 0xF0#8 → b ≠ 0xF2#8 → b ≠ 0xF3#8 →
      (b = 0x66#8 ∧ isSegOverride b = false) ∨ (b = 0x67#8 ∧ isSegOverride b = false)
        ∨ (b ≠ 0x66#8 ∧ b ≠ 0x67#8 ∧ isSegOverride b = true) := by decide
  simp only [Scan.after, Scan.start, Nat.zero_add, List.nil_append, length_segs]
  induction pre with
  | nil => rfl
  | cons b pre ih =>
    simp only [List.mem_cons, not_or, forall_eq_or_imp] at h h0 h2 h3
    have hlen := ih h.2 h0.2 h2.2 h3.2
    rcases hbyte b h.1 (Ne.symm h0.1) (Ne.symm h2.1) (Ne.symm h3.1) with ⟨rfl, hs⟩ | ⟨rfl, hs⟩ | ⟨h6, h7, hs⟩
    · simp [hs]; omega
    · simp [hs]; omega
    · simp [hs, h6, h7]; omega

theorem length_prefixBytes {segs : List SegReg} {n : Nat} (hs : segs.length ≤ 1) (hn : n ≤ 1) :
    (Prefixes.bytes ⟨segs.head?, n == 1⟩).length = segs.length + n := by
  rcases segs with _ | ⟨g, _ | ⟨g', segs⟩⟩
  · interval_cases n <;> rfl
  · interval_cases n <;> rfl
  · simp at hs

theorem Parsed.Accepted.length_head (h : p.Accepted env src) :
    (p.fields src).head.length = p.rex.toList.length + p.head.bytes.length := by
  obtain ⟨-, -, -, hvex⟩ := h.prefixes
  obtain ⟨sc, rex, head, reg, raw⟩ := p
  cases head with
  | legacy => cases rex <;> rfl
  | vex2 P | vex3 P0 P1 | evex P0 P1 P2 =>
    obtain rfl : rex = none := (hvex rfl).2
    rfl

theorem Parsed.Accepted.n66_fields (h : p.Accepted env src) : (p.fields src).n66 = p.scan.n66 := by
  obtain ⟨-, -, hlegacy, hvex⟩ := h.prefixes
  obtain ⟨sc, rex, head, reg, raw⟩ := p
  cases head with
  | legacy => cases rex <;> exact Nat.succ_pred_eq_of_ne_zero (hlegacy rfl)
  | vex2 P | vex3 P0 P1 | evex P0 P1 P2 => exact (hvex rfl).1.symm

/-- The encoding of accepted bytes' fields has as many bytes as were read. -/
theorem ParsedFrom.length_encode {bs rest pre own : List Byte} (hf : ParsedFrom env.mode bs p rest pre own)
    (h : p.Accepted env src) : (p.fields src).encode.length + rest.length = bs.length := by
  obtain ⟨hlock, hrep, hlegacy, hvex⟩ := h.prefixes
  obtain ⟨hsegs, h67, -⟩ := h.single
  have hown : own.length = p.raw.size := (hf.operand (operandOf_isMem h.operand).2).1
  have hpre : pre.length = p.scan.n66 + p.scan.segs.length + p.scan.n67 := by
    rw [hf.scan] at hlock hrep ⊢
    simp only [Scan.after, Scan.start, Bool.false_or, decide_eq_false_iff_not, not_or] at hlock hrep
    exact length_legacy hf.legacy hlock hrep.1 hrep.2
  have hopsize : (p.fields src).opsize.length = p.scan.n66 := by
    rw [Fields.opsize_eq, List.length_replicate, h.n66_fields]
  have hbytes : (p.fields src).pre.bytes.length = p.scan.segs.length + p.scan.n67 := length_prefixBytes hsegs h67
  have hmodrm : (modrmBytes (lo3 (p.fields src).dst.val) (p.fields src).src).length = p.raw.size :=
    length_modrmBytes _ h.operand
  rw [hf.bytes]
  simp only [Fields.encode, List.length_append, hopsize, hbytes, h.length_head, hpre, hown, hmodrm]
  omega

/-! ### The limits -/

theorem vregOf_lt (b4 b3 : Bool) (lo : BitVec 3) : (vregOf b4 b3 lo).val < if b4 then 32 else if b3 then 16 else 8 := by
  revert b4 b3 lo
  decide

theorem gprOf_lt (b3 : Bool) (lo : BitVec 3) : (gprOf b3 lo).val < if b3 then 16 else 8 := by
  revert b3 lo
  decide

/-- The extension bits that are set are ones that the shape has, and in Mode32 none is. -/
theorem Parsed.Accepted.ext_limits (h : p.Accepted env src) :
    ((extOf p.rex p.head).r' = true → p.shape.dstLimit env.mode = 32)
      ∧ ((extOf p.rex p.head).r = true → 16 ≤ p.shape.dstLimit env.mode)
      ∧ ((extOf p.rex p.head).x = true →
        (p.head.isEvex = true → p.shape.srcLimit env.mode = 32) ∧ p.shape.gprLimit env.mode = 16)
      ∧ ((extOf p.rex p.head).b = true → 16 ≤ p.shape.srcLimit env.mode ∧ p.shape.gprLimit env.mode = 16) := by
  cases hm : env.mode with
  | mode32 =>
    have hext := h.single.2.2 hm
    simp only [Parsed.extended, Bool.or_eq_false_iff] at hext
    obtain ⟨⟨⟨hr, hx⟩, hb⟩, hr'⟩ := hext
    simp [hr, hx, hb, hr']
  | mode64 =>
    obtain ⟨sc, rex, head, reg, raw⟩ := p
    cases head with
    | legacy => cases rex <;> simp [extOf, Parsed.shape, Shape.dstLimit, Shape.srcLimit, Shape.gprLimit, Head.isEvex]
    | vex2 P | vex3 P0 P1 | evex P0 P1 P2 =>
      simp [extOf, Parsed.shape, Shape.dstLimit, Shape.srcLimit, Shape.gprLimit, Head.isEvex]

theorem Shape.eight_le_limits (m : Mode) (sh : Shape) :
    8 ≤ sh.dstLimit m ∧ 8 ≤ sh.srcLimit m ∧ 8 ≤ sh.gprLimit m := by
  cases m <;> cases sh <;> decide

theorem Parsed.Accepted.dst_lt (h : p.Accepted env src) : (p.fields src).dst.val < p.shape.dstLimit env.mode := by
  obtain ⟨hr', hr, -, -⟩ := h.ext_limits
  have h8 := (Shape.eight_le_limits env.mode p.shape).1
  refine lt_of_lt_of_le (vregOf_lt _ _ _) ?_
  split_ifs with h1 h2
  · exact (hr' h1).ge
  · exact hr h2
  · exact h8

theorem gprOf_lt_of {n : Nat} {b3 : Bool} (lo : BitVec 3) (h8 : 8 ≤ n) (hb : b3 = true → 16 ≤ n) :
    (gprOf b3 lo).val < n := by
  refine lt_of_lt_of_le (gprOf_lt b3 lo) ?_
  split_ifs with h
  · exact hb h
  · exact h8

theorem gprOf_mod (b3 : Bool) (lo : BitVec 3) : (gprOf b3 lo).val % 8 = lo.toNat := by
  revert b3 lo
  decide

theorem indexOk_indexOf {n : Nat} {x : Bool} (lo : BitVec 3) (h8 : 8 ≤ n) (hx : x = true → 16 ≤ n) :
    indexOk n (indexOf x lo) = true := by
  unfold indexOf
  split_ifs with h4
  · rfl
  · simp only [indexOk, gprOf_lt_of lo h8 hx, decide_true, Bool.true_and, decide_eq_true_eq]
    exact fun e => h4 (Fin.ext e)

/-- An address read from the bytes is well formed where its extension bits may be set. -/
theorem Address.wf_of_raw {n : Nat} {ev : Bool} {e : Ext} {raw : RawOperand} {a : Address} (hraw : raw.wf) (h8 : 8 ≤ n)
    (hb : e.b = true → 16 ≤ n) (hx : e.x = true → 16 ≤ n) (h : operandOf ev e raw = some (.mem a)) : a.wf n = true := by
  have hmod : ∀ (lo : BitVec 3) (k : Nat) (hk : k < 8), (gprOf e.b lo).val % 8 = k → lo = BitVec.ofNat 3 k := by
    intro lo k hk he
    rw [gprOf_mod] at he
    exact BitVec.eq_of_toNat_eq (by simpa [Nat.mod_eq_of_lt hk] using he)
  cases raw with
  | reg rm | addr16 => simp [operandOf] at h
  | base rm d =>
    obtain rfl : Address.base _ d = a := by simpa [operandOf] using h
    simp only [Address.wf, gprOf_lt_of rm h8 hb, decide_true, Bool.true_and, Bool.and_eq_true, Bool.or_eq_true,
      decide_eq_true_eq]
    exact ⟨fun e4 => hraw.1 (hmod rm 4 (by decide) e4), or_iff_not_imp_left.2 fun e5 =>
      hraw.2 (hmod rm 5 (by decide) (not_not.1 e5))⟩
  | disp32 w =>
    obtain rfl : Address.disp32 w = a := by simpa [operandOf] using h
    rfl
  | sib sc ix bs d =>
    obtain rfl : Address.sib _ _ _ d = a := by simpa [operandOf] using h
    simp only [Address.wf, gprOf_lt_of bs h8 hb, indexOk_indexOf ix h8 hx, decide_true, Bool.true_and, Bool.or_eq_true,
      decide_eq_true_eq]
    exact or_iff_not_imp_left.2 fun e5 => hraw (hmod bs 5 (by decide) (not_not.1 e5))
  | sibNoBase sc ix w =>
    obtain rfl : Address.sibNoBase _ _ w = a := by simpa [operandOf] using h
    exact indexOk_indexOf ix h8 hx

theorem Parsed.Accepted.src_wf (h : p.Accepted env src) : src.wf env.mode p.shape = true := by
  obtain ⟨-, -, hx, hb⟩ := h.ext_limits
  obtain ⟨-, hs8, hg8⟩ := Shape.eight_le_limits env.mode p.shape
  cases src with
  | mem a => exact Address.wf_of_raw h.raw hg8 (fun e => (hb e).2.ge) (fun e => (hx e).2.ge) h.operand
  | reg r =>
    have hop := h.operand
    have hmem := (operandOf_isMem hop).1
    cases hraw : p.raw with
    | reg rm =>
      rw [hraw] at hop
      obtain rfl : vregOf _ _ rm = r := by simpa [operandOf] using hop
      simp only [Operand.wf, decide_eq_true_eq]
      refine lt_of_lt_of_le (vregOf_lt _ _ _) ?_
      split_ifs with h4 h3
      · simp only [Bool.and_eq_true] at h4
        exact ((hx h4.2).1 h4.1).ge
      · exact (hb h3).1
      · exact hs8
    | base rm d | disp32 w | sib sc ix bs d | sibNoBase sc ix w | addr16 =>
      simp [hraw, RawOperand.isReg, Operand.isMem] at hmem

/-- Accepted bytes give fields within every limit. -/
theorem Parsed.Accepted.limits (h : p.Accepted env src) : (p.fields src).Limits env.mode where
  dst := h.dst_lt
  src := h.src_wf
  mask := by
    have hud := h.ud
    have hk : ∀ a : BitVec 3, a.toFin = 0 → a = 0#3 := by decide
    obtain ⟨sc, rex, head, reg, raw⟩ := p
    cases head with
    | legacy => cases rex <;> rfl
    | vex2 P | vex3 P0 P1 => rfl
    | evex P0 P1 P2 =>
      simp only [Parsed.isUd, Bool.or_eq_false_iff, Head.isEvex, Bool.true_and, Bool.and_eq_false_iff,
        decide_eq_false_iff_not] at hud
      obtain ⟨-, ⟨-, hz⟩, -⟩ := hud
      simp only [Masking.wf, Parsed.fields, Bool.or_eq_true, Bool.not_eq_true']
      exact hz.imp_right fun hne => decide_eq_true fun e => hne (hk _ e)
  noRex hm := by
    have hrex : p.rex = none := by
      rcases h.rex with e | ⟨_, -, e, -⟩
      · simpa using e
      · simp [hm] at e
    show p.shape ≠ _
    unfold Parsed.shape
    rw [hrex]
    cases p.head <;> simp
  noShort hm := by
    by_cases hn : p.scan.n67 = 0
    · left
      simp [Parsed.fields, hn]
    · right
      show src.isMem = false
      rw [(operandOf_isMem h.operand).1, h.short hm hn]
      rfl

end

/-- Settles O3: accepted bytes give fields within every limit, whose encoding has as many bytes as were read. -/
theorem decodedIsWellFormed : Obligations.DecodedIsWellFormed := by
  unfold Obligations.DecodedIsWellFormed
  intro env bs rest i h
  obtain ⟨p, src, hp, hlen, hud, hr, hop, rfl⟩ := decode_eq_ok h
  obtain ⟨pre, own, hf⟩ := parse_eq_ok hp
  have hraw := (operandOf_isMem hop).2
  have hacc : p.Accepted env src := ⟨hud, hr, hop, hf.head, hf.rex, (hf.operand hraw).2, fun hm hn => by
    by_contra hreg
    exact hraw (hf.short.2 ⟨⟨hm, hn⟩, by simpa using hreg⟩)⟩
  have hfields := Fields.fields_toInstr hacc.coherent
  have hbytes := hf.length_encode hacc
  have hlength : ((p.fields src).toInstr).length = (p.fields src).encode.length := by
    rw [Instr.length, Instr.encode, hfields]
  have hle : (p.fields src).encode.length ≤ 15 := by omega
  rw [Instr.wf, hfields, hlength, Bool.and_eq_true, decide_eq_true_eq, Fields.wf_iff]
  refine ⟨⟨hacc.limits, hle⟩, Fields.four_le_length _, hle, pre ++ (p.rex.toList ++ (p.head.bytes ++ own)), ?_, ?_⟩
  · simp only [hf.bytes, List.append_assoc]
  · have hlen' := congrArg List.length hf.bytes
    simp only [List.length_append] at hlen' ⊢
    omega

/-- Settles O1: the decoder evaluated on the nine words. -/
theorem tableWordsDecode : Obligations.TableWordsDecode := by
  unfold Obligations.TableWordsDecode
  decide

end Sys2Proof
end

section
/-! PROOFS. Encoding (30_encoding.md R60 to R83): the step on bytes that are `#UD` or refused. -/

namespace Sys2Proof

open Sys2Proof.Machine

/-! ### From the bytes to the decoder's answer -/

/-- Settles O13: the step on rejected bytes is `rejectDecode`. -/
theorem stepOfRejectedBytes : Obligations.StepOfRejectedBytes := by
  unfold Obligations.StepOfRejectedBytes
  intro s e h
  have hstep := step_of_error h
  refine ⟨?_, ?_, fun hud hlong => ?_⟩
  · rintro rfl
    exact hstep
  · rintro rfl
    exact hstep
  · cases e with
    | ud => exact absurd rfl hud
    | tooLong => exact absurd rfl hlong
    | otherInstruction | saeVectorLength | mode32Extension | addr16 | repeatedPrefix | evexReserved | truncated =>
      exact ⟨_, hstep⟩

/-- What cannot be parsed is rejected for the same reason, if no byte is missing. -/
theorem decode_of_parse_error {env : DecodeEnv} {bs : List Byte} {e : DecodeError} (h : parse env.mode bs = .error e)
    (he : e ≠ .truncated) : decode env bs = .error e := by
  cases e with
  | truncated => exact absurd rfl he
  | ud | tooLong | otherInstruction | saeVectorLength | mode32Extension | addr16 | repeatedPrefix | evexReserved =>
    rw [decode, h]

/-- Prefixes and a REX byte before bytes that have no head: the reason is the head's. -/
theorem parse_of_head_error {m : Mode} {pre rex bs : List Byte} {e : DecodeError}
    (hp : ∀ c ∈ pre, isLegacyPrefix c = true) (hr : RexBytes m rex)
    (hb : ∀ b ∈ bs.head?, b ∈ [0x0F#8, 0xC5#8, 0xC4#8, 0x62#8]) (hh : parseHead m bs = .error e) :
    parse m (pre ++ (rex ++ bs)) = .error e := by
  have hscan : scanPrefixes Scan.start (pre ++ (rex ++ bs)) = (Scan.start.after pre, rex ++ bs) := by
    rw [scanPrefixes_legacy pre hp]
    rcases hr with rfl | ⟨r, h4, -, rfl⟩
    · cases bs with
      | nil => rfl
      | cons b tl => exact scanPrefixes_stop _ _ _ (note_head b (hb b rfl) _)
    · exact scanPrefixes_stop _ _ _ (note_rex r h4 _)
  have hrex : takeRex m (rex ++ bs) = (rex.head?, bs) := by
    cases bs with
    | cons b tl => exact takeRex_rexBytes hr (hb b rfl) tl
    | nil =>
      rcases hr with rfl | ⟨r, h4, rfl, rfl⟩
      · cases m <;> rfl
      · simp [takeRex, h4]
  simp only [parse, hscan, hrex, hh]

/-- Prefixes, a REX byte and a head that is refused: the decoder refuses, whatever follows. -/
theorem decode_of_head_rejected {env : DecodeEnv} {pre rex tl tail : List Byte} {b : Byte} {h : Head} {e : DecodeError}
    (hp : ∀ c ∈ pre, isLegacyPrefix c = true) (hr : RexBytes env.mode rex) (hb : b ∈ [0x0F#8, 0xC5#8, 0xC4#8, 0x62#8])
    (hh : parseHead env.mode (b :: tl) = .ok (h, tail)) (hj : headRejects (Scan.start.after pre) rex.head? h = some e)
    (he : e ≠ .truncated) : decode env (pre ++ (rex ++ b :: tl)) = .error e := by
  refine decode_of_parse_error ?_ he
  rw [parse_of_head hp hr hb hh, hj]

/-! ### Prefixes that are `#UD` or refused -/

/-- A VEX or EVEX head that holds no reserved bit, or comes after illegal prefixes, is not refused. -/
theorem headRejects_of_vex {sc : Scan} {rex : Option Byte} {h : Head} (hv : h.isVexEvex = true)
    (hr : h.reservedBits = false ∨ illegalPrefix sc rex h = true) : headRejects sc rex h = none := by
  rcases hr with hr | hr <;> simp [headRejects, hv, hr]

theorem Parsed.isUd_of_illegalPrefix {p : Parsed} (h : illegalPrefix p.scan p.rex p.head = true) : p.isUd = true := by
  simp [Parsed.isUd, h]

/-- The multi-byte prefixes with their opcode are read as VEX and EVEX heads. -/
theorem Machine.VexHead.parseHead_eq {m : Mode} {head : List Byte} (h : VexHead m head) :
    ∃ b tl hd, head = b :: tl ∧ b ∈ [0x0F#8, 0xC5#8, 0xC4#8, 0x62#8]
      ∧ (∀ tail, parseHead m (b :: (tl ++ tail)) = .ok (hd, tail)) ∧ hd.isVexEvex = true
      ∧ (ReservedBits head → hd.reservedBits = true) := by
  cases h with
  | vex2 P ha hp =>
    exact ⟨_, _, _, rfl, by decide, fun _ => parseHead_vex2 ha hp _, rfl, by simp [ReservedBits]⟩
  | vex3 P0 P1 ha hm hp =>
    exact ⟨_, _, _, rfl, by decide, fun _ => parseHead_vex3 ha hm hp _, rfl, by simp [ReservedBits]⟩
  | evex P0 P1 P2 ha hm hp =>
    refine ⟨_, _, _, rfl, by decide, fun _ => parseHead_evex P2 ha hm hp _, rfl, ?_⟩
    rintro ⟨_, _, _, e, hbits⟩
    cases e
    simpa [Head.reservedBits] using hbits

/-- Settles O7: before a VEX or EVEX head illegal prefixes are looked for first, and F0H before the legacy form too. -/
theorem illegalPrefixesFault : Obligations.IllegalPrefixesFault := by
  unfold Obligations.IllegalPrefixesFault
  intro s pre rex tail raw hp ho hr
  refine ⟨fun head hv hc hill => ?_, fun hc h66 hF2 hF3 hF0 => ?_⟩
  · obtain ⟨b, tl, hd, rfl, hb, hh, hvex, -⟩ := hv.parseHead_eq
    have hillegal : illegalPrefix (Scan.start.after pre) rex.head? hd = true := by
      simp only [illegalPrefix, Scan.after, Scan.start, hvex]
      rcases hill with h | h | h | h | h
      · simp [List.count_eq_zero, h]
      · simp [h]
      · simp [h]
      · simp [h]
      · cases rex with
        | nil => exact absurd rfl h
        | cons r l => simp
    exact step_ud_of_head hp hr hb (hh tail) ho hc (headRejects_of_vex hvex (.inr hillegal))
      fun rg => Parsed.isUd_of_illegalPrefix hillegal
  · refine step_ud_of_head hp hr (by decide) (parseHead_sse _ _) ho hc ?_
      fun rg => Parsed.isUd_of_illegalPrefix (by simp [illegalPrefix, Scan.after, hF0])
    simp [headRejects, Head.isVexEvex, Head.reservedBits, Scan.after, Scan.start, List.count_eq_zero, h66, hF2, hF3]

/-- Settles O57: with F2H or F3H, or without 66H, the legacy head is refused. -/
theorem otherOpcodesRefused : Obligations.OtherOpcodesRefused := by
  unfold Obligations.OtherOpcodesRefused
  intro s pre rex tail hp hr hc hother
  have hrej : headRejects (Scan.start.after pre) rex.head? .legacy = some .otherInstruction := by
    rcases hother with h | h | h <;>
      simp [headRejects, Head.isVexEvex, Scan.after, Scan.start, List.count_eq_zero.2, h]
  refine (step_of_error (e := .otherInstruction) ?_)
  rw [hc]
  exact decode_of_head_rejected hp hr (by decide) (parseHead_sse _ _) hrej (by decide)

/-- Settles O59: no illegal prefixes standing there, the reserved bits refuse the head before anything after it is
read. -/
theorem evexReservedRefused : Obligations.EvexReservedRefused := by
  unfold Obligations.EvexReservedRefused
  intro s pre head tail hp hv hres hc
  obtain ⟨b, tl, hd, rfl, hb, hh, hvex, hbits⟩ := hv.parseHead_eq
  obtain ⟨hlegacy, hF0, hF2, hF3⟩ := legacy_of_sound fun c h => (hp c h).imp_right .inr
  have h66 : 0x66#8 ∉ pre := fun h => absurd (hp _ h) (by decide)
  have hrej : headRejects (Scan.start.after pre) ([] : List Byte).head? hd = some .evexReserved := by
    simp [headRejects, illegalPrefix, hvex, hbits hres, Scan.after, Scan.start, List.count_eq_zero.2, h66, hF0, hF2,
      hF3]
  refine step_of_error (e := .evexReserved) ?_
  rw [hc]
  exact decode_of_head_rejected hlegacy (.inl rfl) hb (hh tail) hrej (by decide)

/-- Settles O9: in Mode32 the byte after C4H, C5H or 62H decides that there is no VEX or EVEX head. -/
theorem mode32NeedsPrefixBits : Obligations.Mode32NeedsPrefixBits := by
  unfold Obligations.Mode32NeedsPrefixBits
  intro s pre tail t p hm hp ht hc hbits
  have hholds : prefixHolds .mode32 p = false := by simpa [prefixHolds] using hbits
  have hhead : parseHead .mode32 (t :: p :: tail) = .error .otherInstruction := by
    simp only [List.mem_cons, List.not_mem_nil, or_false] at ht
    rcases ht with rfl | rfl | rfl
    · cases tail <;> simp [parseHead, vex3Head, hholds]
    · simp [parseHead, vex2Head, hholds]
    · rcases tail with _ | ⟨p1, _ | ⟨p2, tl⟩⟩ <;> simp [parseHead, evexHead, hholds]
  refine step_of_error (e := .otherInstruction) (decode_of_parse_error ?_ (by decide))
  rw [hc, show (decodeEnv s).mode = .mode32 from hm]
  refine parse_of_head_error (rex := []) hp (.inl rfl) (fun b hb => ?_) hhead
  have hsub : ∀ t ∈ [0xC4#8, 0xC5#8, 0x62#8], t ∈ [0x0F#8, 0xC5#8, 0xC4#8, 0x62#8] := by decide
  exact hsub b (Option.some.inj hb ▸ ht)

/-! ### Fields that are `#UD` -/

/-- R80 for the EVEX forms, field by field. -/
theorem Parsed.isUd_evex_iff {p : Parsed} {P0 P1 P2 : Byte} (hhead : p.head = .evex P0 P1 P2) :
    p.isUd = true ↔ illegalPrefix p.scan p.rex p.head = true ∨ P1.extractLsb' 3 4 ≠ 15#4 ∨ P2.getLsbD 3 = false
      ∨ P1.getLsbD 7 = false ∨ (P2.getLsbD 7 = true ∧ P2.extractLsb' 0 3 = 0#3)
      ∨ (P2.extractLsb' 5 2 = 3#2 ∧ ¬ (p.raw.isReg = true ∧ P2.getLsbD 4 = true)) := by
  simp only [Parsed.isUd, hhead, extOf, Head.isEvex, Bool.true_and, Bool.or_eq_true, Bool.and_eq_true,
    Bool.not_eq_true', decide_eq_true_eq, ← Bool.not_eq_true, not_and_or, or_assoc]

/-- P0[3:0] = 0001b: `mm` and the reserved bits beside it (R64). -/
theorem evex_p0_low {P : Byte} (h : P.extractLsb' 0 4 = 1#4) : P.extractLsb' 0 2 = 1#2 ∧ P.extractLsb' 2 2 = 0#2 := by
  revert P
  decide

/-- P1[2:0] = 101b: `pp` and the bit beside it that must be 1 (R64). -/
theorem evex_p1_low {P : Byte} (h : P.extractLsb' 0 3 = 5#3) : P.extractLsb' 0 2 = 1#2 ∧ P.getLsbD 2 = true := by
  revert P
  decide

/-- An EVEX encoding of this instruction with no reserved bit wrong, and a field that is `#UD`. -/
theorem step_ud_of_evex {s : State} {pre tail : List Byte} {raw : RawOperand} {P0 P1 P2 : Byte}
    (hp : ∀ b ∈ pre, isLegacyPrefix b = true) (ho : OperandIs (shortAddress s.mode pre) raw tail)
    (hc : codeBytes s = pre ++ 0x62#8 :: P0 :: P1 :: P2 :: 0xE6#8 :: tail) (ha : prefixAllowed s.mode P0)
    (h0 : P0.extractLsb' 0 4 = 1#4) (h1 : P1.extractLsb' 0 3 = 5#3)
    (hu : ∀ p : Parsed, p.head = .evex P0 P1 P2 → p.raw = raw → p.isUd = true) : step s = .fault (.ud s) := by
  obtain ⟨hmm, hres0⟩ := evex_p0_low h0
  obtain ⟨hpp, hres1⟩ := evex_p1_low h1
  refine step_ud_of_head (rex := []) hp (.inl rfl) (by decide) (parseHead_evex P2 ha hmm hpp _) ho hc ?_
    fun rg => hu _ rfl rfl
  exact headRejects_of_vex rfl (.inl (by simp [Head.reservedBits, hres0, hres1]))

/-- Settles O4: the stored `vvvv` and `~V'` are among the fields of `isUd`. -/
theorem reservedVvvvFaults : Obligations.ReservedVvvvFaults := by
  unfold Obligations.ReservedVvvvFaults
  intro s pre tail raw hp ho
  refine ⟨fun P hc ha hpp hv => ?_, fun P0 P1 hc ha hm hpp hv => ?_, fun P0 P1 P2 hc ha h0 h1 hv => ?_⟩
  · exact step_ud_of_head hp (.inl rfl) (by decide) (parseHead_vex2 ha hpp _) ho hc
      (headRejects_of_vex rfl (.inl rfl)) fun rg => by simp [Parsed.isUd, extOf, hv]
  · exact step_ud_of_head hp (.inl rfl) (by decide) (parseHead_vex3 ha hm hpp _) ho hc
      (headRejects_of_vex rfl (.inl rfl)) fun rg => by simp [Parsed.isUd, extOf, hv]
  · refine step_ud_of_evex hp ho hc ha h0 h1 fun p hhead hraw => ?_
    exact (p.isUd_evex_iff hhead).2 (.inr (hv.imp_right .inl))

/-- Settles O5: `L'L` and the masking fields are among the fields of `isUd`. -/
theorem illegalEvexFieldsFault : Obligations.IllegalEvexFieldsFault := by
  unfold Obligations.IllegalEvexFieldsFault
  intro s pre tail raw P0 P1 P2 hp ho hc ha h0 h1 hill
  refine step_ud_of_evex hp ho hc ha h0 h1 fun p hhead hraw => ?_
  rw [← hraw] at hill
  exact (p.isUd_evex_iff hhead).2 (.inr (.inr (.inr (.inr hill.symm))))

/-! ### The W bits (R72) -/

/-- Two readings that the checks and the instruction's fields do not tell apart. -/
structure Parsed.Agree (p p' : Parsed) : Prop where
  isUd : p'.isUd = p.isUd
  refusal : ∀ env, p'.refusal env = p.refusal env
  operand : operandOf p'.head.isEvex (extOf p'.rex p'.head) p'.raw = operandOf p.head.isEvex (extOf p.rex p.head) p.raw
  fields : ∀ src, p'.fields src = p.fields src

/-- Bytes of one length whose readings agree decode alike. -/
theorem decode_congr {env : DecodeEnv} {bs bs' : List Byte} (hlen : bs'.length = bs.length)
    (h : (∃ e, parse env.mode bs = .error e ∧ parse env.mode bs' = .error e)
      ∨ ∃ p p' rest, parse env.mode bs = .ok (p, rest) ∧ parse env.mode bs' = .ok (p', rest) ∧ p.Agree p') :
    decode env bs' = decode env bs := by
  rcases h with ⟨e, h, h'⟩ | ⟨p, p', rest, h, h', hagree⟩
  · simp only [decode, h, h', hlen]
  · simp only [decode, h, h', hlen, hagree.isUd, hagree.refusal, hagree.operand, hagree.fields]

/-- After heads that differ in no way but what the readings agree on, the decoder's answer is the same. -/
theorem decode_congr_of_head {env : DecodeEnv} {pre rex rex' tl tl' : List Byte} {b : Byte}
    (hp : ∀ c ∈ pre, isLegacyPrefix c = true) (hr : RexBytes env.mode rex) (hr' : RexBytes env.mode rex')
    (hb : b ∈ [0x0F#8, 0xC5#8, 0xC4#8, 0x62#8])
    (hlen : rex'.length + tl'.length = rex.length + tl.length)
    (h : (∃ e, parseHead env.mode (b :: tl) = .error e ∧ parseHead env.mode (b :: tl') = .error e)
      ∨ ∃ hd hd' tail, parseHead env.mode (b :: tl) = .ok (hd, tail) ∧ parseHead env.mode (b :: tl') = .ok (hd', tail)
        ∧ (∀ sc, headRejects sc rex'.head? hd' = headRejects sc rex.head? hd)
        ∧ ∀ sc rg raw, Parsed.Agree ⟨sc, rex.head?, hd, rg, raw⟩ ⟨sc, rex'.head?, hd', rg, raw⟩) :
    decode env (pre ++ (rex' ++ b :: tl')) = decode env (pre ++ (rex ++ b :: tl)) := by
  refine decode_congr (by simp only [List.length_append, List.length_cons]; omega) ?_
  rcases h with ⟨e, h, h'⟩ | ⟨hd, hd', tail, h, h', hrej, hagree⟩
  · exact .inl ⟨e, parse_of_head_error hp hr (by simpa using hb) h, parse_of_head_error hp hr' (by simpa using hb) h'⟩
  · rw [parse_of_head hp hr hb h, parse_of_head hp hr' hb h', hrej]
    cases headRejects (Scan.start.after pre) rex.head? hd with
    | some e => exact .inl ⟨e, rfl, rfl⟩
    | none =>
      cases parseOperand (shortAddress env.mode pre) tail with
      | error e => exact .inl ⟨e, rfl, rfl⟩
      | ok r => exact .inr ⟨_, _, _, rfl, rfl, hagree _ _ _⟩

/-- The opcode byte is expected of either head alike. -/
theorem expectOpcode_both (h h' : Head) (bs : List Byte) :
    (∃ e, expectOpcode h bs = .error e ∧ expectOpcode h' bs = .error e)
      ∨ ∃ tail, expectOpcode h bs = .ok (h, tail) ∧ expectOpcode h' bs = .ok (h', tail) := by
  cases bs with
  | nil => exact .inl ⟨_, rfl, rfl⟩
  | cons b tl =>
    by_cases hb : b = 0xE6#8
    · exact .inr ⟨tl, by simp [expectOpcode, hb], by simp [expectOpcode, hb]⟩
    · exact .inl ⟨.otherInstruction, by simp [expectOpcode, hb], by simp [expectOpcode, hb]⟩

/-- Flipping bit 7, VEX.W, leaves the other fields of P1. -/
theorem fields_flip_vexW (P : Byte) : (P ^^^ 0x80#8).extractLsb' 0 2 = P.extractLsb' 0 2
    ∧ (P ^^^ 0x80#8).extractLsb' 2 1 = P.extractLsb' 2 1 ∧ (P ^^^ 0x80#8).extractLsb' 3 4 = P.extractLsb' 3 4 := by
  revert P
  decide

/-- Flipping bit 3, REX.W, leaves the other fields of a REX byte. -/
theorem fields_flip_rexW (r : Byte) : (r ^^^ 0x08#8).extractLsb' 4 4 = r.extractLsb' 4 4
    ∧ (r ^^^ 0x08#8).getLsbD 2 = r.getLsbD 2 ∧ (r ^^^ 0x08#8).getLsbD 1 = r.getLsbD 1
    ∧ (r ^^^ 0x08#8).getLsbD 0 = r.getLsbD 0 := by
  revert r
  decide

theorem agree_flip_vexW (sc : Scan) (rex : Option Byte) (P0 P1 : Byte) (rg : BitVec 3) (raw : RawOperand) :
    Parsed.Agree ⟨sc, rex, .vex3 P0 P1, rg, raw⟩ ⟨sc, rex, .vex3 P0 (P1 ^^^ 0x80#8), rg, raw⟩ := by
  obtain ⟨-, hl, hv⟩ := fields_flip_vexW P1
  constructor
  · simp only [Parsed.isUd, extOf, hv]
    rfl
  · exact fun env => rfl
  · rfl
  · intro src
    simp only [Parsed.fields, Parsed.form, extOf, hl]
    rfl

theorem agree_flip_rexW (sc : Scan) (r : Byte) (rg : BitVec 3) (raw : RawOperand) :
    Parsed.Agree ⟨sc, some r, .legacy, rg, raw⟩ ⟨sc, some (r ^^^ 0x08#8), .legacy, rg, raw⟩ := by
  obtain ⟨-, hr, hx, hb⟩ := fields_flip_rexW r
  have hop : operandOf false (extOf (some (r ^^^ 0x08#8)) .legacy) raw
      = operandOf false (extOf (some r) .legacy) raw := by
    cases raw <;> simp only [operandOf, extOf, hx, hb]
  constructor
  · rfl
  · intro env
    simp only [Parsed.refusal, Parsed.extended, extOf, hr, hx, hb]
    rfl
  · exact hop
  · intro src
    simp only [Parsed.fields, extOf, hr]
    rfl

/-- What is checked of P0 and P1 of the three-byte VEX form before the opcode. -/
theorem parseHead_vex3_eq (m : Mode) (P0 P1 : Byte) (tl : List Byte) : parseHead m (0xC4#8 :: P0 :: P1 :: tl)
    = if prefixHolds m P0 && decide (P0.extractLsb' 0 5 = 1#5) && decide (P1.extractLsb' 0 2 = 1#2) then
        expectOpcode (.vex3 P0 P1) tl
      else .error .otherInstruction := rfl

/-- Settles O6: W is no field that the checks or the instruction's fields read, but in EVEX, where it must be 1. -/
theorem wBits : Obligations.WBits := by
  unfold Obligations.WBits
  refine ⟨fun env pre tail P0 P1 hp => ?_, fun env pre tail r hp h4 hm => ?_, ?_⟩
  · refine decode_congr_of_head (rex := []) (rex' := []) hp (.inl rfl) (.inl rfl) (by decide) rfl ?_
    rw [parseHead_vex3_eq, parseHead_vex3_eq, (fields_flip_vexW P1).1]
    split
    · rcases expectOpcode_both (.vex3 P0 P1) (.vex3 P0 (P1 ^^^ 0x80#8)) tail with herr | ⟨tl, h, h'⟩
      · exact .inl herr
      · exact .inr ⟨_, _, tl, h, h', fun _ => rfl, fun sc rg raw => agree_flip_vexW sc _ P0 P1 rg raw⟩
    · exact .inl ⟨_, rfl, rfl⟩
  · have h4' : (r ^^^ 0x08#8).extractLsb' 4 4 = 4#4 := (fields_flip_rexW r).1.trans h4
    refine decode_congr_of_head (rex := [r]) (rex' := [r ^^^ 0x08#8]) hp (.inr ⟨_, h4, hm, rfl⟩)
      (.inr ⟨_, h4', hm, rfl⟩) (by decide) rfl ?_
    rcases expectOpcode_both .legacy .legacy tail with ⟨e, h, -⟩ | ⟨tl, h, -⟩
    · exact .inl ⟨e, h, h⟩
    · exact .inr ⟨_, _, tl, h, h, fun _ => rfl, fun sc rg raw => agree_flip_rexW sc r rg raw⟩
  · intro s pre tail raw P0 P1 P2 hp ho hc ha h0 h1 hw
    refine step_ud_of_evex hp ho hc ha h0 h1 fun p hhead hraw => ?_
    exact (p.isUd_evex_iff hhead).2 (.inr (.inr (.inr (.inl hw))))
end Sys2Proof
end

section
/-! PROOFS. Encoding (30_encoding.md R60, R80, R81): sound bytes, what refuses them, and what accepts them. -/

namespace Sys2Proof

open Sys2Proof.Machine

/-! ### The refusals in order (log 17) -/

open scoped Classical in
/-- On sound bytes the decoder answers by R81's rows 1, 5, 2 and 4, in this order, and else with an instruction. -/
theorem decode_sound_eq {env : DecodeEnv} {bs pre head : List Byte} {raw : RawOperand}
    (h : SoundBytes env.mode bs pre head raw) (hlen : bs.length ≤ 15) :
    ∃ i rest, decode env bs =
      if ¬ (SaeMismatch head raw → env.saeLLIgnored = true) then .error .saeVectorLength
      else if Repeated pre then .error .repeatedPrefix
      else if env.mode = .mode32 ∧ ExtensionBits head then .error .mode32Extension
      else if shortAddress env.mode pre = true ∧ raw.isReg = false then .error .addr16
      else .ok (i, rest) := by
  obtain ⟨p, rest, hscan, hraw, hsae, hext, hshort, -, hdec⟩ := decode_sound h hlen
  have hrep := repeated_iff pre
  rw [← hscan] at hrep
  have hsae' : (p.badSae && !env.saeLLIgnored) = true ↔ ¬ (SaeMismatch head raw → env.saeLLIgnored = true) := by
    rw [Bool.and_eq_true, Bool.not_eq_true', hsae, Classical.not_imp, Bool.not_eq_true]
  have hext' : (decide (env.mode = .mode32) && p.extended) = true ↔ env.mode = .mode32 ∧ ExtensionBits head := by
    rw [Bool.and_eq_true, decide_eq_true_eq]
    exact and_congr_right hext
  refine ⟨(p.fields ((operandOf p.head.isEvex (extOf p.rex p.head) p.raw).getD (.reg 0))).toInstr, rest, ?_⟩
  rw [hdec, Parsed.refusal]
  by_cases h1 : ¬ (SaeMismatch head raw → env.saeLLIgnored = true)
  · rw [if_pos (hsae'.2 h1), if_pos h1]
  rw [if_neg (mt hsae'.1 h1), if_neg h1]
  by_cases h2 : Repeated pre
  · rw [if_pos (hrep.2 h2), if_pos h2]
  rw [if_neg (mt hrep.1 h2), if_neg h2]
  by_cases h3 : env.mode = .mode32 ∧ ExtensionBits head
  · rw [if_pos (hext'.2 h3), if_pos h3]
  rw [if_neg (mt hext'.1 h3), if_neg h3]
  by_cases h4 : shortAddress env.mode pre = true ∧ raw.isReg = false
  · rw [if_pos h4, hshort.2 h4]
  · rw [if_neg h4]
    obtain ⟨src, hsrc⟩ := Option.ne_none_iff_exists'.1 (mt hshort.1 h4)
    rw [hsrc]
    rfl

/-- Settles O58: of the refusals of sound bytes only row 1 comes before row 5. -/
theorem repeatedPrefixesRefused : Obligations.RepeatedPrefixesRefused := by
  unfold Obligations.RepeatedPrefixesRefused
  intro s pre head raw h (hsae : SaeMismatch head raw → (decodeEnv s).saeLLIgnored = true) hrep
  obtain ⟨i, rest, hdec⟩ := decode_sound_eq (env := decodeEnv s) h (length_codeBytes s)
  rw [if_neg (not_not.2 hsae), if_pos hrep] at hdec
  exact step_of_error hdec

/-- Settles O56: rows 1 and 5 do not refuse, and row 2 comes before row 4. -/
theorem mode32FormsRefused : Obligations.Mode32FormsRefused := by
  unfold Obligations.Mode32FormsRefused
  intro s pre head raw (hm : (decodeEnv s).mode = .mode32) h
    (hsae : SaeMismatch head raw → (decodeEnv s).saeLLIgnored = true) hrep
  obtain ⟨i, rest, hdec⟩ := decode_sound_eq (env := decodeEnv s) h (length_codeBytes s)
  rw [if_neg (not_not.2 hsae), if_neg hrep] at hdec
  refine ⟨fun hext => ?_, fun hext h67 hreg => ?_⟩
  · rw [if_pos ⟨hm, hext⟩] at hdec
    exact step_of_error hdec
  · have hshort : shortAddress (decodeEnv s).mode pre = true := by simp [shortAddress, hm, h67]
    rw [if_neg fun e => hext e.2, if_pos ⟨hshort, hreg⟩] at hdec
    exact step_of_error hdec

/-! ### The order of the prefixes (R61) -/

/-- With at most one segment override the same is recorded of the prefixes in every order. -/
theorem after_eq_of_perm {pre pre' : List Byte} (h : pre.Perm pre') (hone : pre.countP isSegOverride ≤ 1) :
    Scan.start.after pre' = Scan.start.after pre := by
  have hsegs : pre'.filterMap segOfByte = pre.filterMap segOfByte := by
    have hp := h.filterMap segOfByte
    have hlen := length_segs pre
    match hl : pre.filterMap segOfByte, hp with
    | [], hp => exact List.nil_perm.1 hp
    | [g], hp => exact (List.singleton_perm.1 hp).symm
    | g :: g' :: gs, hp =>
      rw [hl] at hlen
      simp at hlen
      omega
  rw [after_perm h, hsegs]
  rfl

/-- Bytes that differ in the order of their prefixes decode alike. -/
theorem decode_perm {env : DecodeEnv} {pre pre' : List Byte} (h : pre.Perm pre')
    (hlegacy : ∀ b ∈ pre, isLegacyPrefix b = true) (hone : pre.countP isSegOverride ≤ 1) (tail : List Byte) :
    decode env (pre' ++ tail) = decode env (pre ++ tail) := by
  have hscan : scanPrefixes Scan.start (pre' ++ tail) = scanPrefixes Scan.start (pre ++ tail) := by
    rw [scanPrefixes_legacy pre hlegacy, scanPrefixes_legacy pre' fun b hb => hlegacy b (h.mem_iff.2 hb),
      after_eq_of_perm h hone]
  have hparse : parse env.mode (pre' ++ tail) = parse env.mode (pre ++ tail) := by
    rw [parse, parse, hscan]
  have hlen : (pre' ++ tail).length = (pre ++ tail).length := by
    rw [List.length_append, List.length_append, h.length_eq]
  unfold decode
  rw [hparse, hlen]

/-- Settles O60: no refusal of sound bytes applies, and the decoder does not tell orders of the prefixes apart. -/
theorem soundBytesDecode : Obligations.SoundBytesDecode := by
  unfold Obligations.SoundBytesDecode
  intro env bs pre head raw h hlen hsae hrep h32
  obtain ⟨i, rest, hdec⟩ := decode_sound_eq h hlen
  have h4 : ¬ (shortAddress env.mode pre = true ∧ raw.isReg = false) := by
    rintro ⟨hs, hreg⟩
    simp only [shortAddress, Bool.and_eq_true, decide_eq_true_eq] at hs
    simp [(h32 hs.1).2 hs.2] at hreg
  rw [if_neg (not_not.2 hsae), if_neg hrep, if_neg fun e => (h32 e.1).1 e.2, if_neg h4] at hdec
  refine ⟨i, rest, hdec, fun pre' tail hperm hbs => ?_⟩
  have hone : pre.countP isSegOverride ≤ 1 := Nat.not_lt.1 fun hlt => hrep (.inl hlt)
  rw [decode_perm hperm (legacy_of_sound h.1).1 hone, ← hbs, hdec]

/-! ### {sae} and the vector length (R71, R81 row 1) -/

/-- What is recorded of the optional prefixes, in either order. -/
theorem after_bytes {p : Prefixes} {pre : List Byte} (h : pre = p.bytes ∨ pre = p.bytes.reverse) :
    (∀ b ∈ pre, isLegacyPrefix b = true)
      ∧ Scan.start.after pre = ⟨0, p.seg.toList, p.addrSize.toNat, false, false⟩ := by
  have hfwd : Scan.start.after p.bytes = ⟨0, p.seg.toList, p.addrSize.toNat, false, false⟩ := by
    obtain ⟨seg, a⟩ := p
    cases seg with
    | none => cases a <;> decide
    | some g => cases g <;> cases a <;> decide
  have hone : p.bytes.countP isSegOverride ≤ 1 := by
    rw [← length_segs, show p.bytes.filterMap segOfByte = p.seg.toList from congrArg Scan.segs hfwd]
    cases p.seg <;> simp
  rcases h with rfl | rfl
  · exact ⟨p.bytes_legacy, hfwd⟩
  · exact ⟨fun b hb => p.bytes_legacy b (List.mem_reverse.1 hb),
      (after_eq_of_perm p.bytes.reverse_perm.symm hone).trans hfwd⟩

/-- P0[7:4] = 1111b: every extension bit is stored as 1 (R64, R67). -/
theorem evex_p0_high {P : Byte} (h : P.extractLsb' 4 4 = 15#4) : P.extractLsb' 6 2 = 3#2 ∧ P.getLsbD 7 = true
    ∧ P.getLsbD 6 = true ∧ P.getLsbD 5 = true ∧ P.getLsbD 4 = true := by
  revert P
  decide

/-- What is read of an EVEX encoding with `P1 = FDH` and a register source. -/
def registerReading (p : Prefixes) (P0 P2 modrm : Byte) : Parsed :=
  ⟨⟨0, p.seg.toList, p.addrSize.toNat, false, false⟩, none, .evex P0 0xFD#8 P2, modrm.extractLsb' 3 3,
    .reg (modrm.extractLsb' 0 3)⟩

section
variable {env : DecodeEnv} {p : Prefixes} {pre : List Byte} {P0 P2 modrm : Byte}

theorem parse_registerReading (hpre : pre = p.bytes ∨ pre = p.bytes.reverse) (ha : prefixAllowed env.mode P0)
    (h0 : P0.extractLsb' 0 4 = 1#4) (hmod : modrm.extractLsb' 6 2 = 3#2) (rest : List Byte) :
    parse env.mode (pre ++ 0x62#8 :: P0 :: 0xFD#8 :: P2 :: 0xE6#8 :: modrm :: rest)
      = .ok (registerReading p P0 P2 modrm, rest) := by
  obtain ⟨hlegacy, hscan⟩ := after_bytes hpre
  obtain ⟨hmm, hres⟩ := evex_p0_low h0
  have hrej : headRejects (Scan.start.after pre) none (.evex P0 0xFD#8 P2) = none :=
    headRejects_of_vex rfl (.inl (by simp [Head.reservedBits, hres]))
  have hop : parseOperand (shortAddress env.mode pre) (modrm :: rest)
      = .ok (modrm.extractLsb' 3 3, .reg (modrm.extractLsb' 0 3), rest) := by
    cases shortAddress env.mode pre <;> simp [parseOperand, parseModRM, parseModRM16, hmod]
  have hparse := parse_of_head (rex := []) hlegacy (.inl rfl) (by decide)
    (parseHead_evex P2 ha hmm (P1 := 0xFD#8) (by decide) (modrm :: rest))
  rw [List.head?_nil, hrej] at hparse
  simp only [hop, hscan] at hparse
  exact hparse

theorem isUd_registerReading (hb : P2.getLsbD 4 = true) (hv : P2.getLsbD 3 = true)
    (hz : ¬ (P2.getLsbD 7 = true ∧ P2.extractLsb' 0 3 = 0#3)) : (registerReading p P0 P2 modrm).isUd = false := by
  rw [← Bool.not_eq_true, Parsed.isUd_evex_iff rfl]
  rintro (h | h | h | h | h | ⟨-, h⟩)
  · simp [illegalPrefix, registerReading] at h
  · exact h (by decide)
  · exact absurd (hv.symm.trans h) (by decide)
  · simp at h
  · exact hz h
  · exact h ⟨rfl, hb⟩

theorem refusal_registerReading (hll : env.saeLLIgnored = true)
    (h32 : env.mode = .mode32 → P0.extractLsb' 4 4 = 15#4) : (registerReading p P0 P2 modrm).refusal env = none := by
  obtain ⟨hsegs, h67⟩ := p.not_repeated
  have hext : (decide (env.mode = .mode32) && (registerReading p P0 P2 modrm).extended) = false := by
    by_cases hm : env.mode = .mode32
    · obtain ⟨-, h7, h6, h5, h4⟩ := evex_p0_high (h32 hm)
      simp only [Parsed.extended, registerReading, extOf, h7, h6, h5, h4]
      simp
    · simp [hm]
  have hscan : (registerReading p P0 P2 modrm).scan = ⟨0, p.seg.toList, p.addrSize.toNat, false, false⟩ := rfl
  simp [Parsed.refusal, hll, hext, hscan, hsegs, h67]

/-- With `b = 1` the row is the 512-bit one, whatever `L'L` is (R71). -/
theorem toInstr_registerReading (hb : P2.getLsbD 4 = true) (src : VReg) :
    ((registerReading p P0 P2 modrm).fields (.reg src)).toInstr
      = .evex512b p (vregOf (!P0.getLsbD 4) (!P0.getLsbD 7) (modrm.extractLsb' 3 3))
          ⟨(P2.extractLsb' 0 3).toFin, P2.getLsbD 7⟩ (.reg src) := by
  have hform : (registerReading p P0 P2 modrm).form = .evex512 := by
    simp only [registerReading, Parsed.form, extOf, RawOperand.isReg, hb, Bool.and_self, if_true]
  simp only [Parsed.fields, hform]
  simp only [registerReading, Parsed.shape, extOf, p.of_scan, hb]
  rfl

end

/-- Settles O8: row 1 comes first; with the parameter the vector length is not read. -/
theorem saeVectorLength : Obligations.SaeVectorLength := by
  unfold Obligations.SaeVectorLength
  refine ⟨fun s pre head raw h hsae hll => ?_, ?_⟩
  · obtain ⟨i, rest, hdec⟩ := decode_sound_eq (env := decodeEnv s) h (length_codeBytes s)
    have hrow : ¬ (SaeMismatch head raw → (decodeEnv s).saeLLIgnored = true) := fun himp => by
      simp [show s.params.saeLLIgnored = true from himp hsae] at hll
    rw [if_pos hrow] at hdec
    exact step_of_error hdec
  · intro s p pre rest P0 P2 modrm hpre h32 h0 hne hb hv hz hmod hc hll
    refine step_of_ok (rest := rest) ?_
    have ha : prefixAllowed s.mode P0 := fun e => (evex_p0_high (h32 e)).1
    have hparse := parse_registerReading (env := decodeEnv s) (P2 := P2) hpre ha h0 hmod rest
    rw [← hc] at hparse
    have hlen : (codeBytes s).length ≤ rest.length + 15 := (length_codeBytes s).trans (Nat.le_add_left _ _)
    rw [decode_of_parse hparse hlen (isUd_registerReading hb hv hz) (refusal_registerReading hll h32) rfl,
      toInstr_registerReading hb]
    rfl

/-! ### More than 15 bytes (R60) -/

/-- The sound heads, part by part: a REX byte, and bytes that are read as a head and not refused. -/
theorem Machine.SoundHead.parseHead_eq {m : Mode} {pre head : List Byte} {raw : RawOperand}
    (h : SoundHead m pre raw head) (hF2 : 0xF2#8 ∉ pre) (hF3 : 0xF3#8 ∉ pre) :
    ∃ rex b tl hd, head = rex ++ b :: tl ∧ RexBytes m rex ∧ b ∈ [0x0F#8, 0xC5#8, 0xC4#8, 0x62#8]
      ∧ (∀ tail, parseHead m (b :: (tl ++ tail)) = .ok (hd, tail))
      ∧ headRejects (Scan.start.after pre) rex.head? hd = none := by
  have hsse : 0x66#8 ∈ pre → ∀ rex, headRejects (Scan.start.after pre) rex .legacy = none := fun h66 rex => by
    simp [headRejects, Head.isVexEvex, Head.reservedBits, Scan.after, Scan.start, List.count_eq_zero, h66, hF2, hF3]
  cases h with
  | sse h66 => exact ⟨[], _, _, .legacy, rfl, .inl rfl, by decide, fun _ => rfl, hsse h66 _⟩
  | sseRex r hm h4 h66 => exact ⟨[r], _, _, .legacy, rfl, .inr ⟨r, h4, hm, rfl⟩, by decide, fun _ => rfl, hsse h66 _⟩
  | vex2 P _ ha hp _ =>
    exact ⟨[], _, _, _, rfl, .inl rfl, by decide, fun _ => parseHead_vex2 ha hp _, headRejects_of_vex rfl (.inl rfl)⟩
  | vex3 P0 P1 _ ha hm hp _ =>
    exact ⟨[], _, _, _, rfl, .inl rfl, by decide, fun _ => parseHead_vex3 ha hm hp _, headRejects_of_vex rfl (.inl rfl)⟩
  | evex P0 P1 P2 _ ha h0 h1 _ _ _ =>
    subst h1
    obtain ⟨hmm, hres⟩ := evex_p0_low h0
    exact ⟨[], _, _, _, rfl, .inl rfl, by decide, fun _ => parseHead_evex P2 ha hmm (by decide) _,
      headRejects_of_vex rfl (.inl (by simp [Head.reservedBits, hres]))⟩

/-- A complete encoding that is cut off anywhere is truncated. -/
theorem parse_take {m : Mode} {pre rex tl own : List Byte} {b : Byte} {hd : Head} {rg : BitVec 3} {raw : RawOperand}
    (hlegacy : ∀ c ∈ pre, isLegacyPrefix c = true) (hr : RexBytes m rex) (hb : b ∈ [0x0F#8, 0xC5#8, 0xC4#8, 0x62#8])
    (hhead : ∀ tail, parseHead m (b :: (tl ++ tail)) = .ok (hd, tail))
    (hrej : headRejects (Scan.start.after pre) rex.head? hd = none)
    (hop : parseOperand (shortAddress m pre) own = .ok (rg, raw, [])) {n : Nat}
    (hn : n < (pre ++ (rex ++ (b :: tl ++ own))).length) :
    parse m ((pre ++ (rex ++ (b :: tl ++ own))).take n) = .error .truncated := by
  have hstart : ∀ j, ∀ c ∈ ((b :: tl).take j).head?, c ∈ [0x0F#8, 0xC5#8, 0xC4#8, 0x62#8] := by
    intro j c hc
    cases j with
    | zero => simp at hc
    | succ j => exact Option.some.inj hc ▸ hb
  have hnil : parseHead m [] = .error .truncated := rfl
  simp only [List.length_append, List.length_cons] at hn
  rcases Nat.lt_or_ge pre.length n with hpre | hpre
  case inr =>
    -- the cut is within the legacy prefixes
    rw [List.take_append_of_le_length hpre]
    simpa using parse_of_head_error (pre := pre.take n) (rex := []) (fun c hc => hlegacy c (List.mem_of_mem_take hc))
      (.inl rfl) (hstart 0) hnil
  rw [List.take_append, List.take_of_length_le hpre.le]
  have hrex : rex.take (n - pre.length) = rex := by
    rcases hr with rfl | ⟨r, -, -, rfl⟩
    · exact List.take_nil
    · exact List.take_of_length_le (Nat.sub_pos_of_lt hpre)
  rw [List.take_append, hrex]
  rcases Nat.lt_or_ge (n - pre.length - rex.length) (b :: tl).length with hj | hj
  · -- the cut is within the head
    have hconsumes := parseHead_consumes (hhead [])
    have hbytes : b :: tl = hd.bytes := by simpa using hconsumes.bytes
    rw [List.take_append_of_le_length hj.le]
    refine parse_of_head_error hlegacy hr (hstart _) ?_
    rw [hbytes] at hj ⊢
    exact hconsumes.short _ hj
  · -- the cut is within the operand
    obtain ⟨own', hconsumes, -⟩ := parseOperand_consumes hop
    obtain rfl : own = own' := by simpa using hconsumes.bytes
    rw [List.take_append, List.take_of_length_le hj, List.cons_append, parse_of_head hlegacy hr hb (hhead _), hrej]
    have hcut : n - pre.length - rex.length - (b :: tl).length < own.length := by
      simp only [List.length_cons] at hj ⊢
      omega
    simp only [hconsumes.short _ hcut]

/-- Settles O10: the fifteen bytes cut a complete encoding off, which is truncated anywhere. -/
theorem tooLongFaults : Obligations.TooLongFaults := by
  unfold Obligations.TooLongFaults
  intro s bs pre head tail rg raw hp hrep hs hop hbs hlen hc
  obtain ⟨hlegacy, -, hF2, hF3⟩ := legacy_of_sound hp
  obtain ⟨rex, b, tl, hd, rfl, hr, hb, hhead, hrej⟩ := hs.parseHead_eq hF2 hF3
  have htrunc : parse s.mode (codeBytes s) = .error .truncated := by
    rw [hc, hbs, List.append_assoc]
    exact parse_take hlegacy hr hb hhead hrej hop (by rwa [hbs, List.append_assoc] at hlen)
  have h15 : ¬ (codeBytes s).length < Config.maxLength := by
    rw [hc, List.length_take, Nat.min_eq_left hlen.le]
    exact Nat.lt_irrefl _
  refine step_of_error (e := .tooLong) ?_
  rw [decode, show (decodeEnv s).mode = s.mode from rfl, htrunc]
  exact if_neg h15

end Sys2Proof
end

section
/-! PROOFS. Addresses (30_encoding.md R73 to R75, 20_memory.md R45), and forms that agree on a register source. -/

namespace Sys2Proof.Machine

/-! ### The effective address as an exact sum -/

theorem readGpr_eq_ofInt (s : State) (b : Gpr) : s.readGpr b = BitVec.ofInt 64 (gprInt s b) := by
  rw [gprInt, BitVec.ofInt_natCast]
  apply BitVec.eq_of_toNat_eq
  unfold State.readGpr addrBits
  cases s.mode with
  | mode64 =>
    simp only [BitVec.toNat_ofNat]
    omega
  | mode32 => simp

theorem dispValue_eq_ofInt (n : Nat) (d : Disp) : dispValue n d = BitVec.ofInt 64 (dispInt n d) := by
  cases d with
  | none => rfl
  | d8 b =>
    rw [dispInt, BitVec.ofInt_mul, BitVec.ofInt_natCast]
    rfl
  | d32 w => rfl

theorem indexValue_eq_ofInt (s : State) (x : Option Gpr) (scale : Fin 4) :
    indexValue s x scale = BitVec.ofInt 64 (indexInt s x scale) := by
  cases x with
  | none => rfl
  | some r =>
    have hpow : BitVec.twoPow 64 scale.val = BitVec.ofInt 64 (2 ^ scale.val) := by
      revert scale
      decide
    rw [indexValue, indexInt, BitVec.ofInt_mul, ← readGpr_eq_ofInt, BitVec.shiftLeft_eq_mul_twoPow, hpow]

/-- The effective address of an exact sum is that sum modulo `2^A`. -/
theorem toNat_effAddr {s : State} {p : Prefixes} {len n : Nat} {a : Address} {z : Int}
    (h32 : s.mode = .mode32 → p.addrSize = false) (h : addressSum s len n a = BitVec.ofInt 64 z) :
    ((effAddr s p len n a).toNat : Int) = z % 2 ^ addressSize s.mode p := by
  have hz : (((BitVec.ofInt 64 z).toNat : Nat) : Int) = z % 2 ^ 64 := by
    rw [BitVec.toNat_ofInt]
    omega
  have hcut : ((((BitVec.ofInt 64 z).setWidth 32).setWidth 64).toNat : Int) = z % 2 ^ 32 := by
    simp only [BitVec.toNat_setWidth]
    omega
  rw [effAddr, h]
  cases hm : s.mode with
  | mode32 =>
    rw [if_neg (by simp), hcut]
    simp [addressSize, h32 hm]
  | mode64 =>
    cases ha : p.addrSize with
    | false => rw [if_pos ⟨rfl, rfl⟩, hz]; simp [addressSize, ha]
    | true => rw [if_neg (by simp), hcut]; simp [addressSize, ha]

/-- The next `pc` in Mode64, modulo 2^64. -/
theorem nextPc_eq_ofInt {s : State} (h : s.mode = .mode64) (len : Nat) :
    s.nextPc len = BitVec.ofInt 64 (s.pc.toNat + len) := by
  rw [State.nextPc, State.truncAddr, h, BitVec.ofInt_add, BitVec.ofInt_natCast, BitVec.ofInt_natCast,
    BitVec.ofNat_toNat, BitVec.setWidth_eq]

/-- Settles O36: every part of an address is an exact number modulo 2^64, and the sum is cut to the address size. -/
theorem effectiveAddress : Obligations.EffectiveAddress := by
  unfold Obligations.EffectiveAddress
  intro s p len n h32
  refine ⟨fun b dp => toNat_effAddr h32 ?_, fun w => toNat_effAddr h32 ?_, fun b x sc dp => toNat_effAddr h32 ?_,
    fun x sc w => toNat_effAddr h32 ?_⟩
  · rw [addressSum, readGpr_eq_ofInt, dispValue_eq_ofInt, BitVec.ofInt_add]
  · rw [BitVec.ofInt_add]
    cases hm : s.mode with
    | mode64 =>
      simp only [addressSum, hm, nextPc_eq_ofInt hm, if_true]
      rfl
    | mode32 =>
      simp only [addressSum, hm, reduceCtorEq, if_false]
      exact (BitVec.zero_add _).symm
  · rw [addressSum, readGpr_eq_ofInt, indexValue_eq_ofInt, dispValue_eq_ofInt, BitVec.ofInt_add, BitVec.ofInt_add]
  · rw [addressSum, indexValue_eq_ofInt, BitVec.ofInt_add]
    rfl

/-- Settles O37: the factor by the cases of the form. -/
theorem displacementFactor : Obligations.DisplacementFactor := by
  unfold Obligations.DisplacementFactor
  exact ⟨fun b => ⟨rfl, rfl, rfl⟩, ⟨rfl, rfl, rfl⟩, rfl, rfl, rfl⟩

/-! ### Segments and the linear address -/

theorem baseSeg_eq_ss_iff (b : Gpr) : baseSeg b = .ss ↔ b = 4 ∨ b = 5 := by
  unfold baseSeg
  split <;> simp_all

theorem baseSeg_eq_ds_iff (b : Gpr) : baseSeg b = .ds ↔ ¬ (b = 4 ∨ b = 5) := by
  unfold baseSeg
  split <;> simp_all

theorem toNat_segBase (s : State) (g : SegReg) : (s.segBase g).toNat
    = if s.mode = .mode64 ∧ g ≠ .fs ∧ g ≠ .gs then 0 else (s.segment g).base.toNat := by
  unfold State.segBase
  cases s.mode with
  | mode32 => simp
  | mode64 => cases g <;> simp [State.segment]

/-- The linear address as exact arithmetic: it is cut to the address width as the next `pc` is. -/
theorem toNat_linearAddr (s : State) (g : SegReg) (ea : BitVec 64) :
    (linearAddr s g ea).toNat = ((s.segBase g).toNat + ea.toNat) % 2 ^ addrBits s.mode := by
  have h := toNat_byteAddr s (s.segBase g) ea.toNat
  rw [byteAddr, BitVec.ofNat_toNat, BitVec.setWidth_eq] at h
  exact h

/-- Settles O38: segments by the cases of base register, mode and override; the linear address as exact arithmetic. -/
theorem segmentAndLinearAddress : Obligations.SegmentAndLinearAddress := by
  unfold Obligations.SegmentAndLinearAddress
  refine ⟨fun b dp x sc => ⟨baseSeg_eq_ss_iff b, baseSeg_eq_ds_iff b, rfl⟩, fun w x sc => ⟨rfl, rfl⟩, fun m z a => ?_,
    fun g z a => ⟨?_, ?_⟩, fun s g ea => ?_⟩
  · cases m <;> rfl
  · cases g <;> rfl
  · cases g <;> rfl
  · rw [toNat_linearAddr, toNat_segBase]

/-! ### Forms that agree on a register source (R122, R125) -/

/-- Every form but F-SSE clears the destination above its results. -/
theorem destValue_of_ne_sse {f : Form} (h : f ≠ .sse) (d : VReg) (mk : Masking) (src : Source) (v : VecWord)
    (s : State) : destValue f d mk src v s = packLow f.kl (destElem d mk src v s) := by
  cases f with
  | sse => exact absurd rfl h
  | vex128 | vex256 | evex128 | evex256 | evex512 => rfl

/-- Two VEX or EVEX forms of one width convert a register alike; only `pc`, by the length, differs. -/
theorem convert_reg_congr {f f' : Form} {len len' : Nat} {p : Prefixes} {d r : VReg} {mk : Masking} {s t t' : State}
    (hkl : f'.kl = f.kl) (hvl : f'.vl = f.vl) (hf : f ≠ .sse) (hf' : f' ≠ .sse)
    (h : convert f len p d mk (.reg r) s = .next t) (h' : convert f' len' p d mk (.reg r) s = .next t') :
    { t' with pc := t.pc } = t := by
  rw [convert_eq_next] at h h'
  obtain ⟨-, -, v, m, hv, hm, rfl⟩ := h
  obtain ⟨-, -, v', m', hv', hm', rfl⟩ := h'
  have hlow : v' = v := by
    rw [← Host.Outcome.next.inj hv', ← Host.Outcome.next.inj hv, hvl]
  subst hlow
  have hdest : destValue f' d mk (.reg r) v' s = destValue f d mk (.reg r) v' s := by
    rw [destValue_of_ne_sse hf, destValue_of_ne_sse hf', hkl]
  have hflags : m' = m := by
    rw [anyInvalid, anyInexact, hkl] at hm'
    exact Host.Outcome.next.inj (hm'.symm.trans hm)
  rw [hdest, hflags]
  rfl

/-- Settles O35: in each pair both rows convert the register at one width, neither keeping old bits as F-SSE does. -/
theorem formsAgreeOnRegisters : Obligations.FormsAgreeOnRegisters := by
  unfold Obligations.FormsAgreeOnRegisters
  intro p d r s t t' i i' hrows h h'
  rcases hrows with ⟨rfl, rfl⟩ | ⟨rfl, rfl⟩ | ⟨rfl, rfl⟩ | ⟨rfl, rfl⟩
  · exact convert_reg_congr (f := .vex128) (f' := .vex128) rfl rfl (by decide) (by decide) h h'
  · exact convert_reg_congr (f := .vex256) (f' := .vex256) rfl rfl (by decide) (by decide) h h'
  · exact convert_reg_congr (f := .vex128) (f' := .evex128) rfl rfl (by decide) (by decide) h h'
  · exact convert_reg_congr (f := .vex256) (f' := .evex256) rfl rfl (by decide) (by decide) h h'

end Sys2Proof.Machine
end

section
/-! PROOFS. The conversion of one element (40_conversion.md): its value as an integer over 2^1074, its result by whether the
value fits in a signed doubleword, and the rules about it. -/

namespace Sys2Proof.Machine

/-! ### The bit fields of an element (R100) -/

theorem expField_eq (x : Qword) : expField x = x.toNat / 2 ^ 52 % 2 ^ 11 := by
  rw [expField, BitVec.extractLsb'_toNat, Nat.shiftRight_eq_div_pow]

theorem fracField_eq (x : Qword) : fracField x = x.toNat % 2 ^ 52 := by
  rw [fracField, BitVec.extractLsb'_toNat, Nat.shiftRight_zero]

theorem signBit_iff (x : Qword) : signBit x = true ↔ 2 ^ 63 ≤ x.toNat := by
  rw [signBit, ← BitVec.msb_eq_getLsbD_last x, BitVec.msb_eq_decide, decide_eq_true_eq]

theorem fracField_lt (x : Qword) : fracField x < 2 ^ 52 := by
  rw [fracField_eq]
  exact Nat.mod_lt _ (by decide)

theorem expField_lt (x : Qword) : expField x < 2 ^ 11 := by
  rw [expField_eq]
  exact Nat.mod_lt _ (by decide)

/-! ### The exact value as an integer over 2^1074 -/

/-- The magnitude of `val x`, whose two cases both divide by 2^1074. -/
theorem scaledMag_div (x : Qword) : (scaledMag x : ℚ) / 2 ^ 1074
    = if expField x = 0 then (fracField x : ℚ) * 2 ^ (-1074 : ℤ)
      else (2 ^ 52 + fracField x) * 2 ^ ((expField x : ℤ) - 1075) := by
  unfold scaledMag
  split
  next => rw [zpow_neg, div_eq_mul_inv, ← zpow_natCast, Nat.cast_ofNat]
  next h =>
    have he : (expField x : ℤ) - 1075 = (expField x - 1 : ℕ) - (1074 : ℕ) := by omega
    rw [he, zpow_sub₀ two_ne_zero, zpow_natCast, zpow_natCast, ← mul_div_assoc]
    push_cast
    rfl

theorem val_eq_scaledVal_div (x : Qword) : val x = scaledVal x / 2 ^ 1074 := by
  have hval : val x = (if signBit x then -1 else 1) * ((scaledMag x : ℚ) / 2 ^ 1074) := by
    rw [scaledMag_div, val]
    split <;> simp only [mul_assoc]
  rw [hval, scaledVal]
  cases signBit x
  · simp only [Bool.false_eq_true, if_false, one_mul, Int.cast_natCast]
  · simp only [if_true, neg_one_mul, Int.cast_neg, Int.cast_natCast, neg_div]

/-- `trunc` of an exact quotient is the division that rounds toward zero. -/
theorem trunc_intCast_div (n : ℤ) {m : ℕ} (hm : 0 < m) : trunc ((n : ℚ) / m) = n.tdiv m := by
  unfold trunc
  rcases le_or_gt 0 n with hn | hn
  · rw [if_pos (by positivity), Rat.floor_intCast_div_natCast, Int.tdiv_eq_ediv_of_nonneg hn]
  · have hneg : ¬ (0 : ℚ) ≤ n / m :=
      not_le.2 (div_neg_of_neg_of_pos (Int.cast_lt_zero.2 hn) (Nat.cast_pos.2 hm))
    rw [if_neg hneg, Rat.ceil_intCast_div_natCast, ← Int.tdiv_eq_ediv_of_nonneg (by omega), Int.neg_tdiv, neg_neg]

theorem trunc_intCast_div_two_pow (n : ℤ) (k : ℕ) : trunc ((n : ℚ) / 2 ^ k) = n.tdiv (2 ^ k) := by
  have h := trunc_intCast_div n (Nat.two_pow_pos k)
  push_cast at h
  exact h

theorem trunc_val (x : Qword) : trunc (val x) = truncVal x := by
  rw [val_eq_scaledVal_div, trunc_intCast_div_two_pow, truncVal]

theorem trunc_intCast (n : ℤ) : trunc n = n := by
  unfold trunc
  split <;> simp

/-! ### The truncated magnitude, by the exponent -/

/-- The truncated magnitude of an element: `|trunc (val x)|`. -/
def truncMag (x : Qword) : Nat := scaledMag x / 2 ^ 1074

theorem truncVal_eq (x : Qword) : truncVal x = if signBit x then -(truncMag x : ℤ) else truncMag x := by
  have hcast : ((scaledMag x : ℤ)).tdiv (2 ^ 1074) = truncMag x := by
    rw [truncMag, Int.natCast_ediv, Int.tdiv_eq_ediv_of_nonneg (Int.natCast_nonneg _), Nat.cast_pow, Nat.cast_ofNat]
  rw [truncVal, scaledVal]
  cases signBit x
  · exact hcast
  · exact (Int.neg_tdiv _ _).trans (congrArg Neg.neg hcast)

/-- A value is an integer when its magnitude leaves no remainder. -/
theorem truncVal_mul_eq_iff (x : Qword) : truncVal x * 2 ^ 1074 = scaledVal x ↔ scaledMag x % 2 ^ 1074 = 0 := by
  rw [truncVal, ← Nat.dvd_iff_mod_eq_zero, ← Int.natCast_dvd_natCast, Nat.cast_pow, Nat.cast_ofNat]
  have hdvd : (2 ^ 1074 : ℤ) ∣ scaledMag x ↔ (2 ^ 1074 : ℤ) ∣ scaledVal x := by
    rw [scaledVal]
    cases signBit x
    · rfl
    · exact (Int.dvd_neg).symm
  rw [hdvd]
  exact ⟨fun h => Dvd.intro_left _ h, Int.tdiv_mul_cancel⟩

theorem trunc_val_eq_val_iff (x : Qword) : (trunc (val x) : ℚ) = val x ↔ scaledMag x % 2 ^ 1074 = 0 := by
  rw [← truncVal_mul_eq_iff, trunc_val, val_eq_scaledVal_div, eq_div_iff (by positivity), ← Int.cast_inj (α := ℚ),
    Int.cast_mul, Int.cast_pow, Int.cast_ofNat]

theorem scaledMag_of_normal {x : Qword} (h : expField x ≠ 0) :
    scaledMag x = (2 ^ 52 + fracField x) * 2 ^ (expField x - 1) := if_neg h

theorem scaledMag_of_exp_zero {x : Qword} (h : expField x = 0) : scaledMag x = fracField x := if_pos h

/-- Up to exponent 1075 the scale of a normal number divides 2^1074, and the significand is shifted right (R101). -/
theorem two_pow_1074_eq {e : Nat} (h0 : e ≠ 0) (h : e ≤ 1075) : 2 ^ 1074 = 2 ^ (1075 - e) * 2 ^ (e - 1) := by
  rw [← pow_add]
  congr 1
  omega

theorem truncMag_of_normal {x : Qword} (h0 : expField x ≠ 0) (h : expField x ≤ 1075) :
    truncMag x = (2 ^ 52 + fracField x) >>> (1075 - expField x) := by
  rw [truncMag, scaledMag_of_normal h0, two_pow_1074_eq h0 h, Nat.mul_div_mul_right _ _ (Nat.two_pow_pos _),
    Nat.shiftRight_eq_div_pow]

theorem scaledMag_mod_of_normal {x : Qword} (h0 : expField x ≠ 0) (h : expField x ≤ 1075) :
    scaledMag x % 2 ^ 1074 = 0 ↔ (2 ^ 52 + fracField x) % 2 ^ (1075 - expField x) = 0 := by
  rw [scaledMag_of_normal h0, two_pow_1074_eq h0 h, Nat.mul_mod_mul_right, Nat.mul_eq_zero]
  exact or_iff_left (Nat.two_pow_pos _).ne'

theorem scaledMag_lt_of_exp_zero {x : Qword} (h : expField x = 0) : scaledMag x < 2 ^ 1074 :=
  calc scaledMag x = fracField x := scaledMag_of_exp_zero h
    _ < 2 ^ 52 := fracField_lt x
    _ ≤ 2 ^ 1074 := pow_le_pow_right₀ one_le_two (by omega)

/-- Below 1.0 the truncated magnitude is 0. -/
theorem truncMag_eq_zero {x : Qword} (h : expField x ≤ 1022) : truncMag x = 0 := by
  by_cases h0 : expField x = 0
  · exact Nat.div_eq_of_lt (scaledMag_lt_of_exp_zero h0)
  · rw [truncMag_of_normal h0 (by omega), Nat.shiftRight_eq_div_pow]
    have hpow : 2 ^ 53 ≤ 2 ^ (1075 - expField x) := Nat.pow_le_pow_right (by decide) (by omega)
    have hf := fracField_lt x
    exact Nat.div_eq_of_lt (by omega)

theorem truncMag_lt {x : Qword} (h : expField x ≤ 1053) : truncMag x < 2 ^ 31 := by
  by_cases h0 : expField x = 0
  · rw [truncMag_eq_zero (by omega)]
    decide
  · rw [truncMag_of_normal h0 (by omega), Nat.shiftRight_eq_div_pow, Nat.div_lt_iff_lt_mul (Nat.two_pow_pos _)]
    have hpow : 2 ^ 22 ≤ 2 ^ (1075 - expField x) := Nat.pow_le_pow_right (by decide) (by omega)
    have hf := fracField_lt x
    omega

theorem truncMag_of_1054 {x : Qword} (h : expField x = 1054) : truncMag x = 2 ^ 31 + fracField x / 2 ^ 21 := by
  rw [truncMag_of_normal (by omega) (by omega), h, Nat.shiftRight_eq_div_pow]
  omega

theorem two_pow_32_le_div {k n m : Nat} (hk : k ≤ n + 20) (hm : 2 ^ 52 ≤ m) : 2 ^ 32 ≤ m * 2 ^ n / 2 ^ k := by
  rw [Nat.le_div_iff_mul_le (Nat.two_pow_pos _)]
  calc 2 ^ 32 * 2 ^ k ≤ 2 ^ 32 * 2 ^ (n + 20) := Nat.mul_le_mul_left _ (Nat.pow_le_pow_right (by decide) hk)
    _ = 2 ^ 52 * 2 ^ n := by rw [pow_add]; omega
    _ ≤ m * 2 ^ n := Nat.mul_le_mul_right _ hm

theorem two_pow_32_le_truncMag {x : Qword} (h : 1055 ≤ expField x) : 2 ^ 32 ≤ truncMag x := by
  rw [truncMag, scaledMag_of_normal (by omega)]
  exact two_pow_32_le_div (by omega) (Nat.le_add_right _ _)

theorem two_pow_31_le_truncMag_iff (x : Qword) : 2 ^ 31 ≤ truncMag x ↔ 1054 ≤ expField x := by
  rcases lt_trichotomy (expField x) 1054 with h | h | h
  · have := truncMag_lt (x := x) (by omega)
    omega
  · have := truncMag_of_1054 h
    omega
  · have := two_pow_32_le_truncMag (x := x) (by omega)
    omega

/-- The magnitude 2^31 has one exponent and a fraction that truncation drops. -/
theorem truncMag_eq_two_pow_31_iff (x : Qword) : truncMag x = 2 ^ 31 ↔ expField x = 1054 ∧ fracField x < 2 ^ 21 := by
  by_cases h : expField x = 1054
  · have := truncMag_of_1054 h
    omega
  · have hge := two_pow_31_le_truncMag_iff x
    have habove := two_pow_32_le_truncMag (x := x)
    omega

/-! ### The conversion in two cases: the value fits in a signed doubleword, or the conversion is invalid (R102, R103) -/

/-- The element is finite and its truncated value is a signed doubleword. -/
structure Fits (x : Qword) : Prop where
  finite : expField x ≠ 2047
  lower : -2 ^ 31 ≤ trunc (val x)
  upper : trunc (val x) ≤ 2 ^ 31 - 1

/-- The element is a denormal and DAZ treats it as zero (R105). -/
def flushed (x : Qword) (daz : Bool) : Bool := decide (expField x = 0 ∧ fracField x ≠ 0) && daz

theorem flushed_iff {x : Qword} {daz : Bool} :
    flushed x daz = true ↔ expField x = 0 ∧ fracField x ≠ 0 ∧ daz = true := by
  simp [flushed, and_assoc]

theorem not_flushed_iff {x : Qword} {daz : Bool} :
    flushed x daz = false ↔ ¬ (expField x = 0 ∧ fracField x ≠ 0 ∧ daz = true) := by
  rw [← flushed_iff, Bool.not_eq_true]

theorem not_flushed_of_normal {x : Qword} (h : expField x ≠ 0) (daz : Bool) : flushed x daz = false :=
  not_flushed_iff.2 fun hd => h hd.1

/-- The truncated value lies in the range exactly when its magnitude does, which for negative values reaches 2^31. -/
theorem fits_iff_truncMag (x : Qword) :
    Fits x ↔ expField x ≠ 2047 ∧ if signBit x then truncMag x ≤ 2 ^ 31 else truncMag x < 2 ^ 31 := by
  have hval := trunc_val x
  rw [truncVal_eq] at hval
  cases hs : signBit x
  · simp only [hs, Bool.false_eq_true, if_false] at hval ⊢
    exact ⟨fun ⟨hfin, _, hup⟩ => ⟨hfin, by omega⟩, fun ⟨hfin, hmag⟩ => ⟨hfin, by omega, by omega⟩⟩
  · simp only [hs, if_true] at hval ⊢
    exact ⟨fun ⟨hfin, hlow, _⟩ => ⟨hfin, by omega⟩, fun ⟨hfin, hmag⟩ => ⟨hfin, by omega, by omega⟩⟩

theorem fits_of_exp_le {x : Qword} (h : expField x ≤ 1053) : Fits x := by
  have hmag := truncMag_lt h
  rw [fits_iff_truncMag]
  refine ⟨by omega, ?_⟩
  split
  · exact hmag.le
  · exact hmag

theorem trunc_val_eq_zero {x : Qword} (h : expField x ≤ 1022) : trunc (val x) = 0 := by
  rw [trunc_val, truncVal_eq, truncMag_eq_zero h]
  simp

theorem cvtt_of_not_fits {x : Qword} (h : ¬ Fits x) (daz : Bool) : cvtt x daz = .invalid := by
  unfold cvtt
  split
  next => rfl
  next hfin =>
    rw [if_neg fun hd => h (fits_of_exp_le (by omega))]
    refine if_pos ?_
    rw [← trunc_val]
    by_contra hout
    exact h ⟨hfin, by omega, by omega⟩

theorem cvtt_of_fits {x : Qword} (h : Fits x) (daz : Bool) :
    cvtt x daz = ⟨BitVec.ofInt 32 (trunc (val x)), false, !flushed x daz && decide ((trunc (val x) : ℚ) ≠ val x)⟩ := by
  obtain ⟨hfin, hlow, hup⟩ := h
  unfold cvtt
  rw [if_neg hfin]
  split
  next hd =>
    rw [trunc_val_eq_zero (by omega), flushed_iff.2 hd]
    rfl
  next hd =>
    have hpe : decide (truncVal x * 2 ^ 1074 ≠ scaledVal x) = decide ((trunc (val x) : ℚ) ≠ val x) :=
      decide_eq_decide.2 (not_congr ((truncVal_mul_eq_iff x).trans (trunc_val_eq_val_iff x).symm))
    rw [not_flushed_iff.2 hd, ← hpe, trunc_val]
    rw [trunc_val] at hlow hup
    exact if_neg (by omega)

theorem cvtt_ie_eq_false_iff (x : Qword) (daz : Bool) : (cvtt x daz).ie = false ↔ Fits x := by
  by_cases h : Fits x
  · simp [cvtt_of_fits h, h]
  · simp [cvtt_of_not_fits h, Converted.invalid, h]

theorem cvtt_ie_iff (x : Qword) (daz : Bool) : (cvtt x daz).ie = true ↔ ¬ Fits x := by
  rw [← cvtt_ie_eq_false_iff x daz, Bool.not_eq_false]

theorem cvtt_pe_iff (x : Qword) (daz : Bool) :
    (cvtt x daz).pe = true ↔ Fits x ∧ flushed x daz = false ∧ (trunc (val x) : ℚ) ≠ val x := by
  by_cases h : Fits x
  · simp [cvtt_of_fits h, h]
  · simp [cvtt_of_not_fits h, Converted.invalid, h]

/-- A valid result, read as a signed doubleword (R107). -/
theorem toInt_cvtt_r {x : Qword} (h : Fits x) (daz : Bool) : (cvtt x daz).r.toInt = trunc (val x) := by
  rw [cvtt_of_fits h]
  obtain ⟨-, hlow, hup⟩ := h
  exact BitVec.toInt_ofInt_eq_self (by decide) (by omega) (by omega)

/-- DAZ changes no result: it changes the inexact condition of a denormal alone (R105). -/
theorem cvtt_r_eq (x : Qword) (daz : Bool) : (cvtt x daz).r = (cvtt x false).r := by
  by_cases h : Fits x
  · rw [cvtt_of_fits h, cvtt_of_fits h]
  · rw [cvtt_of_not_fits h, cvtt_of_not_fits h]

/-- Settles O16: the two cases of the conversion, the denormal with DAZ being a value that fits. -/
theorem conversionByExactValue : Obligations.ConversionByExactValue := by
  unfold Obligations.ConversionByExactValue
  intro x daz
  refine ⟨fun h => cvtt_of_not_fits (fun hf => hf.finite h) daz, fun he hf hd => ?_, fun hfin hnd => ⟨fun hout => ?_,
    fun hlow hup => ?_⟩⟩
  · rw [cvtt_of_fits (fits_of_exp_le (by omega)), flushed_iff.2 ⟨he, hf, hd⟩, trunc_val_eq_zero (by omega)]
    rfl
  · refine cvtt_of_not_fits (fun hf => ?_) daz
    obtain ⟨-, hlow, hup⟩ := hf
    omega
  · rw [cvtt_of_fits ⟨hfin, hlow, hup⟩, not_flushed_iff.2 hnd]
    rfl

/-- Settles O17: invalid is not fitting, and gives the fixed answer. -/
theorem invalidExactly : Obligations.InvalidExactly := by
  unfold Obligations.InvalidExactly
  refine fun x daz => ⟨?_, fun h => ?_⟩
  · rw [cvtt_ie_iff]
    refine ⟨fun h => ?_, fun h hf => ?_⟩
    · by_contra hout
      exact h ⟨by omega, by omega, by omega⟩
    · obtain ⟨hfin, hlow, hup⟩ := hf
      omega
  · rw [cvtt_of_not_fits ((cvtt_ie_iff x daz).1 h)]
    exact ⟨rfl, rfl⟩

/-- Settles O20: a valid conversion is one whose value fits. -/
theorem resultIsTwosComplement : Obligations.ResultIsTwosComplement := by
  unfold Obligations.ResultIsTwosComplement
  intro x daz hie
  have h := (cvtt_ie_eq_false_iff x daz).1 hie
  exact ⟨toInt_cvtt_r h daz, h.lower, h.upper⟩

/-! ### Denormals and zeros (R105) -/

/-- Without a fraction, an element of exponent 0 is a zero; with one, its value lies strictly between -1 and 1 and is not
an integer. -/
theorem trunc_val_eq_val_iff_of_exp_zero {x : Qword} (h : expField x = 0) :
    (trunc (val x) : ℚ) = val x ↔ fracField x = 0 := by
  rw [trunc_val_eq_val_iff, Nat.mod_eq_of_lt (scaledMag_lt_of_exp_zero h), scaledMag_of_exp_zero h]

/-- An element of exponent 0 converts to 0, inexact when it is a denormal that DAZ does not flush. -/
theorem cvtt_of_exp_zero {x : Qword} (h : expField x = 0) (daz : Bool) :
    cvtt x daz = ⟨0#32, false, !flushed x daz && decide (fracField x ≠ 0)⟩ := by
  rw [cvtt_of_fits (fits_of_exp_le (by omega))]
  simp only [ne_eq, trunc_val_eq_val_iff_of_exp_zero h]
  rw [trunc_val_eq_zero (by omega)]
  rfl

/-- Settles O19: the two kinds of element of exponent 0, and `cvtt_r_eq`. -/
theorem denormalsAndZeros : Obligations.DenormalsAndZeros := by
  unfold Obligations.DenormalsAndZeros
  refine fun x daz => ⟨fun he hf => ?_, fun he hf => ?_, cvtt_r_eq x daz⟩
  · rw [cvtt_of_exp_zero he]
    simp [flushed, he, hf]
  · rw [cvtt_of_exp_zero he]
    simp [hf]

/-! ### The bit-level table (R101) -/

/-- A value that fits and that DAZ does not flush, by its magnitude. -/
theorem cvtt_of_truncMag {x : Qword} {daz : Bool} (h : Fits x) (hd : flushed x daz = false) :
    cvtt x daz = ⟨BitVec.ofInt 32 (if signBit x then -(truncMag x : ℤ) else truncMag x), false,
      decide (scaledMag x % 2 ^ 1074 ≠ 0)⟩ := by
  rw [cvtt_of_fits h, hd, trunc_val, ← truncVal_eq, ← trunc_val]
  simp only [ne_eq, trunc_val_eq_val_iff, Bool.not_false, Bool.true_and]

/-- The two's complement of a magnitude, as R101 writes it. -/
theorem ofInt_neg_natCast {n : Nat} (h : n ≤ 2 ^ 32) : BitVec.ofInt 32 (-(n : ℤ)) = BitVec.ofNat 32 (2 ^ 32 - n) := by
  apply BitVec.eq_of_toNat_eq
  rw [BitVec.toNat_ofInt, BitVec.toNat_ofNat]
  omega

/-- `1 ≤ e ≤ 1022`: the value lies strictly between -1 and 1 and is not 0. -/
theorem cvtt_of_exp_le_1022 {x : Qword} (h0 : expField x ≠ 0) (h : expField x ≤ 1022) (daz : Bool) :
    cvtt x daz = ⟨0#32, false, true⟩ := by
  have hpow : 2 ^ 53 ≤ 2 ^ (1075 - expField x) := Nat.pow_le_pow_right (by decide) (by omega)
  have hf := fracField_lt x
  rw [cvtt_of_truncMag (fits_of_exp_le (by omega)) (not_flushed_of_normal h0 daz), truncMag_eq_zero h]
  simp only [ne_eq, scaledMag_mod_of_normal h0 (by omega)]
  rw [Nat.mod_eq_of_lt (by omega)]
  simp

/-- `1 ≤ e ≤ 1053`: the significand shifted right, its dropped bits deciding the inexact condition. -/
theorem cvtt_of_exp_le_1053 {x : Qword} (h0 : expField x ≠ 0) (h : expField x ≤ 1053) (daz : Bool) :
    cvtt x daz = ⟨if signBit x then BitVec.ofNat 32 (2 ^ 32 - (2 ^ 52 + fracField x) >>> (1075 - expField x))
        else BitVec.ofNat 32 ((2 ^ 52 + fracField x) >>> (1075 - expField x)), false,
      decide ((2 ^ 52 + fracField x) % 2 ^ (1075 - expField x) ≠ 0)⟩ := by
  have hlt := truncMag_lt h
  rw [cvtt_of_truncMag (fits_of_exp_le h) (not_flushed_of_normal h0 daz), ← truncMag_of_normal h0 (by omega),
    ← ofInt_neg_natCast (by omega), ← BitVec.ofInt_natCast, apply_ite (BitVec.ofInt 32)]
  simp only [ne_eq, scaledMag_mod_of_normal h0 (by omega : expField x ≤ 1075)]

/-- The elements that truncate to -2^31. -/
theorem cvtt_of_two_pow_31 {x : Qword} (h : expField x = 1054) (hs : signBit x = true) (hf : fracField x < 2 ^ 21)
    (daz : Bool) : cvtt x daz = ⟨0x80000000#32, false, decide (fracField x ≠ 0)⟩ := by
  have h0 : expField x ≠ 0 := by omega
  have hmag := (truncMag_eq_two_pow_31_iff x).2 ⟨h, hf⟩
  have hfits : Fits x := (fits_iff_truncMag x).2 ⟨by omega, by rw [hs, if_pos rfl, hmag]⟩
  have hmod : (2 ^ 52 + fracField x) % 2 ^ (1075 - expField x) = fracField x := by
    rw [h]
    omega
  rw [cvtt_of_truncMag hfits (not_flushed_of_normal h0 daz), hmag, hs]
  simp only [ne_eq, scaledMag_mod_of_normal h0 (by omega : expField x ≤ 1075), hmod]
  rfl

/-- From exponent 1054 up only those elements fit. -/
theorem not_fits_of_le_exp {x : Qword} (h : 1054 ≤ expField x)
    (hout : ¬ (expField x = 1054 ∧ signBit x = true ∧ fracField x < 2 ^ 21)) : ¬ Fits x := by
  have hge := (two_pow_31_le_truncMag_iff x).2 h
  intro hfits
  obtain ⟨-, hmag⟩ := (fits_iff_truncMag x).1 hfits
  split at hmag
  next hs =>
    obtain ⟨h1054, hf⟩ := (truncMag_eq_two_pow_31_iff x).1 (by omega)
    exact hout ⟨h1054, hs, hf⟩
  next => omega

/-- Settles O15, row by row of the table. -/
theorem conversionTable : Obligations.ConversionTable := by
  unfold Obligations.ConversionTable cvttTable
  intro x daz
  dsimp only
  split
  next h => exact cvtt_of_not_fits (fun hf => hf.finite h) daz
  split
  next h =>
    rw [cvtt_of_exp_zero h.1, flushed_iff.2 h]
    rfl
  split
  next hfl h0 =>
    rw [cvtt_of_exp_zero h0, not_flushed_iff.2 hfl]
    rfl
  rename_i h0
  split
  next h => exact cvtt_of_exp_le_1022 h0 h daz
  split
  next h => exact cvtt_of_exp_le_1053 h0 h daz
  split
  next h => exact cvtt_of_two_pow_31 h.1 h.2.1 h.2.2 daz
  next h => exact cvtt_of_not_fits (not_fits_of_le_exp (by omega) h) daz

/-! ### Inexact conversions (R104) -/

/-- Settles O18: inexact is fitting with a truncated value other than the value; the examples by the table of R101. -/
theorem inexactExactly : Obligations.InexactExactly := by
  unfold Obligations.InexactExactly
  refine ⟨fun x => ?_, fun x h => toInt_cvtt_r ((cvtt_pe_iff x false).1 h).1 false, ?_, ?_, ?_, ?_, ?_, ?_⟩
  · rw [cvtt_pe_iff, cvtt_ie_eq_false_iff]
    have hd : flushed x false = false := Bool.and_false _
    exact ⟨fun ⟨hfits, _, hne⟩ => ⟨hfits, hfits.finite, hne⟩, fun ⟨hfits, _, hne⟩ => ⟨hfits, hd, hne⟩⟩
  all_goals
    rw [conversionTable]
    decide

/-! ### The properties of R112 -/

/-- The encoding is sign, exponent and fraction side by side (R100). -/
theorem toNat_eq_fields (x : Qword) :
    x.toNat = (if signBit x then 2 ^ 63 else 0) + expField x * 2 ^ 52 + fracField x := by
  have hx := x.isLt
  rw [expField_eq, fracField_eq]
  split
  next hs =>
    have := (signBit_iff x).1 hs
    omega
  next hs =>
    have := mt (signBit_iff x).2 hs
    omega

theorem trunc_val_eq_neg_two_pow_31_iff (x : Qword) :
    trunc (val x) = -2 ^ 31 ↔ signBit x = true ∧ expField x = 1054 ∧ fracField x < 2 ^ 21 := by
  rw [trunc_val, truncVal_eq, ← truncMag_eq_two_pow_31_iff]
  cases signBit x
  · simp only [Bool.false_eq_true, if_false, false_and, iff_false]
    omega
  · simp only [if_true, true_and]
    omega

/-- Item 2: the result 80000000H without the invalid condition is the truncated value -2^31. -/
theorem cvtt_r_eq_min_iff (x : Qword) (daz : Bool) :
    ((cvtt x daz).r = 0x80000000#32 ∧ (cvtt x daz).ie = false) ↔ trunc (val x) = -2 ^ 31 := by
  rw [cvtt_ie_eq_false_iff]
  constructor
  · rintro ⟨hr, hfits⟩
    rw [← toInt_cvtt_r hfits daz, hr]
    rfl
  · intro h
    obtain ⟨hs, h1054, hf⟩ := (trunc_val_eq_neg_two_pow_31_iff x).1 h
    rw [cvtt_of_two_pow_31 h1054 hs hf]
    exact ⟨rfl, by omega, by omega, by omega⟩

theorem expField_flip (x : Qword) : expField (x ^^^ 0x8000000000000000#64) = expField x := by
  rw [expField, BitVec.extractLsb'_xor]
  simp [expField]

theorem fracField_flip (x : Qword) : fracField (x ^^^ 0x8000000000000000#64) = fracField x := by
  rw [fracField, BitVec.extractLsb'_xor]
  simp [fracField]

theorem signBit_flip (x : Qword) : signBit (x ^^^ 0x8000000000000000#64) = !signBit x := by
  simp [signBit]

/-- The element with the other sign has the negated value. -/
theorem val_flip (x : Qword) : val (x ^^^ 0x8000000000000000#64) = -val x := by
  have hmag : scaledMag (x ^^^ 0x8000000000000000#64) = scaledMag x := by
    rw [scaledMag, scaledMag, expField_flip, fracField_flip]
  rw [val_eq_scaledVal_div, val_eq_scaledVal_div, ← neg_div, ← Int.cast_neg, scaledVal, scaledVal, hmag, signBit_flip]
  cases signBit x <;> simp

theorem trunc_neg (v : ℚ) : trunc (-v) = -trunc v := by
  unfold trunc
  rcases lt_trichotomy v 0 with h | rfl | h
  · rw [if_pos (by linarith), if_neg (by linarith), Int.floor_neg]
  · simp
  · rw [if_neg (by linarith), if_pos (by linarith), Int.ceil_neg]

/-- Item 2: the elements that give -2^31 are an interval of encodings. -/
theorem trunc_val_eq_neg_two_pow_31_iff_toNat (x : Qword) :
    trunc (val x) = -2 ^ 31 ↔ 0xC1E0000000000000 ≤ x.toNat ∧ x.toNat ≤ 0xC1E00000001FFFFF := by
  rw [trunc_val_eq_neg_two_pow_31_iff]
  have hx := toNat_eq_fields x
  have he := expField_lt x
  have hf := fracField_lt x
  cases hs : signBit x <;> simp only [hs, Bool.false_eq_true, if_false, if_true, false_and, true_and, false_iff] at hx ⊢
  · omega
  · omega

/-- Item 3: the element with the other sign has the negated result and the same inexact condition. -/
theorem cvtt_flip {x : Qword} {daz : Bool} (h : Fits x) (h' : Fits (x ^^^ 0x8000000000000000#64)) :
    (cvtt (x ^^^ 0x8000000000000000#64) daz).r = -(cvtt x daz).r
      ∧ (cvtt (x ^^^ 0x8000000000000000#64) daz).pe = (cvtt x daz).pe := by
  rw [cvtt_of_fits h, cvtt_of_fits h', val_flip, trunc_neg, BitVec.ofInt_neg]
  refine ⟨rfl, ?_⟩
  simp only [flushed, expField_flip, fracField_flip, Int.cast_neg, ne_eq, neg_inj]

/-- Item 4: no condition is raised exactly by an integer in range and by a denormal that DAZ flushes. -/
theorem cvtt_no_condition_iff (x : Qword) (daz : Bool) :
    ((cvtt x daz).pe = false ∧ (cvtt x daz).ie = false) ↔
      expField x ≠ 2047 ∧ ((∃ n : Int, (n : ℚ) = val x ∧ -2 ^ 31 ≤ n ∧ n ≤ 2 ^ 31 - 1)
        ∨ (expField x = 0 ∧ fracField x ≠ 0 ∧ daz = true)) := by
  rw [← flushed_iff, cvtt_ie_eq_false_iff, ← Bool.not_eq_true, cvtt_pe_iff]
  constructor
  · rintro ⟨hpe, hfits⟩
    refine ⟨hfits.finite, ?_⟩
    cases hd : flushed x daz
    · exact .inl ⟨trunc (val x), not_not.1 fun hne => hpe ⟨hfits, hd, hne⟩, hfits.lower, hfits.upper⟩
    · exact .inr rfl
  · rintro ⟨hfin, ⟨n, hn, hlow, hup⟩ | hd⟩
    · have ht : trunc (val x) = n := hn ▸ trunc_intCast n
      exact ⟨fun hpe => hpe.2.2 (ht.symm ▸ hn), hfin, ht.symm ▸ hlow, ht.symm ▸ hup⟩
    · have h0 := (flushed_iff.1 hd).1
      exact ⟨fun hpe => by simp [hd] at hpe, fits_of_exp_le (by omega)⟩

/-- Item 6: truncation moves toward zero by less than 1. -/
theorem abs_trunc_le (v : ℚ) : |(trunc v : ℚ)| ≤ |v| ∧ |v| - |(trunc v : ℚ)| < 1 := by
  unfold trunc
  split
  next h =>
    rw [abs_of_nonneg h, abs_of_nonneg (Int.cast_nonneg (Int.floor_nonneg.2 h))]
    exact ⟨Int.floor_le v, by linarith [Int.lt_floor_add_one v]⟩
  next h =>
    have hv : v ≤ 0 := (not_le.1 h).le
    rw [abs_of_nonpos hv, abs_of_nonpos (Int.cast_nonpos.2 (Int.ceil_le.2 (by simpa using hv)))]
    exact ⟨by linarith [Int.le_ceil v], by linarith [Int.ceil_lt_add_one v]⟩

/-- Item 7: of the elements with a positive sign, those from 41E0000000000000H up do not fit. -/
theorem not_fits_iff_of_positive {x : Qword} (h : signBit x = false) : ¬ Fits x ↔ 0x41E0000000000000 ≤ x.toNat := by
  have hmag := two_pow_31_le_truncMag_iff x
  have hx := toNat_eq_fields x
  have hf := fracField_lt x
  rw [fits_iff_truncMag]
  simp only [h, Bool.false_eq_true, if_false] at hx ⊢
  omega

/-- Settles O21, item by item. -/
theorem conversionLemmas : Obligations.ConversionLemmas := by
  unfold Obligations.ConversionLemmas
  refine ⟨fun x daz => (invalidExactly x daz).2,
    fun x daz => (cvtt_r_eq_min_iff x daz).trans (trunc_val_eq_neg_two_pow_31_iff_toNat x), fun x daz h h' => ?_,
    cvtt_no_condition_iff, fun x _ => abs_trunc_le (val x),
    fun x daz hs => (cvtt_ie_iff x daz).trans (not_fits_iff_of_positive hs), ?_⟩
  · exact cvtt_flip ((cvtt_ie_eq_false_iff x daz).1 h) ((cvtt_ie_eq_false_iff _ daz).1 h')
  · intro daz
    rw [conversionTable]
    revert daz
    decide

end Sys2Proof.Machine
end

section
/-! PROOFS. What a conversion writes (41_cvttpd2dq.md R120, R126): `{sae}`, masked-off elements, and MXCSR. -/

namespace Sys2Proof.Machine

/-! ### A packed word as its elements side by side -/

/-- The lowest element of a packed word stands below the elements above it. -/
theorem setWidth_packLow_succ {w n : Nat} {f : Nat → Dword} {high : BitVec w} (hw : w + 32 ≤ 512)
    (h : (packLow n fun j => f (j + 1)).setWidth w = high) : (packLow (n + 1) f).setWidth (w + 32) = high ++ f 0 := by
  subst h
  apply BitVec.eq_of_getLsbD_eq
  intro b hb
  rw [BitVec.getLsbD_setWidth, getLsbD_packLow _ _ _ (by omega), BitVec.getLsbD_append, BitVec.getLsbD_setWidth]
  by_cases h : b < 32
  · have e1 : b / 32 = 0 := by omega
    have e2 : b % 32 = b := by omega
    have e3 : b < 32 * (n + 1) := by omega
    simp [h, hb, e1, e2, e3]
  · have e1 : (b - 32) / 32 + 1 = b / 32 := by omega
    have e2 : (b - 32) % 32 = b % 32 := by omega
    have e3 : b - 32 < 32 * n ↔ b < 32 * (n + 1) := by omega
    have e4 : b - 32 < w := by omega
    rw [getLsbD_packLow _ _ _ (by omega), e1, e2]
    simp [h, hb, e3, e4]

theorem setWidth_packLow_zero (w : Nat) (f : Nat → Dword) : (packLow 0 f).setWidth w = 0#w := BitVec.setWidth_zero ..

/-- The eight elements of F-EVEX512 below 256 zero bits. -/
theorem packLow_eight (f : Nat → Dword) :
    packLow 8 f = 0#256 ++ f 7 ++ f 6 ++ f 5 ++ f 4 ++ f 3 ++ f 2 ++ f 1 ++ f 0 := by
  have h7 := setWidth_packLow_succ (f := fun j => f (j + 7)) (by decide) (setWidth_packLow_zero 256 _)
  have h6 := setWidth_packLow_succ (f := fun j => f (j + 6)) (by decide) h7
  have h5 := setWidth_packLow_succ (f := fun j => f (j + 5)) (by decide) h6
  have h4 := setWidth_packLow_succ (f := fun j => f (j + 4)) (by decide) h5
  have h3 := setWidth_packLow_succ (f := fun j => f (j + 3)) (by decide) h4
  have h2 := setWidth_packLow_succ (f := fun j => f (j + 2)) (by decide) h3
  have h1 := setWidth_packLow_succ (f := fun j => f (j + 1)) (by decide) h2
  exact (BitVec.setWidth_eq _).symm.trans (setWidth_packLow_succ (by decide) h1)

/-! ### Completion -/

/-- A `commit` that raises no flag but IE and PE is a completion. -/
theorem completed_commit (len : Nat) (d : VReg) (v : VecWord) (ie pe : Bool) (s : State) :
    Completed len d v (ie = true) (pe = true) s (commit d v (setFlags s.mxcsr ie pe) len s) where
  dest := readZmm_commit_same ..
  others r hr := readZmm_commit_other _ _ _ _ _ _ hr
  invalidFlag := by rw [State.commit_mxcsr, mxIE_setFlags, Bool.or_eq_true]
  precisionFlag := by rw [State.commit_mxcsr, mxPE_setFlags, Bool.or_eq_true]
  controls b h0 h5 := getLsbD_setFlags_other _ _ _ b h0 h5
  pc := toNat_nextPc s len
  rest := sameElsewhere_commit ..

theorem completed_commit_unflagged (len : Nat) (d : VReg) (v : VecWord) (s : State) :
    Completed len d v False False s (commit d v s.mxcsr len s) := by
  have h := completed_commit len d v false false s
  rwa [setFlags_none, Bool.false_eq_true] at h

/-- A VEX or EVEX form packs the elements of R126, the source elements being known where they are computed. -/
theorem destValue_eq_packLow_elementAt {f : Form} (hf : f ≠ .sse) (d : VReg) {mk : Masking} {src : Source} {v : VecWord}
    {s : State} {e : Nat → Qword} (h : ∀ j, j < f.kl → computed mk s j = true → sourceElem src v j = e j) :
    destValue f d mk src v s = packLow f.kl (elementAt d mk s e) := by
  rw [destValue_of_ne_sse hf]
  refine packLow_congr _ _ _ fun j hj => ?_
  unfold destElem elementAt
  split
  next hc => rw [convertedAt, h j hj hc, resultAt]
  next => rfl

/-! ### A register source, with or without `{sae}` -/

theorem readSource_of_register {f : Form} {len : Nat} {p : Prefixes} {mk : Masking} {src : Source} {r : VReg}
    (h : src = .reg r ∨ src = .regSae r) (s : State) :
    readSource f len p mk src s = .next (lowBits f.vl (s.readZmm r)) := by
  rcases h with rfl | rfl
  · rfl
  · rfl

theorem sourceElem_of_register {f : Form} {src : Source} {r : VReg} (h : src = .reg r ∨ src = .regSae r) (v : VecWord)
    {j : Nat} (hj : j < f.kl) : sourceElem src (lowBits f.vl v) j = elem64 v j := by
  have hlow := elem64_lowBits f.vl v j (elem_within f j hj)
  rcases h with rfl | rfl
  · exact hlow
  · exact hlow

/-- Settles O28: under `{sae}` the response is MXCSR as it was, so nothing stops the commit. -/
theorem saeConverts : Obligations.SaeConverts := by
  unfold Obligations.SaeConverts
  intro p d r m s ⟨hen, hts⟩
  have hsrc : Source.regSae r = .reg r ∨ Source.regSae r = .regSae r := .inr rfl
  have hdest := destValue_eq_packLow_elementAt (f := .evex512) (by decide) d (mk := m) (s := s)
    fun j hj _ => sourceElem_of_register hsrc (s.readZmm r) hj
  have hx : exec (.evex512b p d m (.reg r)) s
      = .next (commit d (packLow 8 (elementAt d m s (elem64 (s.readZmm r)))) s.mxcsr
          (Instr.evex512b p d m (.reg r)).length s) := by
    rw [exec_eq_convert, convert_eq_next]
    exact ⟨hen, hts, _, s.mxcsr, readSource_of_register hsrc s, rfl, congrArg (commit d · _ _ s) hdest.symm⟩
  rw [packLow_eight] at hx
  exact ⟨_, hx, rfl, completed_commit_unflagged ..⟩

/-! ### Masked-off elements (R109, R129 item 4) -/

/-- A register source may change outside the computed elements. -/
theorem exec_writeZmm_source {i : Instr} {r : VReg} {s t : State} {v : VecWord}
    (hsrc : sourceOf i = .reg r ∨ sourceOf i = .regSae r) (hrd : r ≠ i.fields.dst)
    (helem : ∀ j, j < i.fields.form.kl → computed i.fields.mask s j = true → elem64 v j = elem64 (s.readZmm r) j)
    (hx : exec i s = .next t) :
    ∃ new m, t = commit i.fields.dst new m i.length s
      ∧ exec i (s.writeZmm r v) = .next (commit i.fields.dst new m i.length (s.writeZmm r v)) := by
  rw [exec_eq_convert, convert_eq_next] at hx
  obtain ⟨hen, hts, w, m, hw, hm, rfl⟩ := hx
  obtain rfl := Host.Outcome.next.inj ((readSource_of_register hsrc s).symm.trans hw)
  have hsame : SameElements i.fields.form i.fields.dst i.fields.mask (sourceOf i) (sourceOf i)
      (lowBits i.fields.form.vl (s.readZmm r)) (lowBits i.fields.form.vl v) s (s.writeZmm r v) :=
    ⟨rfl, readZmm_writeZmm_other _ _ _ _ hrd.symm, fun _ _ => rfl, fun j hj hc => by
      rw [sourceElem_of_register hsrc v hj, sourceElem_of_register hsrc _ hj, helem j hj hc]⟩
  refine ⟨_, m, rfl, ?_⟩
  rw [exec_eq_convert, convert_eq_next]
  refine ⟨hen, hts, _, m, ?_, hsame.respondFlags_next hm, by rw [hsame.destValue_eq]⟩
  rw [readSource_of_register hsrc, readZmm_writeZmm_same]

/-- Settles O31: each row names its register source, and both completions commit one value. -/
theorem maskedOffElementsUnused : Obligations.MaskedOffElementsUnused := by
  unfold Obligations.MaskedOffElementsUnused
  intro p d r m s t v i hrows hrd helem hx
  have hrow : (sourceOf i = .reg r ∨ sourceOf i = .regSae r) ∧ i.fields.dst = d ∧ i.fields.mask = m := by
    rcases hrows with rfl | rfl | rfl | rfl
    · exact ⟨.inl rfl, rfl, rfl⟩
    · exact ⟨.inl rfl, rfl, rfl⟩
    · exact ⟨.inl rfl, rfl, rfl⟩
    · exact ⟨.inr rfl, rfl, rfl⟩
  obtain ⟨hsrc, rfl, rfl⟩ := hrow
  obtain ⟨new, mx, rfl, hx'⟩ := exec_writeZmm_source hsrc hrd helem hx
  exact ⟨_, hx', by rw [readZmm_commit_same, readZmm_commit_same], rfl, rfl⟩

/-! ### Results and MXCSR (R108, R112 item 5) -/

/-- Gathering bytes reads no MXCSR. -/
theorem gatherBytes_with_mxcsr (s : State) (x : BitVec 32) (addr : BitVec 64) (offs : List Nat) :
    gatherBytes { s with mxcsr := x } addr offs = gatherBytes s addr offs := by
  induction offs with
  | nil => rfl
  | cons o os ih =>
    rw [gatherBytes, gatherBytes, ih]
    rfl

/-- The source operand is read without MXCSR. -/
theorem readSource_next_with_mxcsr {f : Form} {len : Nat} {p : Prefixes} {mk : Masking} {src : Source} {s : State}
    {v : VecWord} (x : BitVec 32) (h : readSource f len p mk src s = .next v) :
    readSource f len p mk src { s with mxcsr := x } = .next v := by
  cases src with
  | reg r | regSae r => exact h
  | mem a | bcst a =>
    rw [readSource_of_address (a := a) rfl, readMemory_eq_next] at h ⊢
    rw [gatherBytes_with_mxcsr]
    exact h

/-- The new destination depends on MXCSR through DAZ alone, and DAZ changes no result. -/
theorem destValue_with_mxcsr (f : Form) (d : VReg) (mk : Masking) (src : Source) (v : VecWord) (s : State)
    (x : BitVec 32) : destValue f d mk src v { s with mxcsr := x } = destValue f d mk src v s := by
  have helem : destElem d mk src v { s with mxcsr := x } = destElem d mk src v s := by
    funext j
    rw [destElem, destElem, convertedAt, convertedAt, cvtt_r_eq, cvtt_r_eq _ (mxDAZ s.mxcsr)]
    rfl
  unfold destValue
  rw [helem]
  rfl

/-- Settles O33: both completions commit the same value at the same length. -/
theorem resultsIgnoreMxcsr : Obligations.ResultsIgnoreMxcsr := by
  unfold Obligations.ResultsIgnoreMxcsr
  intro i s t t' x h h'
  rw [exec_eq_convert, convert_eq_next] at h h'
  obtain ⟨-, -, v, m, hv, -, rfl⟩ := h
  obtain ⟨-, -, v', m', hv', -, rfl⟩ := h'
  obtain rfl := Host.Outcome.next.inj ((readSource_next_with_mxcsr x hv).symm.trans hv')
  rw [State.commit_zmm, State.commit_zmm, destValue_with_mxcsr]
  exact ⟨rfl, rfl⟩

end Sys2Proof.Machine
end

section
/-! PROOFS. What each form does when it completes (41_cvttpd2dq.md R120 to R129), and the step of the instruction at `pc`. -/

namespace Sys2Proof.Machine

/-! ### The bytes at `pc` (R120 step 1) -/

/-- Settles O11: the step is the fetch followed by `exec`. -/
theorem stepRunsDecoded : Obligations.StepRunsDecoded := by
  unfold Obligations.StepRunsDecoded
  exact fun _ _ _ h => step_of_ok h

/-- Bytes that can be fetched one after another are what the fetch begins with. -/
theorem codeBytesFrom_eq_append (s : State) :
    ∀ (bs : List Byte) (n o : Nat), bs.length ≤ n → (∀ j, j < bs.length → codeByte s (o + j) = bs[j]?) →
      ∃ rest, codeBytesFrom s n o = bs ++ rest := by
  intro bs
  induction bs with
  | nil => exact fun n o _ _ => ⟨codeBytesFrom s n o, rfl⟩
  | cons b bs ih =>
    intro n o hn hbytes
    rw [List.length_cons] at hn hbytes
    obtain ⟨n, rfl⟩ := Nat.exists_eq_add_of_lt (Nat.zero_lt_of_lt hn)
    have hfirst : codeByte s o = some b := hbytes 0 (Nat.succ_pos _)
    obtain ⟨rest, hrest⟩ := ih (0 + n) (o + 1) (Nat.le_of_succ_le_succ hn) fun j hj => by
      rw [Nat.add_assoc, Nat.add_comm 1]
      exact hbytes (j + 1) (Nat.succ_lt_succ hj)
    refine ⟨rest, ?_⟩
    rw [codeBytesFrom, hfirst, hrest]
    rfl

theorem codeBytes_eq_append_of_codeAt {bs : List Byte} {s : State} (hlen : bs.length ≤ Config.maxLength)
    (h : CodeAt bs s) : ∃ rest, codeBytes s = bs ++ rest :=
  codeBytesFrom_eq_append s bs _ 0 hlen fun j hj => by rw [Nat.zero_add, h j hj]

/-- Settles O12: the fetch offers the instruction's bytes and more, from which the decoder reads the instruction back. -/
theorem codeAtRuns : Obligations.CodeAtRuns := by
  unfold Obligations.CodeAtRuns
  intro s i hwf hcode
  have hlen : i.length ≤ Config.maxLength := of_decide_eq_true (Bool.and_eq_true_iff.1 hwf).2
  obtain ⟨rest, hbytes⟩ := codeBytes_eq_append_of_codeAt hlen hcode
  refine step_of_ok (rest := rest) ?_
  rw [hbytes]
  exact decodeEncodeRoundTrip (decodeEnv s) i rest hwf

/-! ### Completion when every raised condition is masked (R106) -/

theorem unmasked_eq_false_iff (m : BitVec 32) (ie pe : Bool) :
    unmasked m ie pe = false ↔ (ie = true → mxIM m = true) ∧ (pe = true → mxPM m = true) := by
  simp [unmasked]

/-- The response to masked conditions sets their flags. -/
theorem respondFlags_of_masked {s : State} {ie pe : Bool} (h : unmasked s.mxcsr ie pe = false) :
    respondFlags false ie pe s = .next (setFlags s.mxcsr ie pe) := by
  rw [respondFlags, h, if_neg Bool.false_ne_true, if_neg Bool.false_ne_true]

/-- No condition, with `{sae}` or without: MXCSR stays. -/
theorem respondFlags_none (sae : Bool) (s : State) : respondFlags sae false false s = .next s.mxcsr := by
  cases sae
  · rw [respondFlags_of_masked rfl, setFlags_none]
  · rfl

section
variable {f : Form} {len : Nat} {p : Prefixes} {d : VReg} {mk : Masking} {src : Source} {e : Nat → Qword} {s : State}
variable (hen : Enabled f s) (hsrc : SourceIs f len p mk src e s) (hsae : src.sae = false)
  (hno : NoUnmaskedCondition f mk e s)
include hen hsrc hsae hno

/-- The skeleton completes on a readable source without unmasked condition; `new` is what it writes, whatever word with the
elements `e` was read. -/
theorem convert_completes {new : VecWord}
    (hnew : ∀ v, (∀ j, j < f.kl → computed mk s j = true → sourceElem src v j = e j) → destValue f d mk src v s = new) :
    ∃ t, convert f len p d mk src s = .next t
      ∧ Completed len d new (RaisesInvalid f mk e s) (RaisesInexact f mk e s) s t := by
  obtain ⟨hon, hts⟩ := hen
  obtain ⟨v, hv, helem⟩ := readSource_of_sourceIs hsrc
  obtain ⟨hie, hpe⟩ := raises_iff f mk src v e s helem
  have hresp := respondFlags_of_masked (s := s) ((unmasked_eq_false_iff _ (anyInvalid f mk src v s)
    (anyInexact f mk src v s)).2 ⟨fun h => hno.1 (hie.1 h), fun h => hno.2 (hpe.1 h)⟩)
  refine ⟨_, (convert_eq_next ..).2 ⟨hon, hts, v, _, hv, by rw [hsae]; exact hresp, rfl⟩, ?_⟩
  rw [hnew v helem, ← hie, ← hpe]
  exact completed_commit ..

/-- A VEX or EVEX form writes the elements of R126 and nothing above them. -/
theorem convert_completes_packLow (hf : f ≠ .sse) :
    ∃ t, convert f len p d mk src s = .next t
      ∧ Completed len d (packLow f.kl (elementAt d mk s e)) (RaisesInvalid f mk e s) (RaisesInexact f mk e s) s t :=
  convert_completes hen hsrc hsae hno fun _ helem => destValue_eq_packLow_elementAt hf d helem

end

theorem Source.sae_plain (o : Operand) : (Source.plain o).sae = false := by cases o <;> rfl

/-- Without a writemask every element is computed. -/
theorem elementAt_off (d : VReg) (s : State) (e : Nat → Qword) : elementAt d Masking.off s e = resultAt s e := rfl

/-! ### The packed results of two and four elements -/

theorem packLow_two (f : Nat → Dword) : packLow 2 f = 0#448 ++ f 1 ++ f 0 := by
  have h1 := setWidth_packLow_succ (f := fun j => f (j + 1)) (by decide) (setWidth_packLow_zero 448 _)
  exact (BitVec.setWidth_eq _).symm.trans (setWidth_packLow_succ (by decide) h1)

theorem packLow_four (f : Nat → Dword) : packLow 4 f = 0#384 ++ f 3 ++ f 2 ++ f 1 ++ f 0 := by
  have h3 := setWidth_packLow_succ (f := fun j => f (j + 3)) (by decide) (setWidth_packLow_zero 384 _)
  have h2 := setWidth_packLow_succ (f := fun j => f (j + 2)) (by decide) h3
  have h1 := setWidth_packLow_succ (f := fun j => f (j + 1)) (by decide) h2
  exact (BitVec.setWidth_eq _).symm.trans (setWidth_packLow_succ (by decide) h1)

/-- The old bits from 128 up, above 64 zero bits and two results. -/
theorem keepAbove128_or_append (v : VecWord) (x y : Dword) :
    (v >>> 128 <<< 128) ||| (0#448 ++ x ++ y) = v.extractLsb' 128 384 ++ 0#64 ++ x ++ y := by
  apply BitVec.eq_of_getLsbD_eq
  intro b hb
  rw [BitVec.getLsbD_or, BitVec.getLsbD_shiftLeft, BitVec.getLsbD_ushiftRight]
  simp only [BitVec.getLsbD_append, BitVec.getLsbD_extractLsb', BitVec.getLsbD_zero]
  by_cases h128 : b < 128
  · have hzero : b - 32 - 32 < 64 := by omega
    simp [h128, hzero]
  · have h32 : ¬ b < 32 := by omega
    have h64 : ¬ b - 32 < 32 := by omega
    have hkept : b - 32 - 32 - 64 = b - 128 := by omega
    have hhigh : ¬ b - 32 - 32 < 64 := by omega
    have hin : b - 128 < 384 := by omega
    simp [h128, h32, h64, hhigh, hkept, hin, hb]

/-- F-SSE writes below bit 128 what F-VEX128 writes, and keeps the old bits from there up (R121). -/
theorem destValue_sse {d : VReg} {src : Source} {v : VecWord} {s : State} {e : Nat → Qword}
    (h : ∀ j, j < Form.sse.kl → computed Masking.off s j = true → sourceElem src v j = e j) :
    destValue .sse d Masking.off src v s
      = (s.readZmm d).extractLsb' 128 384 ++ 0#64 ++ resultAt s e 1 ++ resultAt s e 0 := by
  have hlow : destValue .vex128 d Masking.off src v s = packLow 2 (resultAt s e) :=
    destValue_eq_packLow_elementAt (by decide) d h
  calc destValue .sse d Masking.off src v s
      = (s.readZmm d >>> 128 <<< 128) ||| destValue .vex128 d Masking.off src v s := rfl
    _ = _ := by rw [hlow, packLow_two, keepAbove128_or_append]

/-! ### The forms without a writemask (R121 to R123) -/

/-- Settles O22: both rows run one form. -/
theorem sseConverts : Obligations.SseConverts := by
  unfold Obligations.SseConverts
  intro x66 p d src e s i hrow hen hsrc hno
  rcases hrow with rfl | rfl
  · exact convert_completes hen hsrc (Source.sae_plain src) hno fun _ => destValue_sse
  · exact convert_completes hen hsrc (Source.sae_plain src) hno fun _ => destValue_sse

/-- Settles O23: both rows run one form, whose two elements are all computed. -/
theorem vex128Converts : Obligations.Vex128Converts := by
  unfold Obligations.Vex128Converts
  intro p d src e s i hrow hen hsrc hno
  rw [← packLow_two (resultAt s e), ← elementAt_off d s e]
  rcases hrow with rfl | rfl
  · exact convert_completes_packLow hen hsrc (Source.sae_plain src) hno (by decide)
  · exact convert_completes_packLow hen hsrc (Source.sae_plain src) hno (by decide)

/-- Settles O24: both rows run one form, whose four elements are all computed. -/
theorem vex256Converts : Obligations.Vex256Converts := by
  unfold Obligations.Vex256Converts
  intro p d src e s i hrow hen hsrc hno
  rw [← packLow_four (resultAt s e), ← elementAt_off d s e]
  rcases hrow with rfl | rfl
  · exact convert_completes_packLow hen hsrc (Source.sae_plain src) hno (by decide)
  · exact convert_completes_packLow hen hsrc (Source.sae_plain src) hno (by decide)

/-! ### The EVEX forms (R124 to R126) -/

/-- Settles O25: both rows run one form, neither under `{sae}`. -/
theorem evex128Converts : Obligations.Evex128Converts := by
  unfold Obligations.Evex128Converts
  intro p d m e s i hrow hen hsrc hno
  rw [← packLow_two (elementAt d m s e)]
  rcases hrow with ⟨src, rfl⟩ | ⟨a, rfl⟩
  · exact convert_completes_packLow hen hsrc (Source.sae_plain src) hno (by decide)
  · exact convert_completes_packLow hen hsrc rfl hno (by decide)

/-- Settles O26: both rows run one form, neither under `{sae}`. -/
theorem evex256Converts : Obligations.Evex256Converts := by
  unfold Obligations.Evex256Converts
  intro p d m e s i hrow hen hsrc hno
  rw [← packLow_four (elementAt d m s e)]
  rcases hrow with ⟨src, rfl⟩ | ⟨a, rfl⟩
  · exact convert_completes_packLow hen hsrc (Source.sae_plain src) hno (by decide)
  · exact convert_completes_packLow hen hsrc rfl hno (by decide)

/-- Settles O27: both rows run one form; with `b = 1` a memory source is a broadcast and not `{sae}`. -/
theorem evex512Converts : Obligations.Evex512Converts := by
  unfold Obligations.Evex512Converts
  intro p d m e s i hrow hen hsrc hno
  rw [← packLow_eight (elementAt d m s e)]
  rcases hrow with ⟨src, rfl⟩ | ⟨a, rfl⟩
  · exact convert_completes_packLow hen hsrc (Source.sae_plain src) hno (by decide)
  · exact convert_completes_packLow hen hsrc rfl hno (by decide)

/-! ### No computed element (R129 items 1 to 3) -/

/-- Without writemask bits among the elements of the form, no flag of a conversion counts: `g` is one such flag. -/
theorem any_flag_of_none_computed {f : Form} {mk : Masking} {s : State} (h : ∀ j, j < f.kl → computed mk s j = false)
    (src : Source) (v : VecWord) (g : Converted → Bool) :
    ((List.range f.kl).any fun j => computed mk s j && g (convertedAt src v s j)) = false := by
  rw [List.any_eq_false]
  intro j hj
  rw [h j (List.mem_range.1 hj), Bool.false_and]
  exact Bool.false_ne_true

/-- Bit `b` of a word is bit `b % 32` of its element `b / 32`. -/
theorem getLsbD_elem32 (v : VecWord) (b : Nat) : (elem32 v (b / 32)).getLsbD (b % 32) = v.getLsbD b := by
  rw [elem32, BitVec.getLsbD_extractLsb', Nat.div_add_mod, decide_eq_true (Nat.mod_lt b (by decide)), Bool.true_and]

/-- With no element computed, a VEX or EVEX form keeps its low half under merging-masking, and clears all else. -/
theorem getLsbD_destValue_of_none_computed {f : Form} (hf : f ≠ .sse) {d : VReg} {mk : Masking} {s : State}
    (h : ∀ j, j < f.kl → computed mk s j = false) (src : Source) (v : VecWord) (b : Nat) :
    (destValue f d mk src v s).getLsbD b = (!mk.z && decide (b < 32 * f.kl) && (s.readZmm d).getLsbD b) := by
  rw [destValue_of_ne_sse hf]
  by_cases hb : b < 32 * f.kl
  · have hkl := kl_le f
    rw [getLsbD_packLow _ _ _ (by omega), destElem, h _ (by omega), if_neg Bool.false_ne_true]
    cases mk.z
    · simp [hb, getLsbD_elem32]
    · simp
  · rw [getLsbD_packLow_above _ _ _ (Nat.not_lt.1 hb), decide_eq_false hb, Bool.and_false, Bool.false_and]

theorem vl_half (f : Form) : f.vl / 2 = 32 * f.kl := by cases f <;> rfl

/-- Settles O29: with no element computed no flag is raised, so that MXCSR stays with `{sae}` and without. -/
theorem allMaskedOff : Obligations.AllMaskedOff := by
  unfold Obligations.AllMaskedOff
  intro p d m src s t f i hrows hk hoff hx
  have hrow : f ≠ .sse ∧ i.fields.form = f ∧ i.fields.dst = d ∧ i.fields.mask = m := by
    rcases hrows with ⟨rfl, rfl⟩ | ⟨rfl, rfl⟩ | ⟨rfl, rfl⟩ | ⟨rfl, rfl⟩ | ⟨a, -, rfl, rfl⟩ | ⟨a, -, rfl, rfl⟩ <;>
      exact ⟨by decide, rfl, rfl, rfl⟩
  obtain ⟨hf, rfl, rfl, rfl⟩ := hrow
  have hnone : ∀ j, j < i.fields.form.kl → computed i.fields.mask s j = false := fun j hj => by
    rw [computed, decide_eq_false hk, hoff j hj, Bool.or_false]
  rw [exec_eq_convert, convert_eq_next] at hx
  obtain ⟨-, -, v, mx, -, hm, rfl⟩ := hx
  rw [anyInvalid, any_flag_of_none_computed hnone _ _ Converted.ie, anyInexact,
    any_flag_of_none_computed hnone _ _ Converted.pe, respondFlags_none] at hm
  refine ⟨(Host.Outcome.next.inj hm).symm, fun b => ?_⟩
  rw [readZmm_commit_same, getLsbD_destValue_of_none_computed hf hnone, vl_half]

end Sys2Proof.Machine
end

section
/-! PROOFS. Exceptions (60_exceptions.md): missing enables, `#NM`, the faults of the operand, unmasked conditions, and the
restart after a fault. -/

namespace Sys2Proof.Machine

/-! ### The table of exceptions (R142) -/

/-- Settles O47: the vector, the error code and the record are each given fault by fault. -/
theorem exceptionTable : Obligations.ExceptionTable := by
  unfold Obligations.ExceptionTable
  intro s code lin
  exact ⟨⟨rfl, rfl, rfl⟩, ⟨rfl, rfl, rfl⟩, ⟨rfl, rfl, rfl⟩, ⟨rfl, rfl, rfl⟩, ⟨rfl, rfl, rfl⟩,
    ⟨rfl, rfl, rfl⟩⟩

/-! ### Before the operand (R144, R145, R148) -/

theorem exec_of_not_enabled {i : Instr} {s : State} (h : s.enabled i.fields.form = false) :
    exec i s = .fault (.ud s) := by
  rw [exec_eq_convert, convert, if_pos h, raise]

theorem exec_of_taskSwitched {i : Instr} {s : State} (hen : s.enabled i.fields.form = true) (hts : s.ts = true) :
    exec i s = .fault (.nm s) := by
  rw [exec_eq_convert, convert, hen, hts, if_neg Bool.false_ne_true.symm, if_pos rfl, raise]

/-- Settles O42: TS is looked at where the form is enabled, and only there. -/
theorem taskSwitchedFaults : Obligations.TaskSwitchedFaults := by
  unfold Obligations.TaskSwitchedFaults
  exact fun i s hts => ⟨fun hen => exec_of_taskSwitched hen hts, exec_of_not_enabled⟩

/-- A field of a word is all ones when each of its bits is set. -/
theorem extractLsb'_eq_allOnes_iff {w n : Nat} (v : BitVec w) (a : Nat) :
    v.extractLsb' a n = BitVec.allOnes n ↔ ∀ j : Fin n, v.getLsbD (a + j) = true := by
  constructor
  · intro h j
    have hbit := congrArg (BitVec.getLsbD · j) h
    simpa using hbit
  · intro h
    apply BitVec.eq_of_getLsbD_eq
    intro j hj
    simpa [hj] using h ⟨j, hj⟩

theorem State.avxState_eq_false_iff (s : State) : s.avxState = false ↔ s.xcr0.extractLsb' 1 2 ≠ 3#2 := by
  have hfield := extractLsb'_eq_allOnes_iff (n := 2) s.xcr0 1
  rw [Fin.forall_fin_two] at hfield
  rw [State.avxState, ← Bool.not_eq_true, Bool.and_eq_true]
  exact not_congr hfield.symm

theorem State.avx512State_eq_false_iff (s : State) : s.avx512State = false ↔ s.xcr0.extractLsb' 5 3 ≠ 7#3 := by
  have hfield := extractLsb'_eq_allOnes_iff (n := 3) s.xcr0 5
  rw [Fin.forall_fin_succ, Fin.forall_fin_two, ← and_assoc] at hfield
  rw [State.avx512State, ← Bool.not_eq_true, Bool.and_eq_true, Bool.and_eq_true]
  exact not_congr hfield.symm

theorem State.realOrV86_eq_true_iff (s : State) :
    s.realOrV86 = true ↔ s.cr0.getLsbD 0 = false ∨ s.eflags.getLsbD 17 = true := by
  rw [State.realOrV86, State.realMode, Bool.or_eq_true, Bool.not_eq_true']

/-- Settles O41: each form's list of conditions is the failure of one of the enables that its form asks for. -/
theorem missingEnableFaults : Obligations.MissingEnableFaults := by
  unfold Obligations.MissingEnableFaults
  intro i s
  rw [and_iff_right_of_imp exec_of_not_enabled]
  simp only [← State.avxState_eq_false_iff, ← State.avx512State_eq_false_iff]
  cases i.fields.form with
  | sse =>
    simp only [State.enabled, State.systemEnabled, State.hasFeatures, Bool.and_eq_false_iff, Bool.not_eq_false',
      State.em, State.osfxsr, or_assoc]
  | vex128 | vex256 | evex128 | evex256 | evex512 =>
    simp only [State.enabled, State.systemEnabled, State.hasFeatures, Bool.and_eq_false_iff, Bool.not_eq_false',
      State.realOrV86_eq_true_iff, State.osxsave, or_assoc]

/-! ### The checks of the operand (R149) -/

/-- An enabled instruction reads its source and goes on with the word read. -/
theorem exec_of_enabled {i : Instr} {s : State} (h : Enabled i.fields.form s) :
    exec i s = (readSource i.fields.form i.length i.fields.pre i.fields.mask (sourceOf i) s).bind fun v =>
      (respondFlags (sourceOf i).sae (anyInvalid i.fields.form i.fields.mask (sourceOf i) v s)
        (anyInexact i.fields.form i.fields.mask (sourceOf i) v s) s).bind fun m =>
        .next (commit i.fields.dst (destValue i.fields.form i.fields.dst i.fields.mask (sourceOf i) v s) m i.length s) := by
  obtain ⟨hen, hts⟩ := h
  rw [exec_eq_convert, convert, hen, hts, if_neg Bool.false_ne_true.symm, if_neg Bool.false_ne_true]

section
variable {i : Instr} {a : Address} {s : State} (hen : Enabled i.fields.form s) (ha : (sourceOf i).address = some a)
include hen ha

/-- R149, last bullet: the alignment of F-SSE is tested before anything else of the operand. -/
theorem exec_of_misaligned_sse (hf : i.fields.form = .sse)
    (hm : (operandAddr i.fields.form i.length i.fields.pre (sourceOf i) a s).toNat % 16 ≠ 0) :
    exec i s = .fault (.gp0 s) := by
  rw [exec_of_enabled hen, readSource_of_address ha, readMemory, if_pos ⟨hf, hm⟩, raise, Result.bind_fault]

/-- A byte that is read and is not in the segment, the operand being aligned: the segment's exception. -/
theorem exec_of_not_byteInSegment {o : Nat}
    (hal : i.fields.form = .sse → (operandAddr i.fields.form i.length i.fields.pre (sourceOf i) a s).toNat % 16 = 0)
    (ho : byteRead i.fields.form i.fields.mask (sourceOf i) s o = true)
    (hseg : byteInSegment s (effSeg s.mode i.fields.pre a)
      (operandEA i.fields.form i.length i.fields.pre (sourceOf i) a s) o = false) :
    exec i s = .fault (segmentFault s (effSeg s.mode i.fields.pre a) s) := by
  have hviol : segmentViolation s (effSeg s.mode i.fields.pre a)
      (operandEA i.fields.form i.length i.fields.pre (sourceOf i) a s)
      (operandAddr i.fields.form i.length i.fields.pre (sourceOf i) a s)
      (readOffsets i.fields.form i.fields.mask (sourceOf i).isBcst s) = true := by
    rw [← Bool.not_eq_false]
    intro hnone
    have hin := (segmentViolation_eq_false _ _ _ _).1 hnone o ((mem_readOffsets_of_address ha o).2 ho)
    rw [hseg] at hin
    cases hin
  rw [exec_of_enabled hen, readSource_of_address ha, readMemory, if_neg fun h => h.2 (hal h.1)]
  exact congrArg (Result.bind · _) (if_pos hviol)

end

/-- Outside real-address mode the exception of a segment depends on the segment alone. -/
theorem segmentFault_of_not_real {s : State} (h : ¬ (s.mode = .mode32 ∧ s.realMode = true)) (g : SegReg) :
    segmentFault s g s = if g = .ss then .ss0 s else .gp0 s := by
  unfold segmentFault
  split
  next hg => rw [if_pos hg.1]
  next hg => rw [if_neg fun hss => hg ⟨hss, h⟩]

theorem segmentFault_of_real {s : State} (hm : s.mode = .mode32) (hr : s.realMode = true) (g : SegReg) :
    segmentFault s g s = .gp0 s := by
  rw [segmentFault, if_neg fun h => h.2 ⟨hm, hr⟩]

section
variable {s : State} (hm : s.mode = .mode32) (g : SegReg) (ea : BitVec 64) (o : Nat)
include hm

theorem byteInSegment_eq_false_of_protected (hr : s.realMode = false) :
    byteInSegment s g ea o = false ↔ (s.segment g).limit.toNat < ea.toNat + o ∨ (s.segment g).readable = false
      ∨ (s.segment g).null = true := by
  simp only [byteInSegment, hm, hr, Bool.false_eq_true, if_false, Bool.and_eq_false_iff, Bool.not_eq_false',
    decide_eq_false_iff_not, Nat.not_le]
  tauto

theorem byteInSegment_eq_false_of_real (hr : s.realMode = true) :
    byteInSegment s g ea o = false ↔ 0xFFFF < ea.toNat + o := by
  simp only [byteInSegment, hm, hr, if_true, decide_eq_false_iff_not, Nat.not_le]

end

theorem byteInSegment_of_mode64 {s : State} (hm : s.mode = .mode64) (g : SegReg) (ea : BitVec 64) (o : Nat) :
    byteInSegment s g ea o = canonical s.la57 (byteAddr s (linearAddr s g ea) o) := by
  rw [byteInSegment, hm]

/-- Settles O43: a byte fails the check of its mode when it is not in the segment, and the mode chooses the exception. -/
theorem segmentChecksFault : Obligations.SegmentChecksFault := by
  unfold Obligations.SegmentChecksFault
  intro i a s ha hen
  refine ⟨exec_of_misaligned_sse hen ha, fun hal => ⟨fun hm ⟨o, ho, hbad⟩ => ?_, fun hm hr ⟨o, ho, hbad⟩ => ?_,
    fun hm hr ⟨o, ho, hbad⟩ => ?_⟩⟩
  · rw [← segmentFault_of_not_real (by simp [hm])]
    exact exec_of_not_byteInSegment hen ha hal ho ((byteInSegment_of_mode64 hm _ _ o).trans hbad)
  · rw [← segmentFault_of_not_real (by simp [hr])]
    exact exec_of_not_byteInSegment hen ha hal ho ((byteInSegment_eq_false_of_protected hm _ _ o hr).2 hbad)
  · rw [← segmentFault_of_real hm hr (effSeg s.mode i.fields.pre a)]
    exact exec_of_not_byteInSegment hen ha hal ho ((byteInSegment_eq_false_of_real hm _ _ o hr).2 hbad)

/-! ### Page faults (R150) -/

/-- A power of two that a condition switches on. -/
theorem getLsbD_ite_twoPow {w n : Nat} (hn : n < w) (c : Prop) [Decidable c] (b : Nat) :
    (if c then BitVec.twoPow w n else 0#w).getLsbD b = (decide c && decide (n = b)) := by
  split
  next hc => simp [BitVec.getLsbD_twoPow, hn, hc]
  next hc => simp [hc]

/-- Every bit of the error code (R150). -/
theorem getLsbD_pageFaultCode (cpl : BitVec 2) (ans : OracleAnswer) (b : Nat) :
    (pageFaultCode cpl ans).getLsbD b = ((decide (ans ≠ .notPresent) && decide (0 = b))
      || (decide (cpl = 3#2) && decide (2 = b))
      || (decide (ans = .reservedBit) && decide (3 = b)) || (decide (ans = .protectionKey) && decide (5 = b))) := by
  have hcode : pageFaultCode cpl ans = (if ans ≠ .notPresent then BitVec.twoPow 32 0 else 0#32)
      ||| (if cpl = 3#2 then BitVec.twoPow 32 2 else 0#32) ||| (if ans = .reservedBit then BitVec.twoPow 32 3 else 0#32)
      ||| (if ans = .protectionKey then BitVec.twoPow 32 5 else 0#32) := by
    rw [pageFaultCode, ite_not]
    rfl
  rw [hcode, BitVec.getLsbD_or, BitVec.getLsbD_or, BitVec.getLsbD_or, getLsbD_ite_twoPow (by decide),
    getLsbD_ite_twoPow (by decide), getLsbD_ite_twoPow (by decide), getLsbD_ite_twoPow (by decide)]

/-- Settles O46: with no segment answer the search for page faults, which comes next, finds some region that is read. -/
theorem pageFaults : Obligations.PageFaults := by
  unfold Obligations.PageFaults
  intro i a s r o h hnoseg hr hpf
  have hseg : oracleHit s OracleAnswer.isSegment (readAddrs i a s) = none :=
    (oracleHit_readAddrs_eq_none h.address _).2 hnoseg
  cases hhit : oracleHit s (OracleAnswer.isPageFault s.cpl) (readAddrs i a s) with
  | none =>
    have hno := (oracleHit_readAddrs_eq_none h.address _).1 hhit r o hr
    rw [hpf] at hno
    cases hno
  | some found =>
    obtain ⟨ans, x⟩ := found
    obtain ⟨r', o', hr', hpf', rfl, rfl⟩ := oracleHit_readAddrs_eq_some h.address hhit
    have hx := h.exec_eq_oracleFault (e := .pf (pageFaultCode s.cpl r'.answer) _) (by rw [oracleFault, hseg, hhit])
    refine ⟨r', o', _, hr', hpf', hx, ?_⟩
    simp only [getLsbD_pageFaultCode]
    refine ⟨by simp, by simp, by simp, by simp, by simp, by simp, fun b hb => ?_⟩
    have h0 : 0 ≠ b := by omega
    have h2 : 2 ≠ b := by omega
    have h3 : 3 ≠ b := by omega
    have h5 : 5 ≠ b := by omega
    simp [h0, h2, h3, h5]

/-! ### Unmasked conditions (R151) -/

/-- The response to an unmasked condition without `{sae}`. -/
theorem respondFlags_of_unmasked {s : State} {ie pe : Bool} (h : unmasked s.mxcsr ie pe = true) :
    respondFlags false ie pe s = .fault (if s.cr4.getLsbD 10 = true then .xm s.drawFlags else .ud s.drawFlags) := by
  rw [respondFlags, if_neg Bool.false_ne_true, if_pos h, raiseSimd, State.osxmmexcpt, raise, raise,
    apply_ite Host.Outcome.fault]

theorem unmasked_eq_true_iff (m : BitVec 32) (ie pe : Bool) :
    unmasked m ie pe = true ↔ (ie = true ∧ mxIM m = false) ∨ (pe = true ∧ mxPM m = false) := by
  simp [unmasked]

/-- A `{sae}` source is a register, so that it is read whatever the state. -/
theorem exists_readSource_of_sae {src : Source} (h : src.sae = true) (f : Form) (len : Nat) (p : Prefixes) (mk : Masking)
    (s : State) : ∃ v, readSource f len p mk src s = .next v := by
  cases src with
  | regSae r => exact ⟨_, rfl⟩
  | reg r | mem a | bcst a => cases h

/-- Settles O49: without `{sae}` the response raises the exception; with it nothing can stop the commit. -/
theorem unmaskedConditionFaults : Obligations.UnmaskedConditionFaults := by
  unfold Obligations.UnmaskedConditionFaults
  refine ⟨fun i e s hen hsae hsrc hcond => ⟨_, faultStateOf_drawFlags s, ?_⟩, fun i s hen hsae => ?_⟩
  · obtain ⟨v, hv, helem⟩ := readSource_of_sourceIs hsrc
    obtain ⟨hie, hpe⟩ := raises_iff i.fields.form i.fields.mask (sourceOf i) v e s helem
    rw [← hie, ← hpe, ← unmasked_eq_true_iff] at hcond
    rw [exec_of_enabled hen, hv, Result.bind_next, hsae, respondFlags_of_unmasked hcond, Result.bind_fault]
  · obtain ⟨v, hv⟩ := exists_readSource_of_sae hsae i.fields.form i.length i.fields.pre i.fields.mask s
    rw [exec_of_enabled hen, hv, Result.bind_next, hsae]
    exact ⟨_, rfl⟩

/-! ### The restart after a fault (R155) -/

/-- Gathering bytes reads no counter of draws. -/
theorem gatherBytes_with_draws (s : State) (n : Nat) (addr : BitVec 64) (offs : List Nat) :
    gatherBytes { s with draws := n } addr offs = gatherBytes s addr offs := by
  induction offs with
  | nil => rfl
  | cons o os ih =>
    rw [gatherBytes, gatherBytes, ih]
    rfl

/-- The source operand is read without the counter of draws. -/
theorem readSource_next_with_draws {f : Form} {len : Nat} {p : Prefixes} {mk : Masking} {src : Source} {s : State}
    {v : VecWord} (n : Nat) (h : readSource f len p mk src s = .next v) :
    readSource f len p mk src { s with draws := n } = .next v := by
  cases src with
  | reg r | regSae r => exact h
  | mem a | bcst a =>
    rw [readSource_of_address (a := a) rfl, readMemory_eq_next] at h ⊢
    rw [gatherBytes_with_draws]
    exact h

/-- An instruction that completes neither reads nor moves the counter of draws. -/
theorem exec_next_with_draws {i : Instr} {s t : State} (n : Nat) (h : exec i s = .next t) :
    exec i { s with draws := n } = .next { t with draws := n } := by
  have hsame : SameInputs i.fields.form i.fields.mask s { s with draws := n } := ⟨rfl, rfl, rfl, rfl, fun _ _ => rfl⟩
  obtain ⟨v, m, rfl, hx⟩ := hsame.exec_next (fun _ => readSource_next_with_draws n) h
  exact hx

/-- With IM and PM set the response completes, whatever was raised. -/
theorem respondFlags_of_allMasked {s : State} (h : AllMasked s) (sae ie pe : Bool) :
    ∃ m, respondFlags sae ie pe s = .next m := by
  cases sae
  · exact ⟨_, respondFlags_of_masked ((unmasked_eq_false_iff _ ie pe).2 ⟨fun _ => h.1, fun _ => h.2⟩)⟩
  · exact ⟨_, rfl⟩

/-- An instruction that completes does so under any MXCSR with IM and PM set. -/
theorem exec_next_of_allMasked {i : Instr} {s t : State} {x : BitVec 32} (hx : AllMasked { s with mxcsr := x })
    (h : exec i s = .next t) : ∃ t', exec i { s with mxcsr := x } = .next t' := by
  rw [exec_eq_convert, convert_eq_next] at h
  obtain ⟨hen, hts, v, -, hv, -, -⟩ := h
  have hen' : Enabled i.fields.form { s with mxcsr := x } := ⟨hen, hts⟩
  rw [exec_of_enabled hen', readSource_next_with_mxcsr x hv, Result.bind_next]
  obtain ⟨m, hm⟩ := respondFlags_of_allMasked hx (sourceOf i).sae
    (anyInvalid i.fields.form i.fields.mask (sourceOf i) v { s with mxcsr := x })
    (anyInexact i.fields.form i.fields.mask (sourceOf i) v { s with mxcsr := x })
  rw [hm]
  exact ⟨_, rfl⟩

/-- A completed instruction changes no bit of MXCSR but IE and PE. -/
theorem exec_next_mxcsr_controls {i : Instr} {s t : State} (h : exec i s = .next t) {b : Nat} (h0 : b ≠ 0) (h5 : b ≠ 5) :
    t.mxcsr.getLsbD b = s.mxcsr.getLsbD b := by
  obtain ⟨v, ie, pe, rfl⟩ := exec_next_eq_commit h
  exact getLsbD_setFlags_other _ _ _ b h0 h5

theorem allMasked_or_masks (s : State) (x : BitVec 32) : AllMasked { s with mxcsr := x ||| 0x1080#32 } := by
  simp [AllMasked, mxIM, mxPM]

/-- The restart from the state that a SIMD floating-point fault left: other sticky flags and draws, which the result does
not depend on. -/
theorem exec_next_restart {i : Instr} {s t : State} (h : exec i { s with mxcsr := s.mxcsr ||| 0x1080#32 } = .next t) :
    ∃ t', exec i { s.drawFlags with mxcsr := s.drawFlags.mxcsr ||| 0x1080#32 } = .next t' ∧ t'.zmm = t.zmm ∧ t'.pc = t.pc
      ∧ ∀ b, b ≠ 0 → b ≠ 5 → t'.mxcsr.getLsbD b = t.mxcsr.getLsbD b := by
  obtain ⟨t', ht'⟩ := exec_next_of_allMasked (allMasked_or_masks _ s.drawFlags.mxcsr) h
  obtain ⟨hzmm, hpc⟩ := resultsIgnoreMxcsr i _ t t' _ h ht'
  refine ⟨_, exec_next_with_draws (s.draws + 1) ht', hzmm, hpc, fun b h0 h5 => ?_⟩
  have hdrawn := (faultStateOf_drawFlags s).controls b h0 h5
  calc t'.mxcsr.getLsbD b = (s.drawFlags.mxcsr ||| 0x1080#32).getLsbD b := exec_next_mxcsr_controls ht' h0 h5
    _ = (s.mxcsr ||| 0x1080#32).getLsbD b := by rw [BitVec.getLsbD_or, BitVec.getLsbD_or, hdrawn]
    _ = t.mxcsr.getLsbD b := (exec_next_mxcsr_controls h h0 h5).symm

/-- Settles O50: a fault's state is the old one, from which the restart is the run itself, or the drawn one. -/
theorem restartAfterFault : Obligations.RestartAfterFault := by
  unfold Obligations.RestartAfterFault
  intro i s t f hf h
  rw [exec_eq_convert] at hf
  rcases convert_fault_state hf with hs | ⟨rfl, -⟩ | ⟨rfl, -⟩
  · exact ⟨t, by rw [hs, h], rfl, rfl, fun _ _ _ => rfl⟩
  · exact exec_next_restart h
  · exact exec_next_restart h

end Sys2Proof.Machine
end

section
/-! PROOFS. The launch (70_reset_and_hazards.md R170, R171): the word that it places is the next instruction to run. -/

namespace Sys2Proof.Machine

/-! ### Where the instruction's bytes stand -/

theorem toNat_codeAddr (s : State) (o : Nat) :
    (codeAddr s o).toNat = ((s.segBase .cs + s.pc).toNat + o) % 2 ^ addrBits s.mode :=
  toNat_byteAddr s _ o

/-- Bytes less than 4 GiB apart stand at different addresses in either mode, the wrap at the top included. -/
theorem toNat_codeAddr_ne {s : State} {j o : Nat} (hjo : j < o) (ho : o < 2 ^ 32) :
    (codeAddr s j).toNat ≠ (codeAddr s o).toNat := by
  rw [toNat_codeAddr, toNat_codeAddr]
  cases s.mode <;> simp only [addrBits] <;> omega

@[simp] theorem codeAddr_placeCode (s : State) (o : Nat) (bs : List Byte) : codeAddr (placeCode s o bs) = codeAddr s := by
  funext j
  simp [codeAddr, State.truncAddr, State.segBase, State.segment]

/-- No condition of the fetch reads memory. -/
@[simp] theorem codeReadable_placeCode (s : State) (o : Nat) (bs : List Byte) :
    codeReadable (placeCode s o bs) = codeReadable s := by
  funext j
  simp [codeReadable, State.la57, oracleHit]

/-! ### Placed code -/

/-- Placing code from `o` on leaves the bytes before `o` alone. -/
theorem get_placeCode_before {s : State} {j o : Nat} {bs : List Byte} (hjo : j < o) (hlen : o + bs.length ≤ 2 ^ 32) :
    (placeCode s o bs).mem.get (codeAddr s j).toNat = s.mem.get (codeAddr s j).toNat := by
  induction bs generalizing s o with
  | nil => rfl
  | cons b bs ih =>
    rw [List.length_cons] at hlen
    rw [placeCode]
    exact (ih (Nat.lt_succ_of_lt hjo) (by omega)).trans
      (Memory.get_set_other _ _ _ _ (toNat_codeAddr_ne hjo (by omega)))

/-- Memory then describes the placed bytes one after another. -/
theorem get_placeCode {s : State} {j o : Nat} {bs : List Byte} (hj : j < bs.length) (hlen : o + bs.length ≤ 2 ^ 32) :
    (placeCode s o bs).mem.get (codeAddr s (o + j)).toNat = bs[j]? := by
  induction bs generalizing s o j with
  | nil => cases hj
  | cons b bs ih =>
    rw [List.length_cons] at hj hlen
    rw [placeCode]
    cases j with
    | zero => exact (get_placeCode_before (Nat.lt_succ_self o) (by omega)).trans (Memory.get_set_same _ _ _)
    | succ j =>
      rw [Nat.add_left_comm, Nat.add_comm j]
      exact ih (Nat.lt_of_succ_lt_succ hj) (by omega)

/-- Code placed at `pc` stands there, as far as the fetch may read it. -/
theorem codeAt_placeCode {s : State} {bs : List Byte} (hlen : bs.length ≤ 2 ^ 32)
    (hread : ∀ o, o < bs.length → codeReadable s o = true) : CodeAt bs (placeCode s 0 bs) := by
  intro o ho
  rw [codeByte, codeReadable_placeCode, if_pos (hread o ho), codeAddr_placeCode]
  simpa using get_placeCode (s := s) (o := 0) ho (by omega)

/-- As many bytes as the fetch ever takes, when they stand at `pc`, are all that it takes. -/
theorem codeBytes_eq_of_codeAt {bs : List Byte} {s : State} (hlen : bs.length = Config.maxLength) (h : CodeAt bs s) :
    codeBytes s = bs := by
  obtain ⟨rest, hbytes⟩ := codeBytes_eq_append_of_codeAt hlen.le h
  have htotal : (bs ++ rest).length ≤ Config.maxLength := hbytes ▸ length_codeBytes s
  rw [List.length_append, hlen] at htotal
  have hrest : rest = [] := List.eq_nil_of_length_eq_zero (by omega)
  rw [hbytes, hrest, List.append_nil]

/-! ### A table word's bytes -/

@[simp] theorem length_lowBytes (n w : Nat) : (lowBytes n w).length = n := by
  induction n generalizing w with
  | zero => rfl
  | succ n ih => rw [lowBytes, List.length_cons, ih]

theorem length_padded {bs : List Byte} (h : bs.length ≤ Config.maxLength) : (padded bs).length = Config.maxLength := by
  rw [padded, List.length_append, List.length_replicate, Nat.add_sub_cancel' h]

/-- Either reading of a word of at most 120 bits is padded to the longest instruction. -/
theorem length_tableBytes {nbits : Nat} (h : nbits ≤ 120) (w : Nat) : (tableBytes nbits w).length = Config.maxLength := by
  have hle : (lowBytes (nbits / 8) w).length ≤ Config.maxLength := by
    rw [length_lowBytes, Config.maxLength]
    omega
  simp only [tableBytes]
  split
  · exact length_padded (by rwa [List.length_reverse])
  · exact length_padded hle

theorem decodeTableWord_eq_some {nbits w : Nat} {i : Instr} (h : decodeTableWord nbits w = some i) :
    ∃ rest, decode tableEnv (tableBytes nbits w) = .ok (i, rest) := by
  unfold decodeTableWord at h
  split at h
  · next j rest hdec => exact ⟨rest, Option.some.inj h ▸ hdec⟩
  · cases h

/-! ### The launch after reset -/

/-- After reset and the boot steps `pc` is FFF0H in Mode64, from where every byte of an instruction is canonical, and no
region of the memory oracle is there. -/
theorem codeReadable_enableAll_reset : ∀ o < Config.maxLength, codeReadable (enableAll State.reset) o = true := by
  decide

/-- The launch decodes in Mode64 with the state's own parameter. -/
theorem decodeEnv_withFetchWord (s : State) (nbits w : Nat) :
    decodeEnv (s.withFetchWord nbits w) = ⟨.mode64, s.params.saeLLIgnored⟩ := by
  simp [decodeEnv, State.withFetchWord]

theorem codeBytes_reset_withFetchWord {nbits : Nat} (h : nbits ≤ 120) (w : Nat) :
    codeBytes (State.reset.withFetchWord nbits w) = tableBytes nbits w := by
  have hlen := length_tableBytes h w
  refine codeBytes_eq_of_codeAt hlen (codeAt_placeCode (hlen.trans_le (by decide)) fun o ho => ?_)
  exact codeReadable_enableAll_reset o (hlen ▸ ho)

/-- Settles O14: the fetch offers the decoder the word's own bytes, under the table's own environment. -/
theorem fetchWordRuns : Obligations.FetchWordRuns := by
  unfold Obligations.FetchWordRuns
  intro nbits w i hbits hword
  obtain ⟨rest, hdec⟩ := decodeTableWord_eq_some hword
  refine step_of_ok (rest := rest) ?_
  rw [decodeEnv_withFetchWord, codeBytes_reset_withFetchWord hbits]
  exact hdec

end Sys2Proof.Machine
end
